-- ==== Sys2Proof/Word.lean ====
section
/-! DEFINITION. Bytes, byte strings of a fixed length and blocks (`00_scope.md` R7).

A byte string is a finite sequence of bytes; index 0 is its first byte. The spec never views a block as a
128-bit integer (R7), so a block is sixteen bytes and not one wide bit vector. -/

namespace Sys2Proof

/-- A byte, a value 0 to 255; bit 7 is its most significant bit (R7). -/
abbrev Byte := BitVec 8

/-- A byte string of exactly `n` bytes, as the operand registers hold it. -/
abbrev Bytes (n : Nat) := Vector Byte n

/-- A block: a byte string of length exactly 16 (R7, `BLOCK` of R6). -/
abbrev Block := Bytes 16

end Sys2Proof
end

