-- ==== Sys2Proof/Syntax.lean ====
section
/-! DEFINITION. The instructions: one constructor per row of spec/opcode_table.json, five commands and twelve
micro-operations, and the spec's textual form of the commands (`30_encoding.md` R92, R98, R102). -/

namespace Sys2Proof

/-- The seventeen rows of the opcode table. An operand is the byte the command word carries, in bytes of key,
nonce or tag (R93). -/
inductive Instr
  | initEnkey (klen : Nat)
  | initDekey (klen : Nat)
  | encryptMessage (nlen tlen : Nat)
  | decryptMessage (nlen tlen : Nat)
  | msgReset
  | macInit
  | fmtB0
  | fmtAad
  | macFold
  | ctrLoad0
  | ctrInc
  | ksGen
  | payLoad
  | payXor
  | payStore
  | tagMask
  | tagCmp
  deriving DecidableEq, Repr

/-- The twelve micro-operations a message command is made of (`45_controller.md` R204), in the order of their
select codes (R102). -/
inductive MicroOp
  | macInit
  | fmtB0
  | fmtAad
  | macFold
  | ctrLoad0
  | ctrInc
  | ksGen
  | payLoad
  | payXor
  | payStore
  | tagMask
  | tagCmp
  deriving DecidableEq, Repr

/-- A micro-operation as an instruction of the table. -/
def MicroOp.toInstr : MicroOp → Instr
  | .macInit => .macInit
  | .fmtB0 => .fmtB0
  | .fmtAad => .fmtAad
  | .macFold => .macFold
  | .ctrLoad0 => .ctrLoad0
  | .ctrInc => .ctrInc
  | .ksGen => .ksGen
  | .payLoad => .payLoad
  | .payXor => .payXor
  | .payStore => .payStore
  | .tagMask => .tagMask
  | .tagCmp => .tagCmp

/-- The mnemonic of the opcode table. -/
def Instr.mnemonic : Instr → String
  | .initEnkey _ => "INIT_ENKEY"
  | .initDekey _ => "INIT_DEKEY"
  | .encryptMessage _ _ => "ENCRYPT_MESSAGE"
  | .decryptMessage _ _ => "DECRYPT_MESSAGE"
  | .msgReset => "MSG_RESET"
  | .macInit => "MAC_INIT"
  | .fmtB0 => "FMT_B0"
  | .fmtAad => "FMT_AAD"
  | .macFold => "MAC_FOLD"
  | .ctrLoad0 => "CTR_LOAD0"
  | .ctrInc => "CTR_INC"
  | .ksGen => "KS_GEN"
  | .payLoad => "PAY_LOAD"
  | .payXor => "PAY_XOR"
  | .payStore => "PAY_STORE"
  | .tagMask => "TAG_MASK"
  | .tagCmp => "TAG_CMP"

/-- The text of a command (R98): the mnemonic, then the operand bytes in decimal, separated by a comma. A
micro-operation has no operands and no text beyond its mnemonic. -/
def Instr.text (i : Instr) : String :=
  match i with
  | .initEnkey klen => i.mnemonic ++ " " ++ toString klen
  | .initDekey klen => i.mnemonic ++ " " ++ toString klen
  | .encryptMessage nlen tlen => i.mnemonic ++ " " ++ toString nlen ++ ", " ++ toString tlen
  | .decryptMessage nlen tlen => i.mnemonic ++ " " ++ toString nlen ++ ", " ++ toString tlen
  | .msgReset | .macInit | .fmtB0 | .fmtAad | .macFold | .ctrLoad0 | .ctrInc | .ksGen | .payLoad | .payXor
  | .payStore | .tagMask | .tagCmp => i.mnemonic

end Sys2Proof
end

