-- ==== Sys2Proof/WellFormed.lean ====
section
/-! DEFINITION. Which instruction terms can be written in a command word: each operand is a byte
(`30_encoding.md` R91, R93, R99). A value the engine rejects (a nonce length 6) is well-formed: it decodes and
fails validation (R96). -/

namespace Sys2Proof

/-- An operand that fits its byte-wide field (R90, R91). -/
abbrev operandFits (n : Nat) : Prop := n < 256

/-- The term has an encoding. -/
def Instr.WellFormed : Instr → Prop
  | .initEnkey klen => operandFits klen
  | .initDekey klen => operandFits klen
  | .encryptMessage nlen tlen => operandFits nlen ∧ operandFits tlen
  | .decryptMessage nlen tlen => operandFits nlen ∧ operandFits tlen
  | .msgReset => True
  | .macInit => True
  | .fmtB0 => True
  | .fmtAad => True
  | .macFold => True
  | .ctrLoad0 => True
  | .ctrInc => True
  | .ksGen => True
  | .payLoad => True
  | .payXor => True
  | .payStore => True
  | .tagMask => True
  | .tagCmp => True

end Sys2Proof
end

