-- ==== Sys2Proof/Decode.lean ====
section
/-! DEFINITION. The decoder, total and rejecting by name, and the encoder (`30_encoding.md` R90 to R96, R102).

Two spaces of codes: the 32-bit command words a host writes to `CMD`, and the 4-bit select codes by which the
sequencer names a micro-operation. A command word is a number and has no byte order (`20_memory.md` R64). -/

namespace Sys2Proof

/-- What names an instruction: a command word (R90) or a micro-operation select code (R102). -/
inductive Code
  | command (w : BitVec 32)
  | micro (c : BitVec 4)
  deriving DecidableEq, Repr

/-- Why a code spells no instruction (R95, R102). -/
inductive DecodeError
  /-- `OP = 0x00` or `OP >= 0x06`. -/
  | opcode
  /-- `RSV != 0`. -/
  | reserved
  /-- Format Z with `A != 0`. -/
  | operandA
  /-- Format K or Z with `B != 0`. -/
  | operandB
  /-- Micro-operation codes 12 to 15, which are unused. -/
  | microCode
  deriving DecidableEq, Repr

/-- `OP`, bits 7:0 of a command word (R90). -/
def fieldOp (w : BitVec 32) : BitVec 8 := w.extractLsb' 0 8

/-- `A`, bits 15:8: key length (format K) or nonce length (format M) (R90, R93). -/
def fieldA (w : BitVec 32) : BitVec 8 := w.extractLsb' 8 8

/-- `B`, bits 23:16: tag length (format M) (R90, R93). -/
def fieldB (w : BitVec 32) : BitVec 8 := w.extractLsb' 16 8

/-- `RSV`, bits 31:24, which must be 0 (R90). -/
def fieldRsv (w : BitVec 32) : BitVec 8 := w.extractLsb' 24 8

/-- Format K (R91): one operand byte, `B` must be zero. -/
def decodeK (mk : Nat → Instr) (w : BitVec 32) : Except DecodeError Instr :=
  if fieldB w = 0 then .ok (mk (fieldA w).toNat) else .error .operandB

/-- Format M (R91): two operand bytes. -/
def decodeM (mk : Nat → Nat → Instr) (w : BitVec 32) : Except DecodeError Instr :=
  .ok (mk (fieldA w).toNat (fieldB w).toNat)

/-- Format Z (R91): both operand bytes must be zero. -/
def decodeZ (i : Instr) (w : BitVec 32) : Except DecodeError Instr :=
  if fieldA w ≠ 0 then .error .operandA else if fieldB w ≠ 0 then .error .operandB else .ok i

/-- The command a word spells (R92, R94), or why it is illegal (R95). -/
def decodeCommand (w : BitVec 32) : Except DecodeError Instr :=
  if fieldRsv w ≠ 0 then .error .reserved
  else if fieldOp w = 0x01 then decodeK .initEnkey w
  else if fieldOp w = 0x02 then decodeK .initDekey w
  else if fieldOp w = 0x03 then decodeM .encryptMessage w
  else if fieldOp w = 0x04 then decodeM .decryptMessage w
  else if fieldOp w = 0x05 then decodeZ .msgReset w
  else .error .opcode

/-- The micro-operation a select code names (R102). -/
def decodeMicro (c : BitVec 4) : Except DecodeError MicroOp :=
  match c.toNat with
  | 0 => .ok .macInit
  | 1 => .ok .fmtB0
  | 2 => .ok .fmtAad
  | 3 => .ok .macFold
  | 4 => .ok .ctrLoad0
  | 5 => .ok .ctrInc
  | 6 => .ok .ksGen
  | 7 => .ok .payLoad
  | 8 => .ok .payXor
  | 9 => .ok .payStore
  | 10 => .ok .tagMask
  | 11 => .ok .tagCmp
  | _ => .error .microCode

/-- The decoder: total over both spaces. -/
def decode : Code → Except DecodeError Instr
  | .command w => decodeCommand w
  | .micro c => (decodeMicro c).map MicroOp.toInstr

/-- A command word from its fields, `RSV` zero (R90). -/
def commandWord (op a b : Nat) : BitVec 32 :=
  BitVec.ofNat 8 0 ++ BitVec.ofNat 8 b ++ BitVec.ofNat 8 a ++ BitVec.ofNat 8 op

/-- The select code of a micro-operation (R102). -/
def MicroOp.code : MicroOp → BitVec 4
  | .macInit => 0
  | .fmtB0 => 1
  | .fmtAad => 2
  | .macFold => 3
  | .ctrLoad0 => 4
  | .ctrInc => 5
  | .ksGen => 6
  | .payLoad => 7
  | .payXor => 8
  | .payStore => 9
  | .tagMask => 10
  | .tagCmp => 11

/-- The encoder, from the tables of R92, R94 and R102. -/
def encode : Instr → Code
  | .initEnkey klen => .command (commandWord 0x01 klen 0)
  | .initDekey klen => .command (commandWord 0x02 klen 0)
  | .encryptMessage nlen tlen => .command (commandWord 0x03 nlen tlen)
  | .decryptMessage nlen tlen => .command (commandWord 0x04 nlen tlen)
  | .msgReset => .command (commandWord 0x05 0 0)
  | .macInit => .micro MicroOp.macInit.code
  | .fmtB0 => .micro MicroOp.fmtB0.code
  | .fmtAad => .micro MicroOp.fmtAad.code
  | .macFold => .micro MicroOp.macFold.code
  | .ctrLoad0 => .micro MicroOp.ctrLoad0.code
  | .ctrInc => .micro MicroOp.ctrInc.code
  | .ksGen => .micro MicroOp.ksGen.code
  | .payLoad => .micro MicroOp.payLoad.code
  | .payXor => .micro MicroOp.payXor.code
  | .payStore => .micro MicroOp.payStore.code
  | .tagMask => .micro MicroOp.tagMask.code
  | .tagCmp => .micro MicroOp.tagCmp.code

/-- A row of the opcode table: match and mask over the command word (R94), or a select code (R102). -/
inductive Row
  | command (pattern mask : BitVec 32)
  | micro (c : BitVec 4)
  deriving DecidableEq, Repr

/-- The row of the opcode table an instruction belongs to. -/
def Instr.row : Instr → Row
  | .initEnkey _ => .command 0x00000001 0xFFFF00FF
  | .initDekey _ => .command 0x00000002 0xFFFF00FF
  | .encryptMessage _ _ => .command 0x00000003 0xFF0000FF
  | .decryptMessage _ _ => .command 0x00000004 0xFF0000FF
  | .msgReset => .command 0x00000005 0xFFFFFFFF
  | .macInit => .micro 0b0000
  | .fmtB0 => .micro 0b0001
  | .fmtAad => .micro 0b0010
  | .macFold => .micro 0b0011
  | .ctrLoad0 => .micro 0b0100
  | .ctrInc => .micro 0b0101
  | .ksGen => .micro 0b0110
  | .payLoad => .micro 0b0111
  | .payXor => .micro 0b1000
  | .payStore => .micro 0b1001
  | .tagMask => .micro 0b1010
  | .tagCmp => .micro 0b1011

/-- A code spells a row when `w AND mask = match` (R94), or when it is the row's select code. -/
def Row.spelledBy : Row → Code → Prop
  | .command pattern mask, .command w => w &&& mask = pattern
  | .micro c, .micro c' => c = c'
  | .command _ _, .micro _ => False
  | .micro _, .command _ => False

/-- The code of table bits `w`: at most a byte is a micro-operation row (4 bits of select code, in whole bytes),
32 bits a command row. -/
def codeOfTableBits (nbits w : Nat) : Option Code :=
  if nbits ≤ 8 then if w < 16 then some (.micro (BitVec.ofNat 4 w)) else none
  else if w < 2 ^ 32 then some (.command (BitVec.ofNat 32 w)) else none

/-- The instruction the decoder reads from table bits `w`, or none where it refuses. -/
def decodeTableWord (nbits w : Nat) : Option Instr :=
  match codeOfTableBits nbits w with
  | none => none
  | some c =>
    match decode c with
    | .ok i => some i
    | .error _ => none

end Sys2Proof
end

