-- ==== Sys2Proof/Config.lean ====
section
/-! DEFINITION. What an implementation fixes and what the spec leaves free (`00_scope.md` R6,
`40_block_cipher.md` R120 to R125, `10_state.md` R51). The log entries named are those of notes/assumptions. -/

namespace Sys2Proof

/-- A value of the opaque type `KeySchedule` (R21, R120): a byte string of no fixed length, which is the
spec's opaque width written as plain data. DESIGN CHOICE, safe: log entry 1. -/
structure KeySchedule where
  bytes : List Byte
  deriving DecidableEq, Repr, Inhabited

/-- The bound block cipher: the two functions that are its whole interface (R120). Both are total and pure
(R121 to R123); there is no decrypt primitive (R124). -/
structure Cipher where
  /-- `expand_key(raw_key)` (R121). -/
  expandKey : List Byte → KeySchedule
  /-- `encrypt_block(ks, b)` (R122). -/
  encryptBlock : KeySchedule → Block → Block

/-- `RELEASE_POLICY` (R6): whether a decryption writes plaintext before the tag is known. -/
inductive ReleasePolicy
  | streaming
  | buffered
  deriving DecidableEq, Repr

/-- The build parameters that are data (R6, R39, R69). They are fixed for the machine: State holds them in one
field that no step writes (DESIGN CHOICE, log entry 2). -/
structure Build where
  /-- `LONG_MESSAGES`: lengths may exceed 2^32 - 1. -/
  longMessages : Bool
  /-- `RELEASE_POLICY`. -/
  releasePolicy : ReleasePolicy
  /-- `KEY_SIZES`: the raw key lengths, in bytes, that the bound cipher accepts (R125). -/
  keySizes : List Nat
  /-- `HDR_CAP`: how many bytes of `HDR` the platform has (`20_memory.md` R69). -/
  hdrCap : Nat
  /-- `MSG_CAP`: how many bytes of `MSG` the platform has (R69). -/
  msgCap : Nat
  deriving DecidableEq, Repr

/-- `KEY_MAX`: the largest accepted key size, which is the size of the `KEY` register (R6, R125). -/
def Build.keyMax (b : Build) : Nat :=
  b.keySizes.foldr max 0

/-- `LEN_MAX`: the largest length the build admits (R6). -/
def Build.lenMax (b : Build) : Nat :=
  if b.longMessages then 2 ^ 64 - 1 else 2 ^ 32 - 1

/-- What R125 and R69 ask of the parameters: `KEY_SIZES` is non-empty, and a space has at most 2^64 bytes. -/
abbrev Build.wf (b : Build) : Prop :=
  b.keySizes ≠ [] ∧ b.hdrCap ≤ 2 ^ 64 ∧ b.msgCap ≤ 2 ^ 64

namespace Config

/-- The cipher's key expansion: a free function, of which nothing is known but its type (R120, R123). -/
opaque expandKey : List Byte → KeySchedule

/-- The cipher's single-block encryption: a free function, of which nothing is known but its type; not that it
is a permutation, not that it is AES (R120, R123). -/
opaque encryptBlock : KeySchedule → Block → Block

/-- The cipher bound to this machine. -/
def cipher : Cipher := { expandKey := expandKey, encryptBlock := encryptBlock }

/-- What byte `HDR` holds at an offset that nothing has written: an arbitrary input of the launch, never zeros
(`10_state.md` R51, U9). A free value, log entry 4. -/
opaque hdrLaunch : Nat → Byte

/-- The same for `MSG` (R51, U9). A free value, log entry 4. -/
opaque msgLaunch : Nat → Byte

/-- The defaults the spec gives the open parameters (R6, R69, R125). They are the build of `State.reset`; every
other definition takes the build from the state it runs on (log entry 2). -/
def defaultBuild : Build where
  longMessages := true
  releasePolicy := .streaming
  keySizes := [16, 24, 32]
  hdrCap := 2 ^ 64
  msgCap := 2 ^ 64

end Config

end Sys2Proof
end

