-- ==== Sys2Proof/Machine/State.lean ====
section
/-! DEFINITION. The state of the engine (`10_state.md` R20 to R51), its faults and refusals, and the state right
after reset (R50). Plain data throughout; log entries are those of notes/assumptions. -/

namespace Sys2Proof.Machine

/-- `dir`: the keying direction (R22). -/
inductive Dir
  | enc
  | dec
  deriving DecidableEq, Repr

/-- `state`: the context's discriminator (R29); the codes are in `CtxState.code`. -/
inductive CtxState
  | unkeyed
  | keyed
  | processing
  | messageOk
  | messageFailed
  | error
  deriving DecidableEq, Repr

/-- `phase`: the sequencer's position, which stands in place of a program counter (R38). -/
inductive Phase
  | idle
  | b0
  | aad
  | payload
  | tag
  deriving DecidableEq, Repr

/-- The six negative statuses, the class `RETURN_ERROR` (`30_encoding.md` R100, `60_exceptions.md` R231, R232). -/
inductive ErrorCode
  /-- `CBC_BAD_KEY`, -2. -/
  | badKey
  /-- `CBC_BAD_AUTH_FIELD_LENGTH`, -3. -/
  | badAuthFieldLength
  /-- `CBC_BAD_NONCE_LENGTH`, -4. -/
  | badNonceLength
  /-- `CBC_BAD_AUTH_CALL`, -5. -/
  | badAuthCall
  /-- `CBC_AUTH_LENGTH_ERROR`, -6. -/
  | authLengthError
  /-- `CBC_MSG_LENGTH_ERROR`, -7. -/
  | msgLengthError
  deriving DecidableEq, Repr

/-- What `STATUS` can hold (R36, R100, R230): good, the warning, or one of the six errors. Log entry 14. -/
inductive Status
  /-- `RETURN_GOOD`, 0. -/
  | good
  /-- `RETURN_WARN`, 1. -/
  | warn
  /-- A negative status. -/
  | error (e : ErrorCode)
  deriving DecidableEq, Repr

/-- The byte spaces the host addresses by byte index (R34, R46). -/
inductive Space
  | key
  | nonce
  | tagIn
  | tagOut
  | hdr
  | msg
  deriving DecidableEq, Repr

/-- What the host does between commands: the four primitives of `20_memory.md` R61, and the reset, which the
platform applies (`70_reset_and_hazards.md` R260). A write to register 0 issues a command. Log entry 7. -/
inductive HostAction
  | regRead (k : Nat)
  | regWrite (k : Nat) (v : BitVec 64)
  | byteRead (sp : Space) (i : Nat)
  | byteWrite (sp : Space) (i : Nat) (v : Byte)
  | reset
  deriving DecidableEq, Repr

/-- The bytes of a buffer space that something has written or a launch has given, as pairs of offset and byte,
offsets strictly rising. An offset that is not listed holds a byte of the launch nobody has named
(`Config.hdrLaunch`, `Config.msgLaunch`). Log entry 4. -/
abbrev Memory := List Host.Cell

/-- Everything the engine holds. -/
structure State where
  /-- `key_schedule` (R21). -/
  keySchedule : Option KeySchedule
  /-- `dir` (R22). -/
  dir : Dir
  /-- `counter_block` (R23). -/
  counterBlock : Block
  /-- `mac_accumulator` (R24). -/
  macAccumulator : Block
  /-- `header_len` (R25), the latched associated-data length. -/
  headerLen : BitVec 64
  /-- `header_limit` (R25), the number of associated-data blocks. -/
  headerLimit : BitVec 64
  /-- `msg_len` (R26), the latched payload length. -/
  msgLen : BitVec 64
  /-- `cnt` (R27): bytes of the encoded associated-data stream consumed; 65 bits, log entry 13. -/
  cnt : BitVec 65
  /-- `text_position` (R27): payload bytes consumed. -/
  textPosition : BitVec 64
  /-- `nonce_len` (R28). -/
  nonceLen : BitVec 8
  /-- `tag_len` (R28). -/
  tagLen : BitVec 8
  /-- `state` (R29). -/
  state : CtxState
  /-- `last_error` (R30); `none` is the value 0. Log entry 14. -/
  lastError : Option ErrorCode
  /-- `phase` (R38). -/
  phase : Phase
  /-- `STATUS`, register 1 (R36). -/
  status : Status
  /-- `MSG_LEN`, register 4 (R40). -/
  msgLenReg : BitVec 64
  /-- `HDR_LEN`, register 5 (R40). -/
  hdrLenReg : BitVec 64
  /-- `KEY` (R41): `KEY_MAX` bytes. -/
  key : List Byte
  /-- `NONCE` (R42). -/
  nonce : Bytes 13
  /-- `TAG_IN` (R43). -/
  tagIn : Bytes 16
  /-- `TAG_OUT` (R44). -/
  tagOut : Bytes 16
  /-- `HDR` (R46). -/
  hdr : Memory
  /-- `MSG` (R46). -/
  msg : Memory
  /-- The build parameters, which `CONFIG`, register 3, shows (R39, R49). No step writes them; log entry 2. -/
  config : Build
  /-- The temporary `blk` (R48). The model's own field, log entry 6. -/
  blk : List Byte
  /-- The temporary `ks` (R48). The model's own field, log entry 6. -/
  ks : Block
  /-- The temporary `match` of `TAG_CMP` (`44_tag.md` R183). The model's own field, log entry 6. -/
  tagMatch : Bool
  /-- The select codes (`30_encoding.md` R102) of the running group that are still to issue. The model's own field,
  log entry 6. -/
  sel : List (BitVec 4)
  /-- What the host will do, next action first: an input of the launch. The model's own field, log entry 7. -/
  host : List HostAction
  /-- What the host has read, oldest first. The model's own field, log entry 7. -/
  reads : List (BitVec 64)
  deriving DecidableEq, Repr

/-- Why the machine stops where the spec gives a case no meaning (93 Part 1, treatment "fault"). No fault can be
reached from a command that a host issues. Each is safe: the model stops where the spec has no run. -/
inductive Fault
  /-- Raised by `CTR_INC` when the counter suffix is all `0xFF`: "a fault, never a wrapped value" (R163, U3). Safe. -/
  | counterWrap
  /-- Raised by `MAC_FOLD` and `KS_GEN` when `key_schedule` is `none`: `E(b)` "is only evaluated while
  `key_schedule != none`" (R122). Safe. -/
  | noKeySchedule
  /-- Raised by `MAC_FOLD` and `PAY_XOR` when `blk` has a length their rules do not admit (R152, R8). Safe. -/
  | blockLength
  /-- Raised by `FMT_B0`, `CTR_LOAD0` and `CTR_INC` when the latched nonce length is not 7 to 13, so that no `L`
  exists (R11, R28). Safe. -/
  | nonceLength
  /-- Raised by `FMT_B0` when the latched tag length is outside the set of R28, and by `TAG_MASK` and `TAG_CMP` when it
  is more than 16. Safe. -/
  | tagLength
  /-- Raised by `FMT_B0` when the latched payload length does not fit its field of `B0` (R131, R8). Safe. -/
  | lengthField
  /-- Raised by `FMT_AAD` when its precondition fails: there is no byte of associated data left (R138). Safe. -/
  | aadExhausted
  /-- Raised by `FMT_AAD` when the header needs the 10-byte prefix and `LONG_MESSAGES` is off: the form does not exist
  (R134). Safe. -/
  | noPrefixForm
  /-- Raised by `PAY_LOAD` when its precondition fails: there is no payload byte left (R165). Safe. -/
  | payloadExhausted
  /-- Raised by `PAY_STORE` when the bytes would not lie below `msg_len`, or are more than 16 (R63). Safe. -/
  | storeOutside
  /-- Raised by the sequencer in a state with `state = PROCESSING` and `phase = IDLE`, which R38 rules out. Safe. -/
  | noGroup
  /-- Raised by a message command whose groups did not end at their number (R205), which R206 rules out. Safe. -/
  | groupOverrun
  deriving DecidableEq, Repr

/-- Why the model has no such move. Each is safe. -/
inductive Refusal
  /-- Raised by an arm of exec whose instruction has no meaning yet. Safe. -/
  | notModelled (mnemonic : String)
  /-- Raised by a host access to a register number above 5: "nothing else is addressable" (R69). Safe. -/
  | noSuchRegister
  /-- Raised by a host access outside a byte space: "refused by the model (there is no such location)" (R61). Safe. -/
  | noSuchLocation
  /-- Raised by a host write to `CMD` of a value that is no 32-bit word (R34, R90). Safe. -/
  | valueTooWide
  /-- Raised when the select code to issue is one of 12 to 15, which are unused (R102). Safe. -/
  | unusedMicroCode
  deriving DecidableEq, Repr

/-- A register of `n` zero bytes (R50). -/
def zeroBytes (n : Nat) : Bytes n := Vector.replicate n 0

/-- The reset values of R50 for a given build. Nothing is listed in `HDR` and `MSG`: their contents are the
launch's (R51). -/
def State.resetOf (b : Build) : State where
  keySchedule := none
  dir := .enc
  counterBlock := zeroBytes 16
  macAccumulator := zeroBytes 16
  headerLen := 0
  headerLimit := 0
  msgLen := 0
  cnt := 0
  textPosition := 0
  nonceLen := 0
  tagLen := 0
  state := .unkeyed
  lastError := none
  phase := .idle
  status := .good
  msgLenReg := 0
  hdrLenReg := 0
  key := List.replicate b.keyMax 0
  nonce := zeroBytes 13
  tagIn := zeroBytes 16
  tagOut := zeroBytes 16
  hdr := []
  msg := []
  config := b
  blk := []
  ks := zeroBytes 16
  tagMatch := false
  sel := []
  host := []
  reads := []

/-- The machine right after reset (R50, R260), with the spec's default build (R6, log entry 2) and a host that has
not acted yet. -/
def State.reset : State := State.resetOf Config.defaultBuild

end Sys2Proof.Machine
end

