-- ==== Sys2Proof/Machine/Ops.lean ====
section
/-! DEFINITION. The named operations: byte strings (`00_scope.md` R8), the buffer spaces (`20_memory.md` R62, R63),
the cipher call (R122), clearing the per-message fields (R33), raising a status (`60_exceptions.md` R236, R238),
and the reset (`70_reset_and_hazards.md` R260). -/

namespace Sys2Proof.Machine

/-! ## Byte strings -/

/-- `zeros(n)` (R8). -/
def zeros (n : Nat) : List Byte := List.replicate n 0

/-- `be(v, n)`: the `n`-byte big-endian encoding, byte `k` being `floor(v / 2^(8(n-1-k))) mod 256` (R8). -/
def be (v n : Nat) : List Byte :=
  (List.range n).map fun k => BitVec.ofNat 8 (v / 2 ^ (8 * (n - 1 - k)))

/-- `unbe(s)`: the natural a big-endian byte string encodes (R8). -/
def unbe (s : List Byte) : Nat :=
  s.foldl (fun v b => v * 256 + b.toNat) 0

/-- `xor(s, t)` of two strings of equal length (R8). -/
def xorBytes (s t : List Byte) : List Byte :=
  List.zipWith (fun a b => a ^^^ b) s t

/-- The `n` bytes of a string, as a register of `n` bytes holds them. A shorter string is followed by zero bytes,
which for `n = 16` is `pad16` (R8). -/
def toBytes (n : Nat) (s : List Byte) : Bytes n :=
  ⟨((List.range n).map fun k => s.getD k 0).toArray, by simp⟩

/-- `pad16(s)`, defined for `len(s) <= 16` (R8). -/
def pad16 (s : List Byte) : Block := toBytes 16 s

/-- `xor` of two blocks. -/
def xorBlock (a b : Block) : Block :=
  toBytes 16 (xorBytes a.toList b.toList)

/-- `s[i] <- v` on a register of bytes. -/
def putByte {n : Nat} (s : Bytes n) (i : Nat) (v : Byte) : Bytes n :=
  toBytes n (s.toList.set i v)

/-- `ceil_div(a, b)`: the least `q` with `q*b >= a` (R8). -/
def ceilDiv (a b : Nat) : Nat := (a + b - 1) / b

/-! ## The buffer spaces -/

/-- The byte listed at an offset, if one is. -/
def Memory.byteAt? : Memory → Nat → Option Byte
  | [], _ => none
  | c :: m, a => if c.1 = a then some c.2 else Memory.byteAt? m a

/-- What an offset holds: the byte listed there, else the byte of the launch (R51). -/
def Memory.byteAt (m : Memory) (launch : Nat → Byte) (a : Nat) : Byte :=
  (Memory.byteAt? m a).getD (launch a)

/-- `SPACE[a] <- v`, keeping the offsets rising. -/
def Memory.put : Memory → Nat → Byte → Memory
  | [], a, v => [(a, v)]
  | c :: m, a, v =>
    if a < c.1 then (a, v) :: c :: m
    else if a = c.1 then (a, v) :: m
    else c :: Memory.put m a v

/-- `SPACE[a+k] <- s[k]` for every byte of `s`, in rising order (R63). -/
def Memory.write : Memory → Nat → List Byte → Memory
  | m, _, [] => m
  | m, a, v :: s => Memory.write (Memory.put m a v) (a + 1) s

/-- The canonical form: offsets strictly rising, each below 2^64 (R46). -/
abbrev Memory.wf (m : Memory) : Prop :=
  m.Pairwise (fun c d => c.1 < d.1) ∧ ∀ c ∈ m, c.1 < 2 ^ 64

/-- `HDR[a]`. -/
def State.hdrByte (s : State) (a : Nat) : Byte :=
  Memory.byteAt s.hdr Config.hdrLaunch a

/-- `MSG[a]`. -/
def State.msgByte (s : State) (a : Nat) : Byte :=
  Memory.byteAt s.msg Config.msgLaunch a

/-- `MemRead(HDR, a, n)` (R62). -/
def State.memReadHdr (s : State) (a n : Nat) : List Byte :=
  (List.range n).map fun k => s.hdrByte (a + k)

/-- `MemRead(MSG, a, n)` (R62). -/
def State.memReadMsg (s : State) (a n : Nat) : List Byte :=
  (List.range n).map fun k => s.msgByte (a + k)

/-- `MemWrite(MSG, a, len(bytes), bytes)` (R63). -/
def State.memWriteMsg (s : State) (a : Nat) (bytes : List Byte) : State :=
  { s with msg := Memory.write s.msg a bytes }

/-! ## Outcomes -/

/-- Goes on with `f` if there is a next state. -/
def andThen {α : Type} (o : Host.Outcome State Fault Refusal) (f : State → Host.Outcome α Fault Refusal) :
    Host.Outcome α Fault Refusal :=
  match o with
  | .next s => f s
  | .fault r => .fault r
  | .refused r => .refused r

/-! ## The cipher -/

/-- `E(b)` under the context's key schedule (R8, R122), handed to `f`. There is no `E` without a key schedule. -/
def withE (c : Cipher) (s : State) (b : Block) (f : Block → State) : Host.Outcome State Fault Refusal :=
  match s.keySchedule with
  | none => .fault .noKeySchedule
  | some k => .next (f (c.encryptBlock k b))

/-! ## The context -/

/-- `ClearMessageFields()` (R33). -/
def clearMessageFields (s : State) : State :=
  { s with
    counterBlock := zeroBytes 16
    macAccumulator := zeroBytes 16
    headerLen := 0
    headerLimit := 0
    msgLen := 0
    cnt := 0
    textPosition := 0
    nonceLen := 0
    tagLen := 0 }

/-- The temporaries do not persist from one group to the next (R48): the model empties its latches of them. -/
def clearTemps (s : State) : State :=
  { s with blk := [], ks := zeroBytes 16, tagMatch := false }

/-! ## Raising a status, and the way back

The spec's exceptions are commands that end with a negative status (`60_exceptions.md` R230). Nothing is saved and
control goes nowhere (R236); the way back is `MSG_RESET` or a key setup (R241). -/

/-- `raise Status(code)` (R236). Only `KEYED` becomes `ERROR`. -/
def raiseStatus (code : ErrorCode) (s : State) : State :=
  { s with
    status := .error code
    lastError := some code
    state := if s.state = .keyed then .error else s.state }

/-- An illegal command word (R238): -5 in `STATUS` and `last_error`, nothing else, not even `state`. -/
def illegalCommand (s : State) : State :=
  { s with status := .error .badAuthCall, lastError := some .badAuthCall }

/-- What a code that spells nothing does: an illegal command word ends with its status (R95, R238); an unused
micro-operation code never occurs (R102) and is refused. -/
def undecoded (c : Code) (s : State) : Host.Outcome State Fault Refusal :=
  match c with
  | .command _ => .next (illegalCommand s)
  | .micro _ => .refused .unusedMicroCode

/-- The reset (R260, R262): every piece of state at its value of R50, but that `HDR` and `MSG` are not touched, the
build is the build, and the host goes on with its actions. -/
def applyReset (s : State) : State :=
  { State.resetOf s.config with hdr := s.hdr, msg := s.msg, host := s.host, reads := s.reads }

end Sys2Proof.Machine
end

