-- ==== Sys2Proof/Machine/Operands.lean ====
section
/-! DEFINITION. The operands of the commands and of the micro-operations: the lengths a message may have
(`45_controller.md` R197, R198), `L`, the slices of the operand registers (`10_state.md` R41 to R43), the encoded
associated-data stream (`41_formatter.md` R134 to R136) and the payload blocks (`43_counter_cipher.md` R168). -/

namespace Sys2Proof.Machine

/-! ## Lengths -/

/-- A nonce length the engine accepts: 7 to 13 (R6, R197). -/
abbrev nonceLenLegal (n : Nat) : Prop := 7 ≤ n ∧ n ≤ 13

/-- A tag length the engine accepts (R6, R197). -/
abbrev tagLenLegal (n : Nat) : Prop := n ∈ [4, 6, 8, 10, 12, 14, 16]

/-- `L = 15 - nonce_len` of the latched nonce length, which exists for 7 to 13 only (R11, R28). -/
def latchedL (s : State) : Option Nat :=
  if nonceLenLegal s.nonceLen.toNat then some (15 - s.nonceLen.toNat) else none

/-- `N = ceil_div(msg_len, 16)`, the number of payload blocks (R168). -/
def payloadBlocks (msgLen : Nat) : Nat := ceilDiv msgLen 16

/-! ## Slices of the operand registers -/

/-- `KEY[0..klen)` (R41). -/
def keyBytes (s : State) (klen : Nat) : List Byte := s.key.take klen

/-- `NONCE[0..nonce_len)` (R42). -/
def nonceBytes (s : State) : List Byte := s.nonce.toList.take s.nonceLen.toNat

/-- `TAG_OUT[0..tag_len)` (R44). -/
def tagOutBytes (s : State) : List Byte := s.tagOut.toList.take s.tagLen.toNat

/-- `TAG_IN[0..tag_len)` (R43). -/
def tagInBytes (s : State) : List Byte := s.tagIn.toList.take s.tagLen.toNat

/-! ## The encoded associated-data stream -/

/-- `plen(h)`: the bytes of the length prefix (R134). -/
def plen (h : Nat) : Nat :=
  if h = 0 then 0 else if h < 65280 then 2 else if h < 2 ^ 32 then 6 else 10

/-- `aad_prefix(h)` (R134); the 4-byte and 8-byte lengths are big-endian (R64). -/
def aadPrefix (h : Nat) : List Byte :=
  if h = 0 then []
  else if h < 65280 then be h 2
  else if h < 2 ^ 32 then [0xFF, 0xFE] ++ be h 4
  else [0xFF, 0xFF] ++ be h 8

/-- The length of `aad_stream`: `plen(h) + h` (R135). -/
def aadTotal (h : Nat) : Nat := plen h + h

/-- `header_limit`: the number of associated-data blocks (R25, R136). -/
def aadBlocks (h : Nat) : Nat := if h = 0 then 0 else ceilDiv (aadTotal h) 16

/-- Byte `q` of the padded stream (R136), the header read by `hdr`. -/
def aadByte (h : Nat) (hdr : Nat → Byte) (q : Nat) : Byte :=
  if q < plen h then (aadPrefix h).getD q 0
  else if q < aadTotal h then hdr (q - plen h)
  else 0

/-- The 16 bytes of the padded stream from position `q` on. -/
def aadBytesFrom (h : Nat) (hdr : Nat → Byte) (q : Nat) : List Byte :=
  (List.range 16).map fun k => aadByte h hdr (q + k)

end Sys2Proof.Machine
end

