-- ==== Sys2Proof/Machine/Flags.lean ====
section
/-! DEFINITION. The engine has no condition codes (`10_state.md` R47). What it has are the flags bytes of the blocks
it builds (`41_formatter.md` R132, `43_counter_cipher.md` R160), the numeric codes of its states and statuses, and the
register views made of them (R29, R36 to R39, `30_encoding.md` R100). -/

namespace Sys2Proof.Machine

/-! ## The flags bytes -/

/-- `Adata`: 1 exactly when there is associated data (R140). -/
def adataBit (h : Nat) : Nat := if h > 0 then 1 else 0

/-- The flags byte of `B0`: `Adata*64 + ((tag_len - 2)/2)*8 + (L - 1)` (R132). -/
def b0Flags (h tagLen l : Nat) : Byte :=
  BitVec.ofNat 8 (adataBit h * 64 + ((tagLen - 2) / 2) * 8 + (l - 1))

/-- The flags byte of a counter block: `L - 1` (R160). -/
def ctrFlags (l : Nat) : Byte := BitVec.ofNat 8 (l - 1)

/-! ## Codes -/

/-- The code of `dir` (R22). -/
def Dir.code : Dir → BitVec 1
  | .enc => 0
  | .dec => 1

/-- The code of `state` (R29). -/
def CtxState.code : CtxState → BitVec 3
  | .unkeyed => 0
  | .keyed => 1
  | .processing => 2
  | .messageOk => 3
  | .messageFailed => 4
  | .error => 5

/-- The code of `phase` (R38). -/
def Phase.code : Phase → BitVec 3
  | .idle => 0
  | .b0 => 1
  | .aad => 2
  | .payload => 3
  | .tag => 4

/-- The value of a negative status (R100). -/
def ErrorCode.value : ErrorCode → Int
  | .badKey => -2
  | .badAuthFieldLength => -3
  | .badNonceLength => -4
  | .badAuthCall => -5
  | .authLengthError => -6
  | .msgLengthError => -7

/-- The value of a status (R100). -/
def Status.value : Status → Int
  | .good => 0
  | .warn => 1
  | .error e => e.value

/-! ## Register views -/

/-- `STATUS`, 32-bit two's complement (R9, R36, R100). -/
def statusWord (s : State) : BitVec 32 := BitVec.ofInt 32 s.status.value

/-- `last_error mod 256` (R37). -/
def lastErrorByte (s : State) : BitVec 8 :=
  match s.lastError with
  | none => 0
  | some e => BitVec.ofInt 8 e.value

/-- `CTX` (R37): `STATE` 2:0, `DIR` 3, `PHASE` 6:4, bit 7 zero, `LAST_ERROR` 15:8, bits 31:16 zero. -/
def ctxWord (s : State) : BitVec 32 :=
  (0 : BitVec 16) ++ lastErrorByte s ++ (0 : BitVec 1) ++ s.phase.code ++ s.dir.code ++ s.state.code

/-- Bit 0 of `CONFIG` (R39). -/
def longMessagesBit (b : Build) : BitVec 1 := if b.longMessages then 1 else 0

/-- Bit 1 of `CONFIG` (R39). -/
def releasePolicyBit (b : Build) : BitVec 1 :=
  match b.releasePolicy with
  | .streaming => 0
  | .buffered => 1

/-- `CONFIG` (R39): bit 0 `LONG_MESSAGES`, bit 1 `RELEASE_POLICY`, bits 31:2 zero. -/
def configWord (s : State) : BitVec 32 :=
  (0 : BitVec 30) ++ releasePolicyBit s.config ++ longMessagesBit s.config

end Sys2Proof.Machine
end

