-- ==== Sys2Proof/Machine/CounterCipher.lean ====
section
/-! DEFINITION. The CTR keystream generator (`43_counter_cipher.md`): the counter block, `increment`, and the
micro-operations `CTR_LOAD0`, `CTR_INC`, `KS_GEN`, `PAY_LOAD`, `PAY_XOR`, `PAY_STORE`. -/

namespace Sys2Proof.Machine

/-- `Ctr(nonce, j) = [L - 1] ++ nonce ++ be(j, L)` with `L = 15 - len(nonce)` (R160). -/
def ctrBlock (nonce : List Byte) (j : Nat) : Block :=
  toBytes 16 (ctrFlags (15 - nonce.length) :: (nonce ++ be j (15 - nonce.length)))

/-- `increment(cb, L)`: a big-endian add of 1 over the last `L` bytes. The wrap has no value (R163, U3). -/
def increment (cb : Block) (l : Nat) : Option Block :=
  let v := unbe (cb.toList.drop (16 - l)) + 1
  if v = 2 ^ (8 * l) then none
  else some (toBytes 16 (cb.toList.take (16 - l) ++ be v l))

/-- `CTR_LOAD0` (R162): `counter_block <- [L - 1] ++ NONCE[0..nonce_len) ++ zeros(L)`. -/
def execCtrLoad0 (s : State) : Host.Outcome State Fault Refusal :=
  match latchedL s with
  | none => .fault .nonceLength
  | some l => .next { s with counterBlock := toBytes 16 (ctrFlags l :: (nonceBytes s ++ zeros l)) }

/-- `CTR_INC` (R163): `counter_block <- increment(counter_block, 15 - nonce_len)`; "a fault, never a wrapped value". -/
def execCtrInc (s : State) : Host.Outcome State Fault Refusal :=
  match latchedL s with
  | none => .fault .nonceLength
  | some l =>
    match increment s.counterBlock l with
    | none => .fault .counterWrap
    | some cb => .next { s with counterBlock := cb }

/-- `KS_GEN` (R164): `ks = E(counter_block)`. -/
def ksGen (c : Cipher) (s : State) : Host.Outcome State Fault Refusal :=
  withE c s s.counterBlock fun e => { s with ks := e }

/-- `KS_GEN` with the bound cipher. -/
def execKsGen (s : State) : Host.Outcome State Fault Refusal :=
  ksGen Config.cipher s

/-- How many bytes the next payload block has: `min(16, msg_len - text_position)` (R165). -/
def payloadCount (s : State) : Nat :=
  min 16 (s.msgLen.toNat - s.textPosition.toNat)

/-- `PAY_LOAD` (R165): `blk = MemRead(MSG, text_position, n)`. -/
def execPayLoad (s : State) : Host.Outcome State Fault Refusal :=
  if s.msgLen.toNat ≤ s.textPosition.toNat then .fault .payloadExhausted
  else .next { s with blk := s.memReadMsg s.textPosition.toNat (payloadCount s) }

/-- `PAY_XOR` (R166): `blk = xor(blk, ks[0..n))`, over the block's actual byte length. -/
def execPayXor (s : State) : Host.Outcome State Fault Refusal :=
  if 16 < s.blk.length then .fault .blockLength
  else .next { s with blk := xorBytes s.blk (s.ks.toList.take s.blk.length) }

/-- `PAY_STORE` (R167): `MemWrite(MSG, text_position, n, blk)` and `text_position <- text_position + n`, inside
`MSG[0..msg_len)` (R63). -/
def execPayStore (s : State) : Host.Outcome State Fault Refusal :=
  if 16 < s.blk.length ∨ s.msgLen.toNat < s.textPosition.toNat + s.blk.length then .fault .storeOutside
  else .next { s.memWriteMsg s.textPosition.toNat s.blk with
    textPosition := BitVec.ofNat 64 (s.textPosition.toNat + s.blk.length) }

end Sys2Proof.Machine
end

