-- ==== Sys2Proof/Machine/Formatter.lean ====
section
/-! DEFINITION. The block formatter (`41_formatter.md`): `B0`, the associated-data blocks, and the micro-operations
`FMT_B0` and `FMT_AAD`. -/

namespace Sys2Proof.Machine

/-- `B0(adata, tag_len, nonce, msg_len) = [flags] ++ nonce ++ be(msg_len, 15 - len(nonce))`, with `Adata` decided by
the header length `h` (R131, R132, R140). -/
def b0Bytes (h tagLen : Nat) (nonce : List Byte) (msgLen : Nat) : List Byte :=
  b0Flags h tagLen (15 - nonce.length) :: (nonce ++ be msgLen (15 - nonce.length))

/-- `FMT_B0` (R133): `blk` becomes `B0`. The operands are in the domain of R131 after every latch (R139); outside it
the block has no bytes and the model faults. -/
def execFmtB0 (s : State) : Host.Outcome State Fault Refusal :=
  match latchedL s with
  | none => .fault .nonceLength
  | some l =>
    if ¬ tagLenLegal s.tagLen.toNat then .fault .tagLength
    else if 2 ^ (8 * l) ≤ s.msgLen.toNat then .fault .lengthField
    else .next { s with blk := b0Bytes s.headerLen.toNat s.tagLen.toNat (nonceBytes s) s.msgLen.toNat }

/-- `FMT_AAD` (R138): `blk` becomes the next 16 bytes of the padded stream and `cnt` advances by the stream bytes
among them. -/
def execFmtAad (s : State) : Host.Outcome State Fault Refusal :=
  let h := s.headerLen.toNat
  if h = 0 ∨ aadTotal h ≤ s.cnt.toNat then .fault .aadExhausted
  else if s.config.longMessages = false ∧ 2 ^ 32 ≤ h then .fault .noPrefixForm
  else .next { s with
    blk := aadBytesFrom h s.hdrByte s.cnt.toNat
    cnt := BitVec.ofNat 65 (s.cnt.toNat + min 16 (aadTotal h - s.cnt.toNat)) }

end Sys2Proof.Machine
end

