-- ==== Sys2Proof/Machine/MacAccumulator.lean ====
section
/-! DEFINITION. The CBC-MAC accumulator (`42_mac_accumulator.md`): `MAC_INIT` and `MAC_FOLD`. A definition that takes a
cipher is the rule with the cipher as its parameter (R49); the meaning is its value at the bound cipher. -/

namespace Sys2Proof.Machine

/-- `MAC_INIT` (R151): `mac_accumulator <- zeros(16)`. -/
def execMacInit (s : State) : Host.Outcome State Fault Refusal :=
  .next { s with macAccumulator := zeroBytes 16 }

/-- `MAC_FOLD` (R152): `mac_accumulator <- E(xor(mac_accumulator, pad16(blk)))`, for a `blk` of 1 to 16 bytes. -/
def macFold (c : Cipher) (s : State) : Host.Outcome State Fault Refusal :=
  if s.blk.length = 0 ∨ 16 < s.blk.length then .fault .blockLength
  else withE c s (xorBlock s.macAccumulator (pad16 s.blk)) fun e => { s with macAccumulator := e }

/-- `MAC_FOLD` with the bound cipher. -/
def execMacFold (s : State) : Host.Outcome State Fault Refusal :=
  macFold Config.cipher s

end Sys2Proof.Machine
end

