-- ==== Sys2Proof/Machine/Tag.lean ====
section
/-! DEFINITION. Tag mask and verify (`44_tag.md`): `TAG_MASK` and `TAG_CMP`. -/

namespace Sys2Proof.Machine

/-- The first `tagLen` bytes of a masked MAC, then zeros to 16 (R181). -/
def maskedTag (mac ks : Block) (tagLen : Nat) : Block :=
  toBytes 16 ((xorBlock mac ks).toList.take tagLen ++ zeros (16 - tagLen))

/-- `TAG_MASK` (R181): all 16 bytes of `TAG_OUT`; the accumulator keeps the raw MAC. -/
def execTagMask (s : State) : Host.Outcome State Fault Refusal :=
  if 16 < s.tagLen.toNat then .fault .tagLength
  else .next { s with tagOut := maskedTag s.macAccumulator s.ks s.tagLen.toNat }

/-- `TAG_CMP` (R183): compares exactly `tag_len` bytes of `TAG_OUT` and `TAG_IN`. -/
def execTagCmp (s : State) : Host.Outcome State Fault Refusal :=
  if 16 < s.tagLen.toNat then .fault .tagLength
  else .next { s with tagMatch := decide (tagOutBytes s = tagInBytes s) }

end Sys2Proof.Machine
end

