-- ==== Sys2Proof/Machine/Sequencer.lean ====
section
/-! DEFINITION. The sequencer (`45_controller.md` R204 to R214): the groups, the choice of the next one, the end of the
tag group, a whole message, and which select code is issued next. -/

namespace Sys2Proof.Machine

/-- The micro-operations of a group (R207 to R212). The tag group of a decryption ends with `TAG_CMP` (R212). -/
def groupOps (p : Phase) (d : Dir) : List MicroOp :=
  match p, d with
  | .idle, _ => []
  | .b0, _ => [.macInit, .ctrLoad0, .fmtB0, .macFold]
  | .aad, _ => [.fmtAad, .macFold]
  | .payload, .enc => [.payLoad, .macFold, .ctrInc, .ksGen, .payXor, .payStore]
  | .payload, .dec => [.payLoad, .ctrInc, .ksGen, .payXor, .payStore, .macFold]
  | .tag, .enc => [.ctrLoad0, .ksGen, .tagMask]
  | .tag, .dec => [.ctrLoad0, .ksGen, .tagMask, .tagCmp]

/-- What a micro-operation does, the cipher being a parameter (R49, R204). -/
def microMeaning (c : Cipher) (m : MicroOp) (s : State) : Host.Outcome State Fault Refusal :=
  match m with
  | .macInit => execMacInit s
  | .fmtB0 => execFmtB0 s
  | .fmtAad => execFmtAad s
  | .macFold => macFold c s
  | .ctrLoad0 => execCtrLoad0 s
  | .ctrInc => execCtrInc s
  | .ksGen => ksGen c s
  | .payLoad => execPayLoad s
  | .payXor => execPayXor s
  | .payStore => execPayStore s
  | .tagMask => execTagMask s
  | .tagCmp => execTagCmp s

/-- Micro-operations run back to back (R205). -/
def runOps (c : Cipher) : List MicroOp → State → Host.Outcome State Fault Refusal
  | [], s => .next s
  | m :: ms, s => andThen (microMeaning c m s) (runOps c ms)

/-- `NextPhase()` (R205). -/
def nextPhase (s : State) : Phase :=
  if s.cnt.toNat < aadTotal s.headerLen.toNat then .aad
  else if s.textPosition.toNat < s.msgLen.toNat then .payload
  else .tag

/-- The end of the tag group (R211, R212): `MESSAGE_OK` and 0, or `MESSAGE_FAILED` and 1 for a decryption whose tags
differ. `last_error` is not written. -/
def finishMessage (s : State) : State :=
  if s.dir = .dec ∧ s.tagMatch = false then
    { s with state := .messageFailed, phase := .idle, status := .warn }
  else { s with state := .messageOk, phase := .idle, status := .good }

/-- What the sequencer does when the last micro-operation of a group is done (R205). -/
def endGroup (s : State) : State :=
  clearTemps (if s.phase = .tag then finishMessage s else { s with phase := nextPhase s })

/-- `RunGroup(dir)` (R205). -/
def runGroup (c : Cipher) (s : State) : Host.Outcome State Fault Refusal :=
  if s.phase = .idle then .fault .noGroup
  else andThen (runOps c (groupOps s.phase s.dir) s) fun t => .next (endGroup t)

/-- `while phase != IDLE: RunGroup(d)` (R195), for at most the given number of groups. -/
def runGroups (c : Cipher) : Nat → State → Host.Outcome State Fault Refusal
  | 0, s => if s.phase = .idle then .next s else .fault .groupOverrun
  | n + 1, s => if s.phase = .idle then .next s else andThen (runGroup c s) (runGroups c n)

/-- The groups of an accepted message: `2 + header_limit + N` (R205). -/
def groupCount (s : State) : Nat :=
  2 + s.headerLimit.toNat + payloadBlocks s.msgLen.toNat

/-- `RELEASE_POLICY = BUFFERED` (R214): after a decryption whose tags differ, `MSG` keeps the bytes it had before. -/
def releaseAfter (before after : State) : State :=
  if after.config.releasePolicy = .buffered ∧ after.state = .messageFailed then
    { after with msg := before.msg }
  else after

/-- The groups of a message to its end, and the release policy. -/
def runMessage (c : Cipher) (s : State) : Host.Outcome State Fault Refusal :=
  andThen (runGroups c (groupCount s) s) fun t => .next (releaseAfter s t)

/-- Under `BUFFERED` a decryption is not taken group by group (R214). -/
abbrev wholeOnly (s : State) : Prop := s.config.releasePolicy = .buffered ∧ s.dir = .dec

/-- The select codes still to issue: those of the running group, or, when a message is in progress and no group
runs, those of the group `phase` names (R205). -/
def pendingCodes (s : State) : List (BitVec 4) :=
  if s.sel = [] ∧ s.state = .processing then (groupOps s.phase s.dir).map MicroOp.code else s.sel

/-- After a micro-operation: the group ends with its last one (R205). -/
def closeGroup (s : State) : State :=
  if s.sel = [] ∧ s.state = .processing then endGroup s else s

end Sys2Proof.Machine
end

