-- ==== Sys2Proof/Machine/Controller.lean ====
section
/-! DEFINITION. The controller (`45_controller.md` R190 to R203): key setup, message reset, and the two message
commands, each performed whole before the host's next access (R191). -/

namespace Sys2Proof.Machine

/-! ## Key setup and message reset -/

/-- `InitKey(d, KLEN)` (R192). A refused length drops the previous key and reads no byte of `KEY`. -/
def initKey (c : Cipher) (d : Dir) (klen : Nat) (s : State) : State :=
  if klen ∈ s.config.keySizes then
    { clearMessageFields s with
      keySchedule := some (c.expandKey (keyBytes s klen))
      dir := d
      state := .keyed
      tagOut := zeroBytes 16
      lastError := none
      status := .good }
  else
    { clearMessageFields s with
      keySchedule := none
      state := .unkeyed
      tagOut := zeroBytes 16
      lastError := some .badKey
      status := .error .badKey }

/-- `INIT_ENKEY klen` (R192). -/
def execInitEnkey (klen : Nat) (s : State) : Host.Outcome State Fault Refusal :=
  .next (initKey Config.cipher .enc klen s)

/-- `INIT_DEKEY klen` (R193). -/
def execInitDekey (klen : Nat) (s : State) : Host.Outcome State Fault Refusal :=
  .next (initKey Config.cipher .dec klen s)

/-- `MSG_RESET` (R194), which is also the way back from `ERROR` and `MESSAGE_FAILED` (`60_exceptions.md` R241). In
`UNKEYED` it is refused and changes nothing else. -/
def execMsgReset (s : State) : Host.Outcome State Fault Refusal :=
  .next (if s.state = .unkeyed then
    { s with lastError := some .badAuthCall, status := .error .badAuthCall }
  else
    { clearMessageFields s with
      state := .keyed, tagOut := zeroBytes 16, lastError := none, status := .good })

/-! ## Message commands -/

/-- `CheckSequencing(d)` (R196). -/
def checkSequencing (d : Dir) (s : State) : Option ErrorCode :=
  if s.state ≠ .keyed ∨ s.dir ≠ d then some .badAuthCall else none

/-- `CheckNonceAndTag(NLEN, TLEN)` (R197). -/
def checkNonceAndTag (nlen tlen : Nat) : Option ErrorCode :=
  if ¬ nonceLenLegal nlen then some .badNonceLength
  else if ¬ tagLenLegal tlen then some .badAuthFieldLength
  else none

/-- `CheckLengths(NLEN)` (R198). -/
def checkLengths (nlen : Nat) (s : State) : Option ErrorCode :=
  if s.config.lenMax < s.hdrLenReg.toNat then some .authLengthError
  else if 2 ^ (8 * (15 - nlen)) ≤ s.msgLenReg.toNat ∨ s.config.lenMax < s.msgLenReg.toNat then
    some .msgLengthError
  else none

/-- The checks of a message command in their order; the first that fails is the one reported (R195, R240). -/
def checkMessage (d : Dir) (nlen tlen : Nat) (s : State) : Option ErrorCode :=
  (checkSequencing d s).or ((checkNonceAndTag nlen tlen).or (checkLengths nlen s))

/-- `Latch(NLEN, TLEN)` (R199). -/
def latch (nlen tlen : Nat) (s : State) : State :=
  { s with
    nonceLen := BitVec.ofNat 8 nlen
    tagLen := BitVec.ofNat 8 tlen
    headerLen := s.hdrLenReg
    msgLen := s.msgLenReg
    headerLimit := BitVec.ofNat 64 (aadBlocks s.hdrLenReg.toNat)
    cnt := 0
    textPosition := 0
    state := .processing
    phase := .b0 }

/-- `Message(d, NLEN, TLEN)` (R195), from the first check to the write of `STATUS` (R191). -/
def message (c : Cipher) (d : Dir) (nlen tlen : Nat) (s : State) : Host.Outcome State Fault Refusal :=
  match checkMessage d nlen tlen s with
  | some code => .next (raiseStatus code s)
  | none => runMessage c (latch nlen tlen s)

/-- `ENCRYPT_MESSAGE nlen, tlen` (R200). -/
def execEncryptMessage (nlen tlen : Nat) (s : State) : Host.Outcome State Fault Refusal :=
  message Config.cipher .enc nlen tlen s

/-- `DECRYPT_MESSAGE nlen, tlen` (R201). -/
def execDecryptMessage (nlen tlen : Nat) (s : State) : Host.Outcome State Fault Refusal :=
  message Config.cipher .dec nlen tlen s

end Sys2Proof.Machine
end

