-- ==== Sys2Proof/Machine/Dispatch.lean ====
section
/-! DEFINITION. The dispatch: one arm per constructor of Instr, each one call of its meaning. -/

namespace Sys2Proof.Machine

def exec (i : Instr) (s : State) : Host.Outcome State Fault Refusal :=
  match i with
  | .initEnkey klen => Sys2Proof.Machine.execInitEnkey klen s
  | .initDekey klen => Sys2Proof.Machine.execInitDekey klen s
  | .encryptMessage nlen tlen => Sys2Proof.Machine.execEncryptMessage nlen tlen s
  | .decryptMessage nlen tlen => Sys2Proof.Machine.execDecryptMessage nlen tlen s
  | .msgReset => Sys2Proof.Machine.execMsgReset s
  | .macInit => Sys2Proof.Machine.execMacInit s
  | .fmtB0 => Sys2Proof.Machine.execFmtB0 s
  | .fmtAad => Sys2Proof.Machine.execFmtAad s
  | .macFold => Sys2Proof.Machine.execMacFold s
  | .ctrLoad0 => Sys2Proof.Machine.execCtrLoad0 s
  | .ctrInc => Sys2Proof.Machine.execCtrInc s
  | .ksGen => Sys2Proof.Machine.execKsGen s
  | .payLoad => Sys2Proof.Machine.execPayLoad s
  | .payXor => Sys2Proof.Machine.execPayXor s
  | .payStore => Sys2Proof.Machine.execPayStore s
  | .tagMask => Sys2Proof.Machine.execTagMask s
  | .tagCmp => Sys2Proof.Machine.execTagCmp s

end Sys2Proof.Machine
end

