-- ==== Sys2Proof/Machine/HostPort.lean ====
section
/-! DEFINITION. The host port (`20_memory.md` R60, R61; register map `10_state.md` R34): the host's accesses between
commands, and which code the engine takes next. -/

namespace Sys2Proof.Machine

/-- `HostRegRead(k)` (R61): 0 for a register the host cannot read; there are registers 0 to 5 only (R34, R69). -/
def hostRegRead (s : State) (k : Nat) : Option (BitVec 64) :=
  match k with
  | 0 => some 0
  | 1 => some ((statusWord s).setWidth 64)
  | 2 => some ((ctxWord s).setWidth 64)
  | 3 => some ((configWord s).setWidth 64)
  | 4 => some s.msgLenReg
  | 5 => some s.hdrLenReg
  | _ => none

/-- `HostRegWrite(k, v)` for `k` other than `CMD` (R61): ignored for a register the host cannot write (R34). -/
def hostRegWrite (s : State) (k : Nat) (v : BitVec 64) : Option State :=
  match k with
  | 1 => some s
  | 2 => some s
  | 3 => some s
  | 4 => some { s with msgLenReg := v }
  | 5 => some { s with hdrLenReg := v }
  | _ => none

/-- How many bytes of a space the host can name (R34, R46, R69). -/
def spaceSize (s : State) (sp : Space) : Nat :=
  match sp with
  | .key => s.config.keyMax
  | .nonce => 13
  | .tagIn => 16
  | .tagOut => 16
  | .hdr => min s.config.hdrCap (2 ^ 64)
  | .msg => min s.config.msgCap (2 ^ 64)

/-- `HostByteRead(SPACE, i)` inside the space (R61); `KEY` is write-only and reads 0 (R41). -/
def hostByte (s : State) (sp : Space) (i : Nat) : Byte :=
  match sp with
  | .key => 0
  | .nonce => s.nonce.toList.getD i 0
  | .tagIn => s.tagIn.toList.getD i 0
  | .tagOut => s.tagOut.toList.getD i 0
  | .hdr => s.hdrByte i
  | .msg => s.msgByte i

/-- `HostByteWrite(SPACE, i, v)` inside the space (R61); `TAG_OUT` is read-only and ignores it (R34, R44). -/
def hostSetByte (s : State) (sp : Space) (i : Nat) (v : Byte) : State :=
  match sp with
  | .key => { s with key := s.key.set i v }
  | .nonce => { s with nonce := putByte s.nonce i v }
  | .tagIn => { s with tagIn := putByte s.tagIn i v }
  | .tagOut => s
  | .hdr => { s with hdr := Memory.put s.hdr i v }
  | .msg => { s with msg := Memory.put s.msg i v }

/-- Hands a value read to the host. -/
def giveHost (s : State) (v : BitVec 64) : State :=
  { s with reads := s.reads ++ [v] }

/-- A host action other than a command (R61, R260). A place that does not exist is refused (R61, R69). -/
def hostAction (a : HostAction) (s : State) : Host.Outcome State Fault Refusal :=
  match a with
  | .regRead k =>
    match hostRegRead s k with
    | some v => .next (giveHost s v)
    | none => .refused .noSuchRegister
  | .regWrite 0 _ => .refused .valueTooWide
  | .regWrite k v =>
    match hostRegWrite s k v with
    | some t => .next t
    | none => .refused .noSuchRegister
  | .byteRead sp i =>
    if i < spaceSize s sp then .next (giveHost s ((hostByte s sp i).setWidth 64)) else .refused .noSuchLocation
  | .byteWrite sp i v =>
    if i < spaceSize s sp then .next (hostSetByte s sp i v) else .refused .noSuchLocation
  | .reset => .next (applyReset s)

/-- The command word a host action issues: the 32 bits written to `CMD` (R35, R61, R90). -/
def commandOf (a : HostAction) : Option (BitVec 32) :=
  match a with
  | .regWrite 0 v => if v.toNat < 2 ^ 32 then some (v.setWidth 32) else none
  | _ => none

/-- What the machine does next. -/
inductive Fetched
  /-- Run what this code spells, on the state from which the code has been taken. -/
  | code (c : Code) (t : State)
  /-- A `BUFFERED` decryption in progress goes on to its end (R214). -/
  | resume
  /-- A host action that is no command. -/
  | host (a : HostAction) (t : State)
  /-- The engine "does nothing until the host writes `CMD`" (`70_reset_and_hazards.md` R261). -/
  | idle
  /-- A message in progress whose phase names no group, which R38 rules out. -/
  | noGroup
  deriving DecidableEq, Repr

/-- The host's next step, which it has only while no message is in progress (R71, R206). -/
def fetchHost (s : State) : Fetched :=
  match s.host with
  | [] => .idle
  | a :: rest =>
    match commandOf a with
    | some w => .code (.command w) { s with host := rest }
    | none => .host a { s with host := rest }

/-- The next select code of the sequencer if there is one (R205, R206), else the host's next action. -/
def fetch (s : State) : Fetched :=
  match pendingCodes s with
  | c :: rest => if s.sel = [] ∧ wholeOnly s then .resume else .code (.micro c) { s with sel := rest }
  | [] => if s.state = .processing then .noGroup else fetchHost s

/-- What the sequencer adds after an instruction: nothing after a command, the end of the group after its last
micro-operation (R205). -/
def afterCode (c : Code) (o : Host.Outcome State Fault Refusal) : Host.Outcome State Fault Refusal :=
  match c with
  | .command _ => o
  | .micro _ => andThen o fun t => .next (closeGroup t)

end Sys2Proof.Machine
end

