-- ==== Sys2Proof/Machine/Step.lean ====
section
/-! DEFINITION. One step of the machine: one instruction, or one host access between commands (`20_memory.md` R71,
`45_controller.md` R191, R206; log entries 5 to 7). -/

namespace Sys2Proof.Machine

/-- One step. A code that decodes runs its instruction; what is fetched, and what the sequencer adds after it, is in
Machine/HostPort.lean. -/
def step (s : State) : Host.Outcome State Fault Refusal :=
  match fetch s with
  | .code c t =>
    match decode c with
    | .ok i => afterCode c (exec i t)
    | .error _ => undecoded c t
  | .resume => runMessage Config.cipher s
  | .host a t => hostAction a t
  | .idle => .next s
  | .noGroup => .fault .noGroup

/-- `s` with table bits `w` where step takes its next code: a command word as the host's next write to `CMD`, a
micro-operation as the select code to issue next (log entry 7). -/
def State.withFetchWord (s : State) (nbits w : Nat) : State :=
  if nbits ≤ 8 then { s with sel := [BitVec.ofNat 4 w] }
  else { s with sel := [], host := .regWrite 0 (BitVec.ofNat 64 (w % 2 ^ 32)) :: s.host }

end Sys2Proof.Machine
end

