-- ==== Sys2Proof/Machine/CallForms.lean ====
section
/-! DEFINITION. The call forms, the place of pseudo-instructions (`30_encoding.md` R99): each public operation of the
source as the host accesses it expands to, and what the call gives its caller. No meaning and no step uses them. -/

namespace Sys2Proof.Machine

/-! ## Host accesses -/

/-- `HostByteWrite(SPACE, i, bytes[i])` for each byte (R98). -/
def writeBytes (sp : Space) (bytes : List Byte) : List HostAction :=
  bytes.mapIdx fun i v => .byteWrite sp i v

/-- `HostByteRead(SPACE, i)` for `i < n` (R98). -/
def readBytes (sp : Space) (n : Nat) : List HostAction :=
  (List.range n).map fun i => .byteRead sp i

/-- The host actions of a command (R98): its encoding written to `CMD`. A micro-operation is no host action (R102). -/
def issue (i : Instr) : List HostAction :=
  match encode i with
  | .command w => [.regWrite 0 (w.setWidth 64)]
  | .micro _ => []

/-- The host performs accesses one after another, each before anything else it has still to do (`20_memory.md` R71). -/
def hostActs : List HostAction → State → Host.Outcome State Fault Refusal
  | [], s => .next s
  | a :: rest, s => andThen (step { s with host := a :: s.host }) (hostActs rest)

/-! ## The forms -/

/-- A header or a message as a call takes it: bytes the call writes to the space, or bytes "already resident" there,
of which the call has the length only (R99). -/
inductive Buffer
  | given (bytes : List Byte)
  | resident (len : BitVec 64)
  deriving DecidableEq, Repr

/-- The bytes the call writes. -/
def Buffer.bytes : Buffer → List Byte
  | .given bytes => bytes
  | .resident _ => []

/-- `hdr_len` or `msg_len`, as the call writes it to `HDR_LEN` or `MSG_LEN`. -/
def Buffer.length : Buffer → BitVec 64
  | .given bytes => BitVec.ofNat 64 bytes.length
  | .resident len => len

/-- The buffer lies in a space of the given size and its length in a 64-bit register, which the host owes
(`20_memory.md` R69). -/
def Buffer.Fits (size : Nat) : Buffer → Prop
  | .given bytes => bytes.length ≤ size ∧ bytes.length < 2 ^ 64
  | .resident len => len.toNat ≤ size

/-- A call form: the accesses up to and with the read of `STATUS`, and those that follow it, which depend on the status
read (R99). -/
structure CallForm where
  accesses : List HostAction
  readBack : BitVec 32 → List HostAction

/-- A key setup (R99). A length above 255 has no command word: the wrapper reports the operand's own error. That it then
writes no operand either is the model's choice (DESIGN CHOICE, log entry 20). -/
def keyCall (b : Build) (key : List Byte) (keyLen : Nat) (command : Instr) : Except ErrorCode CallForm :=
  if 255 < keyLen then .error .badKey
  else .ok
    { accesses := writeBytes .key (key.take (min keyLen b.keyMax)) ++ issue command ++ [.regRead 1]
      readBack := fun _ => [] }

/-- `init_and_enkey(key, key_len)` (R99). -/
def callInitAndEnkey (b : Build) (key : List Byte) (keyLen : Nat) : Except ErrorCode CallForm :=
  keyCall b key keyLen (.initEnkey keyLen)

/-- `init_and_dekey(key, key_len)` (R99). -/
def callInitAndDekey (b : Build) (key : List Byte) (keyLen : Nat) : Except ErrorCode CallForm :=
  keyCall b key keyLen (.initDekey keyLen)

/-- The wrapper's check of a message call's lengths (R99). R99 gives the error of each and no order: that the nonce
length is reported when both are above 255 is the model's choice, the order R240 gives the causes of an issued command
(DESIGN CHOICE, log entry 20). -/
def wideLength (nonceLen tagLen : Nat) : Option ErrorCode :=
  if 255 < nonceLen then some .badNonceLength
  else if 255 < tagLen then some .badAuthFieldLength
  else none

/-- The operand writes the two message calls share (R99). -/
def messageOperands (nonce : List Byte) (nonceLen : Nat) (hdr msg : Buffer) : List HostAction :=
  writeBytes .nonce (nonce.take (min nonceLen 13)) ++ writeBytes .hdr hdr.bytes ++ writeBytes .msg msg.bytes ++
    [.regWrite 5 hdr.length, .regWrite 4 msg.length]

/-- What a message call reads back: the message, then the tag (R99). -/
def messageReadBack (msg : Buffer) (tagLen : Nat) : List HostAction :=
  readBytes .msg msg.length.toNat ++ readBytes .tagOut tagLen

/-- `encrypt_message(…)` (R99): it reads back if the status is 0. -/
def callEncryptMessage (nonce : List Byte) (nonceLen : Nat) (hdr msg : Buffer) (tagLen : Nat) :
    Except ErrorCode CallForm :=
  match wideLength nonceLen tagLen with
  | some code => .error code
  | none => .ok
    { accesses := messageOperands nonce nonceLen hdr msg ++ issue (.encryptMessage nonceLen tagLen) ++ [.regRead 1]
      readBack := fun status => if status = 0 then messageReadBack msg tagLen else [] }

/-- `decrypt_message(…)` (R99): it reads back if the status is 0 or 1. The writes of `TAG_IN` come last before the
command, where R99 says "before the command" (log entry 20). -/
def callDecryptMessage (nonce : List Byte) (nonceLen : Nat) (hdr msg : Buffer) (tagIn : List Byte) (tagLen : Nat) :
    Except ErrorCode CallForm :=
  match wideLength nonceLen tagLen with
  | some code => .error code
  | none => .ok
    { accesses := messageOperands nonce nonceLen hdr msg ++ writeBytes .tagIn (tagIn.take (min tagLen 16)) ++
        issue (.decryptMessage nonceLen tagLen) ++ [.regRead 1]
      readBack := fun status => if status = 0 ∨ status = 1 then messageReadBack msg tagLen else [] }

/-- `reset_message()` (R99). -/
def callResetMessage : Except ErrorCode CallForm :=
  .ok { accesses := issue .msgReset ++ [.regRead 1], readBack := fun _ => [] }

/-! ## Performing a call -/

/-- What a call gives its caller: the status it returns, the bytes it read back (message, then tag), and the state it
leaves. -/
structure CallReturn where
  status : BitVec 32
  readBack : List Byte
  after : State
  deriving DecidableEq, Repr

/-- A call from beginning to end (R99): its accesses, the status they end with, and the accesses that status calls
for. A call the wrapper refuses returns the error's code and makes no access. -/
def performCall (form : Except ErrorCode CallForm) (s : State) : Host.Outcome CallReturn Fault Refusal :=
  match form with
  | .error code => .next { status := BitVec.ofInt 32 code.value, readBack := [], after := s }
  | .ok f =>
    andThen (hostActs f.accesses s) fun t =>
      let status := (t.reads.getLastD 0).setWidth 32
      andThen (hostActs (f.readBack status) t) fun u =>
        .next
          { status := status
            readBack := (u.reads.drop t.reads.length).map fun v => v.setWidth 8
            after := u }

end Sys2Proof.Machine
end

