-- ==== Sys2Proof/Machine/ClosedForm.lean ====
section
/-! DEFINITION. The spec's own functions of a whole message, apart from the machine (`41_formatter.md` R130): the block
sequence, the raw MAC, the keystream, the tag and the closed form of an accepted message command
(`42_mac_accumulator.md` R153, R154, `43_counter_cipher.md` R169, `44_tag.md` R182, `45_controller.md` R203, R213,
R214). No meaning is written with them; statements are. -/

namespace Sys2Proof.Machine

/-- `cbc_mac(bs)` under `E` (R153): `cbc_mac([]) = zeros(16)`, `cbc_mac(bs ++ [b]) = E(xor(cbc_mac(bs), b))`. -/
def cbcMac (e : Block → Block) (bs : List Block) : Block :=
  bs.foldl (fun acc b => e (xorBlock acc b)) (zeroBytes 16)

/-- `aad_block(k, h, HDR)` (R136). -/
def aadBlock (h : Nat) (hdr : Nat → Byte) (k : Nat) : Block :=
  pad16 (aadBytesFrom h hdr (16 * k))

/-- The bytes of payload block `i + 1` of a payload of `n` bytes (R168). -/
def payloadBytes (payload : Nat → Byte) (n i : Nat) : List Byte :=
  (List.range (min 16 (n - 16 * i))).map fun k => payload (16 * i + k)

/-- The block sequence of the MAC in fold order (R154): `B0`, the associated-data blocks, the plaintext blocks, the
last padded with zeros (R155). -/
def macBlocks (tagLen : Nat) (nonce : List Byte) (h : Nat) (hdr : Nat → Byte) (n : Nat) (plain : Nat → Byte) :
    List Block :=
  pad16 (b0Bytes h tagLen nonce n) ::
    ((List.range (aadBlocks h)).map (aadBlock h hdr) ++
      (List.range (payloadBlocks n)).map fun i => pad16 (payloadBytes plain n i))

/-- Byte `k` of the keystream `E(Ctr_1) ++ E(Ctr_2) ++ …` (R161, R169). -/
def keystreamByte (e : Block → Block) (nonce : List Byte) (k : Nat) : Byte :=
  (e (ctrBlock nonce (k / 16 + 1))).toList.getD (k % 16) 0

/-- What an accepted message command computes from the operands alone (R203). -/
structure MessageData where
  /-- The raw MAC of the plaintext (R153). -/
  mac : Block
  /-- `final_tag`, followed by zeros to 16 bytes (R181, R182). -/
  tag : Block
  /-- The bytes of `MSG[0..msg_len)` after the keystream (R169). -/
  output : List Byte

/-- The closed form of R203 for direction `d`, `e` being `E`, `payload` the bytes of `MSG` before the command. -/
def messageData (e : Block → Block) (d : Dir) (tagLen : Nat) (nonce : List Byte) (h : Nat) (hdr : Nat → Byte)
    (n : Nat) (payload : Nat → Byte) : MessageData :=
  let out := fun k => payload k ^^^ keystreamByte e nonce k
  let plain := if d = .enc then payload else out
  let mac := cbcMac e (macBlocks tagLen nonce h hdr n plain)
  { mac := mac
    tag := maskedTag mac (e (ctrBlock nonce 0)) tagLen
    output := (List.range n).map out }

/-- The data of a message command issued in `s` with key schedule `k`. -/
def messageDataOf (c : Cipher) (k : KeySchedule) (d : Dir) (nlen tlen : Nat) (s : State) : MessageData :=
  messageData (c.encryptBlock k) d tlen (s.nonce.toList.take nlen) s.hdrLenReg.toNat s.hdrByte
    s.msgLenReg.toNat s.msgByte

/-- Whether the tag is not found wrong: an encryption compares nothing, a decryption compares `tag_len` bytes (R183). -/
abbrev tagAccepted (d : Dir) (tlen : Nat) (tag tagIn : Block) : Prop :=
  d = .enc ∨ tag.toList.take tlen = tagIn.toList.take tlen

/-- The state after an accepted message command, field by field (R203, R213). Under `BUFFERED`, `MSG` keeps its bytes
when the tags differ (R214). -/
def messageResult (c : Cipher) (k : KeySchedule) (d : Dir) (nlen tlen : Nat) (s : State) : State :=
  let r := messageDataOf c k d nlen tlen s
  { s with
    nonceLen := BitVec.ofNat 8 nlen
    tagLen := BitVec.ofNat 8 tlen
    headerLen := s.hdrLenReg
    headerLimit := BitVec.ofNat 64 (aadBlocks s.hdrLenReg.toNat)
    msgLen := s.msgLenReg
    cnt := BitVec.ofNat 65 (aadTotal s.hdrLenReg.toNat)
    textPosition := s.msgLenReg
    counterBlock := ctrBlock (s.nonce.toList.take nlen) 0
    macAccumulator := r.mac
    tagOut := r.tag
    state := if tagAccepted d tlen r.tag s.tagIn then .messageOk else .messageFailed
    phase := .idle
    status := if tagAccepted d tlen r.tag s.tagIn then .good else .warn
    msg :=
      if tagAccepted d tlen r.tag s.tagIn ∨ s.config.releasePolicy = .streaming then Memory.write s.msg 0 r.output
      else s.msg
    blk := []
    ks := zeroBytes 16
    tagMatch := false }

end Sys2Proof.Machine
end

