-- ==== Sys2Proof/Safety.lean ====
section
/-! DEFINITION. What holds of every state a run from reset can be in, and what counts as a safe run, in the terms the
statements use (`10_state.md` R21, R29, R31, R38, `60_exceptions.md` R233, `45_controller.md` R206). -/

namespace Sys2Proof.Machine

/-- A message is in progress or was the last to end: the states in which R31 (b), (c) speak of the latched lengths. -/
abbrev holdsMessage (s : State) : Prop :=
  s.state = .processing ∨ s.state = .messageOk ∨ s.state = .messageFailed

/-- The latched lengths are legal and fit their fields (R31 (a) to (c), R25, R198). -/
structure LengthsLegal (s : State) : Prop where
  nonce : nonceLenLegal s.nonceLen.toNat
  tag : tagLenLegal s.tagLen.toNat
  fits : s.msgLen.toNat < 2 ^ (8 * (15 - s.nonceLen.toNat))
  msgMax : s.msgLen.toNat ≤ s.config.lenMax
  hdrMax : s.headerLen.toNat ≤ s.config.lenMax
  limit : s.headerLimit.toNat = aadBlocks s.headerLen.toNat

/-- Every per-message field is in its initial state (R33). -/
structure FieldsClear (s : State) : Prop where
  counterBlock : s.counterBlock = zeroBytes 16
  macAccumulator : s.macAccumulator = zeroBytes 16
  headerLen : s.headerLen = 0
  headerLimit : s.headerLimit = 0
  msgLen : s.msgLen = 0
  cnt : s.cnt = 0
  textPosition : s.textPosition = 0
  nonceLen : s.nonceLen = 0
  tagLen : s.tagLen = 0

/-- The invariant of the machine. -/
structure Inv (s : State) : Prop where
  /-- "`phase = IDLE` exactly when `state != PROCESSING`" (R38). -/
  phaseIdle : s.phase = .idle ↔ s.state ≠ .processing
  /-- `key_schedule` "is `none` exactly when `state = UNKEYED`" (R21). -/
  keyNone : s.keySchedule = none ↔ s.state = .unkeyed
  /-- `KEY` has `KEY_MAX` bytes (R41). -/
  keySize : s.key.length = s.config.keyMax
  /-- The latched lengths of a message (R31). -/
  lengths : holdsMessage s → LengthsLegal s
  /-- In `UNKEYED`, `KEYED` and `ERROR` the per-message fields are in their initial state (R29, R237). -/
  clear : ¬ holdsMessage s → FieldsClear s
  /-- The position counters stay inside their streams (R27). -/
  cntInside : s.cnt.toNat ≤ aadTotal s.headerLen.toNat
  textInside : s.textPosition.toNat ≤ s.msgLen.toNat
  /-- `ERROR` is the state "plus the last error code" (R29, R30). -/
  errorCode : s.state = .error → s.lastError ≠ none
  /-- `MESSAGE_FAILED` is reached only by `DECRYPT_MESSAGE` (R190). -/
  failedDec : s.state = .messageFailed → s.dir = .dec
  /-- The buffer spaces are in canonical form. -/
  hdrWf : Memory.wf s.hdr
  msgWf : Memory.wf s.msg
  /-- No group runs and no temporary is held outside a message (R48, R206). -/
  selEmpty : s.state ≠ .processing → s.sel = []
  tempsClear : s.state ≠ .processing → s.blk = [] ∧ s.ks = zeroBytes 16 ∧ s.tagMatch = false

/-- Where the sequencer stands when a group is about to run (R205, R137, R168, R161): the counters are at a block
boundary and the counter block is that of the last payload block done. -/
def AtBoundary (s : State) : Prop :=
  match s.phase with
  | .idle => False
  | .b0 => s.cnt = 0 ∧ s.textPosition = 0
  | .aad =>
    s.cnt.toNat % 16 = 0 ∧ s.cnt.toNat < aadTotal s.headerLen.toNat ∧ s.textPosition = 0 ∧
      s.counterBlock = ctrBlock (nonceBytes s) 0
  | .payload =>
    s.cnt.toNat = aadTotal s.headerLen.toNat ∧ s.textPosition.toNat % 16 = 0 ∧
      s.textPosition.toNat < s.msgLen.toNat ∧
      s.counterBlock = ctrBlock (nonceBytes s) (s.textPosition.toNat / 16)
  | .tag => s.cnt.toNat = aadTotal s.headerLen.toNat ∧ s.textPosition = s.msgLen

/-- A message in progress between two groups. -/
structure GroupReady (s : State) : Prop where
  inv : Inv s
  processing : s.state = .processing
  noneRunning : s.sel = []
  boundary : AtBoundary s

/-- A message command that passes every check of R196 to R198, by the conditions of those rules. -/
structure Accepted (d : Dir) (nlen tlen : Nat) (s : State) : Prop where
  keyed : s.state = .keyed
  direction : s.dir = d
  nonce : 7 ≤ nlen ∧ nlen ≤ 13
  tag : tlen ∈ [4, 6, 8, 10, 12, 14, 16]
  header : s.hdrLenReg.toNat ≤ s.config.lenMax
  fits : s.msgLenReg.toNat < 2 ^ (8 * (15 - nlen))
  message : s.msgLenReg.toNat ≤ s.config.lenMax

end Sys2Proof.Machine
end

