-- ==== Sys2Proof/Certificates/Slice0/Obligations.lean ====
section
/-! DEFINITION. The statements about the model. Each is a Prop; its docstring names the rule of spec/ it formalises. A
next state is written out with every field that changes, so that each statement is also the frame of its instruction:
a field it does not name is unchanged. -/

open Sys2Proof Sys2Proof.Machine

/-! ## Encoding -/

/-- Words written out from the encodings decode to the commands they stand for (`30_encoding.md` R94, R96). -/
def Obligations.SpecWordsDecode : Prop :=
  decode (.command 0x00001001) = .ok (.initEnkey 16) ∧
  decode (.command 0x00002002) = .ok (.initDekey 32) ∧
  decode (.command 0x00080D03) = .ok (.encryptMessage 13 8) ∧
  decode (.command 0x00100704) = .ok (.decryptMessage 7 16) ∧
  decode (.command 0x00000005) = .ok .msgReset ∧
  decode (.command 0x00080603) = .ok (.encryptMessage 6 8) ∧
  decode (.micro 0b0011) = .ok .macFold ∧
  decode (.micro 0b1001) = .ok .payStore

/-- Decoding an encoded well-formed instruction gives it back, every operand at every value its field admits
(R90 to R93, R102). -/
def Obligations.EncodeThenDecode : Prop :=
  ∀ i : Instr, i.WellFormed → decode (encode i) = .ok i

/-- Each code has one meaning: what decodes is well-formed and encodes back to the same code (R90, R102). -/
def Obligations.DecodeThenEncode : Prop :=
  ∀ (k : Code) (i : Instr), decode k = .ok i → i.WellFormed ∧ encode i = k

/-- Match and mask of every command, with its free fields, and the worked encodings (R94). A word spells at most one
row, since each row is what one value of the decoder means. -/
def Obligations.CommandRowsByMask : Prop :=
  ∀ w : BitVec 32,
    (∀ klen, decodeCommand w = .ok (.initEnkey klen) ↔
      w &&& 0xFFFF00FF = 0x00000001 ∧ klen = (w.extractLsb' 8 8).toNat) ∧
    (∀ klen, decodeCommand w = .ok (.initDekey klen) ↔
      w &&& 0xFFFF00FF = 0x00000002 ∧ klen = (w.extractLsb' 8 8).toNat) ∧
    (∀ nlen tlen, decodeCommand w = .ok (.encryptMessage nlen tlen) ↔
      w &&& 0xFF0000FF = 0x00000003 ∧ nlen = (w.extractLsb' 8 8).toNat ∧ tlen = (w.extractLsb' 16 8).toNat) ∧
    (∀ nlen tlen, decodeCommand w = .ok (.decryptMessage nlen tlen) ↔
      w &&& 0xFF0000FF = 0x00000004 ∧ nlen = (w.extractLsb' 8 8).toNat ∧ tlen = (w.extractLsb' 16 8).toNat) ∧
    (decodeCommand w = .ok .msgReset ↔ w &&& 0xFFFFFFFF = 0x00000005) ∧
    encode (.initEnkey 16) = .command 0x00001001 ∧
    encode (.initDekey 32) = .command 0x00002002 ∧
    encode (.encryptMessage 13 8) = .command 0x00080D03 ∧
    encode (.decryptMessage 7 16) = .command 0x00100704 ∧
    encode .msgReset = .command 0x00000005

/-- The illegal words are those of R95, and writing one to `CMD` does what R238 says and nothing else. -/
def Obligations.IllegalWordsReportBadCall : Prop :=
  ∀ w : BitVec 32,
    let op := (w.extractLsb' 0 8).toNat
    let a := (w.extractLsb' 8 8).toNat
    let b := (w.extractLsb' 16 8).toNat
    let rsv := (w.extractLsb' 24 8).toNat
    let illegal := op = 0 ∨ 6 ≤ op ∨ rsv ≠ 0 ∨ ((op = 1 ∨ op = 2) ∧ b ≠ 0) ∨ (op = 5 ∧ (a ≠ 0 ∨ b ≠ 0))
    (illegal ↔ ∀ i, decodeCommand w ≠ .ok i) ∧
    ∀ (s : State) (rest : List HostAction), illegal → s.state ≠ .processing → s.sel = [] →
      s.host = .regWrite 0 (w.setWidth 64) :: rest →
      step s = .next { s with
        host := rest, status := .error .badAuthCall, lastError := some .badAuthCall }

/-! ## The step -/

/-- A write of a command word to `CMD` runs the command it spells, whole, on the state without that action
(`10_state.md` R35, `45_controller.md` R191). That the host's actions stand in State is the model's choice (log entry
7). -/
def Obligations.StepRunsDecodedCommand : Prop :=
  ∀ (s : State) (v : BitVec 64) (rest : List HostAction) (i : Instr),
    s.state ≠ .processing → s.sel = [] → s.host = .regWrite 0 v :: rest → v.toNat < 2 ^ 32 →
    decode (.command (v.setWidth 32)) = .ok i →
    step s = exec i { s with host := rest }

/-- A select code of the running group runs the micro-operation it names; after the last one of a message's group the
group ends (`30_encoding.md` R102, `45_controller.md` R205). That a step is one micro-operation is the model's choice
(log entry 6). -/
def Obligations.StepRunsSelectedMicroOp : Prop :=
  ∀ (s : State) (c : BitVec 4) (rest : List (BitVec 4)) (i : Instr),
    s.sel = c :: rest → decode (.micro c) = .ok i →
    step s = andThen (exec i { s with sel := rest }) fun t =>
      .next (if t.sel = [] ∧ t.state = .processing then endGroup t else t)

/-- With no message in progress and no host action, the engine does nothing (`70_reset_and_hazards.md` R261); that it
has a step there is the model's choice (log entry 7). -/
def Obligations.EngineWaitsForTheHost : Prop :=
  ∀ s : State, s.state ≠ .processing → s.sel = [] → s.host = [] → step s = .next s

/-- While a message is in progress the host has no step: its actions, what it has read, its registers and `HDR` stay,
and `MSG` changes only below `msg_len` (`20_memory.md` R71, `45_controller.md` R206). -/
def Obligations.HostHasNoStepInMessage : Prop :=
  ∀ s t : State, s.state = .processing → step s = .next t →
    t.host = s.host ∧ t.reads = s.reads ∧ t.key = s.key ∧ t.nonce = s.nonce ∧ t.tagIn = s.tagIn ∧
    t.msgLenReg = s.msgLenReg ∧ t.hdrLenReg = s.hdrLenReg ∧ t.hdr = s.hdr ∧ t.config = s.config ∧
    ∀ a, s.msgLen.toNat ≤ a → t.msgByte a = s.msgByte a

/-- A group taken one micro-operation a step is the group of R205: the same next state, or the same fault. R205 makes
the whole group the step: that a step is one micro-operation is the model's choice (log entry 6), and so are the faults
the two share (log entry 8). -/
def Obligations.GroupStepsAreTheGroup : Prop :=
  ∀ s : State, s.state = .processing → s.sel = [] → s.phase ≠ .idle →
    ¬ (s.config.releasePolicy = .buffered ∧ s.dir = .dec) →
    core.run (groupOps s.phase s.dir).length s = runGroup Config.cipher s

/-- The two readings of R191 agree: from the latched state, the micro-operations of `2 + header_limit + N` groups, one
a step, end in the state the whole command gives (R205, R206). Under `BUFFERED` a decryption is not taken so (R214).
That the fine-grained step is one micro-operation, where R205 and R206 make it one group, is the model's choice (log
entry 6), and so is taking a command as one step (log entry 5). -/
def Obligations.FineGrainedRunIsTheCommand : Prop :=
  ∀ (nlen tlen : Nat) (s : State), s.keySchedule ≠ none → s.sel = [] →
    (Accepted .enc nlen tlen s →
      core.run (4 + 2 * aadBlocks s.hdrLenReg.toNat + 6 * payloadBlocks s.msgLenReg.toNat + 3) (latch nlen tlen s) =
        exec (.encryptMessage nlen tlen) s) ∧
    (Accepted .dec nlen tlen s → s.config.releasePolicy = .streaming →
      core.run (4 + 2 * aadBlocks s.hdrLenReg.toNat + 6 * payloadBlocks s.msgLenReg.toNat + 4) (latch nlen tlen s) =
        exec (.decryptMessage nlen tlen) s)

/-! ## The host port -/

/-- `HostRegRead(k)`: the value of each register, 0 for `CMD`, and no register above 5 (`20_memory.md` R61, R69,
`10_state.md` R34). That the model refuses such an access is its choice (log entry 12). -/
def Obligations.HostReadsRegisters : Prop :=
  ∀ (s : State) (k : Nat) (rest : List HostAction),
    s.state ≠ .processing → s.sel = [] → s.host = .regRead k :: rest →
    (k = 0 → step s = .next { s with host := rest, reads := s.reads ++ [0] }) ∧
    (k = 1 → step s = .next { s with host := rest, reads := s.reads ++ [(statusWord s).setWidth 64] }) ∧
    (k = 2 → step s = .next { s with host := rest, reads := s.reads ++ [(ctxWord s).setWidth 64] }) ∧
    (k = 3 → step s = .next { s with host := rest, reads := s.reads ++ [(configWord s).setWidth 64] }) ∧
    (k = 4 → step s = .next { s with host := rest, reads := s.reads ++ [s.msgLenReg] }) ∧
    (k = 5 → step s = .next { s with host := rest, reads := s.reads ++ [s.hdrLenReg] }) ∧
    (6 ≤ k → step s = .refused .noSuchRegister)

/-- `HostRegWrite(k, v)` for a register other than `CMD`: it writes `MSG_LEN` or `HDR_LEN`, is ignored by `STATUS`,
`CTX` and `CONFIG`, and there is no register above 5 (R34, R40, R61, R69). That the model refuses such an access, and a
value no 32-bit `CMD` can take, is its choice (log entry 12). -/
def Obligations.HostWritesRegisters : Prop :=
  ∀ (s : State) (k : Nat) (v : BitVec 64) (rest : List HostAction),
    s.state ≠ .processing → s.sel = [] → s.host = .regWrite k v :: rest →
    (1 ≤ k ∧ k ≤ 3 → step s = .next { s with host := rest }) ∧
    (k = 4 → step s = .next { s with host := rest, msgLenReg := v }) ∧
    (k = 5 → step s = .next { s with host := rest, hdrLenReg := v }) ∧
    (6 ≤ k → step s = .refused .noSuchRegister) ∧
    (k = 0 → 2 ^ 32 ≤ v.toNat → step s = .refused .valueTooWide)

/-- A byte read inside a space gives its byte, 0 for `KEY`, and changes nothing; outside it there is no such location
(R34, R41, R61). The sizes are those of R34, with `KEY_MAX` the largest accepted key size (R6), and for the buffers the
capacities of R69, never more than the 2^64 offsets of R46. -/
def Obligations.HostReadsBytes : Prop :=
  ∀ (s : State) (sp : Space) (i : Nat) (rest : List HostAction),
    s.state ≠ .processing → s.sel = [] → s.host = .byteRead sp i :: rest →
    let size := match sp with
      | .key => s.config.keyMax
      | .nonce => 13
      | .tagIn => 16
      | .tagOut => 16
      | .hdr => min s.config.hdrCap (2 ^ 64)
      | .msg => min s.config.msgCap (2 ^ 64)
    (s.config.keySizes ≠ [] → s.config.keyMax ∈ s.config.keySizes ∧ ∀ k ∈ s.config.keySizes, k ≤ s.config.keyMax) ∧
    (size ≤ i → step s = .refused .noSuchLocation) ∧
    (i < size → ∃ b : Byte,
      step s = .next { s with host := rest, reads := s.reads ++ [b.setWidth 64] } ∧
      (sp = .key → b = 0) ∧
      (sp = .nonce → b = s.nonce.toList.getD i 0) ∧
      (sp = .tagIn → b = s.tagIn.toList.getD i 0) ∧
      (sp = .tagOut → b = s.tagOut.toList.getD i 0) ∧
      (sp = .hdr → b = s.hdrByte i) ∧
      (sp = .msg → b = s.msgByte i))

/-- A byte write inside a space changes that byte and no other, but that `TAG_OUT` ignores it; outside the space there
is no such location (R34, R44, R61). The sizes are those of R34, R46 and R69. -/
def Obligations.HostWritesBytes : Prop :=
  ∀ (s : State) (sp : Space) (i : Nat) (v : Byte) (rest : List HostAction),
    s.state ≠ .processing → s.sel = [] → s.host = .byteWrite sp i v :: rest →
    let size := match sp with
      | .key => s.config.keyMax
      | .nonce => 13
      | .tagIn => 16
      | .tagOut => 16
      | .hdr => min s.config.hdrCap (2 ^ 64)
      | .msg => min s.config.msgCap (2 ^ 64)
    (size ≤ i → step s = .refused .noSuchLocation) ∧
    (i < size →
      (sp = .key → ∃ x, step s = .next { s with host := rest, key := x } ∧ x.length = s.key.length ∧
        ∀ j < s.key.length, x.getD j 0 = if j = i then v else s.key.getD j 0) ∧
      (sp = .nonce → ∃ x, step s = .next { s with host := rest, nonce := x } ∧
        ∀ j, x.toList.getD j 0 = if j = i then v else s.nonce.toList.getD j 0) ∧
      (sp = .tagIn → ∃ x, step s = .next { s with host := rest, tagIn := x } ∧
        ∀ j, x.toList.getD j 0 = if j = i then v else s.tagIn.toList.getD j 0) ∧
      (sp = .tagOut → step s = .next { s with host := rest }) ∧
      (sp = .hdr → ∃ t, step s = .next t ∧ t = { s with host := rest, hdr := t.hdr } ∧
        ∀ a, t.hdrByte a = if a = i then v else s.hdrByte a) ∧
      (sp = .msg → ∃ t, step s = .next t ∧ t = { s with host := rest, msg := t.msg } ∧
        ∀ a, t.msgByte a = if a = i then v else s.msgByte a))

/-- What `STATUS` reads for each status (`30_encoding.md` R100). -/
def Obligations.StatusReadsItsCode : Prop :=
  ∀ s : State,
    (s.status = .good → statusWord s = 0x00000000) ∧
    (s.status = .warn → statusWord s = 0x00000001) ∧
    (s.status = .error .badKey → statusWord s = 0xFFFFFFFE) ∧
    (s.status = .error .badAuthFieldLength → statusWord s = 0xFFFFFFFD) ∧
    (s.status = .error .badNonceLength → statusWord s = 0xFFFFFFFC) ∧
    (s.status = .error .badAuthCall → statusWord s = 0xFFFFFFFB) ∧
    (s.status = .error .authLengthError → statusWord s = 0xFFFFFFFA) ∧
    (s.status = .error .msgLengthError → statusWord s = 0xFFFFFFF9) ∧
    statusWord s ≠ 0xFFFFFFFF

/-- The fields of `CTX`, with the codes of `state` (`10_state.md` R29), `dir` (R22) and `phase` (R38) as numbers; and
between commands the host never reads `STATE = 2` or `PHASE != 0` (R37). -/
def Obligations.CtxShowsTheContext : Prop :=
  ∀ s : State,
    ((ctxWord s).extractLsb' 0 3).toNat =
      (match s.state with
        | .unkeyed => 0 | .keyed => 1 | .processing => 2 | .messageOk => 3 | .messageFailed => 4 | .error => 5) ∧
    ((ctxWord s).extractLsb' 3 1).toNat = (match s.dir with | .enc => 0 | .dec => 1) ∧
    ((ctxWord s).extractLsb' 4 3).toNat =
      (match s.phase with | .idle => 0 | .b0 => 1 | .aad => 2 | .payload => 3 | .tag => 4) ∧
    (ctxWord s).extractLsb' 7 1 = 0 ∧
    (s.lastError = none → (ctxWord s).extractLsb' 8 8 = 0) ∧
    (∀ e, s.lastError = some e → (((ctxWord s).extractLsb' 8 8).toNat : Int) = e.value % 256) ∧
    (ctxWord s).extractLsb' 16 16 = 0 ∧
    (Inv s → s.state ≠ .processing → (ctxWord s).extractLsb' 0 3 ≠ 2 ∧ (ctxWord s).extractLsb' 4 3 = 0)

/-- The bits of `CONFIG`, and that no step changes it (`10_state.md` R39). -/
def Obligations.ConfigIsConstant : Prop :=
  ∀ s : State,
    ((configWord s).extractLsb' 0 1 = 1 ↔ s.config.longMessages = true) ∧
    ((configWord s).extractLsb' 1 1 = 1 ↔ s.config.releasePolicy = .buffered) ∧
    (configWord s).extractLsb' 2 30 = 0 ∧
    ∀ t, step s = .next t → t.config = s.config ∧ configWord t = configWord s

/-- A call with a length that no command word can hold is refused by the wrapper with the operand's own error: it
returns that error's code and the machine has not moved (`30_encoding.md` R99). That the nonce length is reported when
both lengths of a message call are above 255, and that no operand is written either, is the model's choice (log entry
20). -/
def Obligations.CallFormsRefuseWideLengths : Prop :=
  ∀ (b : Build) (key nonce tagIn : List Byte) (hdr msg : Buffer) (n t : Nat),
    (∀ code s, performCall (.error code) s =
      .next { status := BitVec.ofInt 32 code.value, readBack := [], after := s }) ∧
    (255 < n → callInitAndEnkey b key n = .error .badKey ∧ callInitAndDekey b key n = .error .badKey ∧
      callEncryptMessage nonce n hdr msg t = .error .badNonceLength ∧
      callDecryptMessage nonce n hdr msg tagIn t = .error .badNonceLength) ∧
    (n ≤ 255 → 255 < t →
      callEncryptMessage nonce n hdr msg t = .error .badAuthFieldLength ∧
      callDecryptMessage nonce n hdr msg tagIn t = .error .badAuthFieldLength)

/-- The key bytes a call form writes arrive in `KEY`, and the command then runs on them (R98, R99): the state after the
writes and the command is the command's on the filled register. -/
def Obligations.KeyCallFillsKeyAndRuns : Prop :=
  ∀ (s : State) (key : List Byte) (rest : List HostAction),
    Inv s → s.state ≠ .processing → key.length ≤ s.config.keyMax → key.length ≤ 255 →
    s.host = writeBytes .key key ++ issue (.initEnkey key.length) ++ rest →
    core.run (key.length + 1) s =
      exec (.initEnkey key.length) { s with host := rest, key := key ++ s.key.drop key.length }

/-! ## Reset and invariants -/

/-- The reset values (`10_state.md` R50), for every build; the contents of `HDR` and `MSG` are the launch's, which the
model leaves free (R51). `State.reset` is the reset of the spec's default build (log entry 2). -/
def Obligations.ResetValues : Prop :=
  State.reset = State.resetOf Config.defaultBuild ∧
  ∀ b : Build,
    let s := State.resetOf b
    s.state = .unkeyed ∧ s.keySchedule = none ∧ s.dir = .enc ∧ s.lastError = none ∧ s.phase = .idle ∧
    s.counterBlock.toList = List.replicate 16 0 ∧ s.macAccumulator.toList = List.replicate 16 0 ∧
    s.headerLen = 0 ∧ s.headerLimit = 0 ∧ s.msgLen = 0 ∧ s.cnt = 0 ∧ s.textPosition = 0 ∧
    s.nonceLen = 0 ∧ s.tagLen = 0 ∧ statusWord s = 0 ∧ s.msgLenReg = 0 ∧ s.hdrLenReg = 0 ∧
    s.key = List.replicate b.keyMax 0 ∧ s.nonce.toList = List.replicate 13 0 ∧
    s.tagIn.toList = List.replicate 16 0 ∧ s.tagOut.toList = List.replicate 16 0 ∧ s.config = b ∧
    (∀ a, s.hdrByte a = Config.hdrLaunch a ∧ s.msgByte a = Config.msgLaunch a)

/-- The reset, applied between commands, puts the engine at its reset values for its build, forgets the key, and touches
neither `HDR` nor `MSG` (`70_reset_and_hazards.md` R260, R262). -/
def Obligations.ResetForgetsTheKey : Prop :=
  ∀ (s : State) (rest : List HostAction),
    s.state ≠ .processing → s.sel = [] → s.host = .reset :: rest →
    step s = .next { State.resetOf s.config with hdr := s.hdr, msg := s.msg, host := rest, reads := s.reads } ∧
    (State.resetOf s.config).keySchedule = none ∧
    (State.resetOf s.config).key = List.replicate s.config.keyMax 0 ∧
    (State.resetOf s.config).state = .unkeyed

/-- The invariant holds right after reset, for every build; `State.reset` is the reset of the spec's default build (log
entry 2). -/
def Obligations.ResetHasInvariant : Prop :=
  (∀ b : Build, Inv (State.resetOf b)) ∧ Inv State.reset

/-- Every step keeps the invariant (R21, R27, R29, R31, R38): from every state that has it, also those no run
reaches. -/
def Obligations.StepKeepsInvariant : Prop :=
  ∀ s t : State, Inv s → step s = .next t → Inv t

/-- A command is atomic to the host: a step from a state with no message in progress leaves no message in progress. R191
gives the host no step inside a command and lets a model take a command as one step or one group a step: that it is one
step here is the model's choice (log entry 5). -/
def Obligations.CommandsAreAtomic : Prop :=
  ∀ s t : State, Inv s → s.state ≠ .processing → step s = .next t → t.state ≠ .processing

/-- No step from such a state faults: "once a message command has passed its checks it cannot fail"
(`60_exceptions.md` R233, R234). What is refused is, exactly, a host access to a register above 5 or to an index outside
its space, and a `CMD` value that no 32-bit word is; the refusal of the registers and of the value is the model's choice
(log entry 12). -/
def Obligations.CommandsNeverFault : Prop :=
  ∀ s : State, Inv s → s.state ≠ .processing →
    (∀ f, step s ≠ .fault f) ∧
    ((∃ r, step s = .refused r) ↔ ∃ a rest, s.host = a :: rest ∧
      ((∃ k, 5 < k ∧ a = .regRead k) ∨
        (∃ k v, 5 < k ∧ a = .regWrite k v) ∨
        (∃ v : BitVec 64, 2 ^ 32 ≤ v.toNat ∧ a = .regWrite 0 v) ∨
        (∃ sp i, spaceSize s sp ≤ i ∧ (a = .byteRead sp i ∨ ∃ v, a = .byteWrite sp i v))))

/-- Every group of a message in progress runs without a fault, and ends at a block boundary or with the message
(`45_controller.md` R205, R206, R233). -/
def Obligations.GroupsNeverFault : Prop :=
  ∀ s : State, GroupReady s →
    ∃ t, runGroup Config.cipher s = .next t ∧
      (GroupReady t ∨ (Inv t ∧ (t.state = .messageOk ∨ t.state = .messageFailed)))

/-! ## Key setup and message reset -/

/-- `INIT_ENKEY` and `INIT_DEKEY`, accepted and refused (`45_controller.md` R192, R193): the whole next state. -/
def Obligations.KeySetupResult : Prop :=
  ∀ (klen : Nat) (s : State),
    (klen ∈ s.config.keySizes →
      let k := Config.expandKey (s.key.take klen)
      let t := { s with
        keySchedule := some k, state := .keyed, lastError := none, status := .good
        counterBlock := zeroBytes 16, macAccumulator := zeroBytes 16, headerLen := 0, headerLimit := 0
        msgLen := 0, cnt := 0, textPosition := 0, nonceLen := 0, tagLen := 0, tagOut := zeroBytes 16 }
      exec (.initEnkey klen) s = .next { t with dir := .enc } ∧
      exec (.initDekey klen) s = .next { t with dir := .dec }) ∧
    (klen ∉ s.config.keySizes →
      let t := { s with
        keySchedule := none, state := .unkeyed, lastError := some .badKey, status := .error .badKey
        counterBlock := zeroBytes 16, macAccumulator := zeroBytes 16, headerLen := 0, headerLimit := 0
        msgLen := 0, cnt := 0, textPosition := 0, nonceLen := 0, tagLen := 0, tagOut := zeroBytes 16 }
      exec (.initEnkey klen) s = .next t ∧ exec (.initDekey klen) s = .next t)

/-- `MSG_RESET`, accepted and in `UNKEYED` (`45_controller.md` R194): the whole next state. -/
def Obligations.MsgResetResult : Prop :=
  ∀ s : State,
    (s.state ≠ .unkeyed → exec .msgReset s = .next { s with
      state := .keyed, lastError := none, status := .good
      counterBlock := zeroBytes 16, macAccumulator := zeroBytes 16, headerLen := 0, headerLimit := 0
      msgLen := 0, cnt := 0, textPosition := 0, nonceLen := 0, tagLen := 0, tagOut := zeroBytes 16 }) ∧
    (s.state = .unkeyed → exec .msgReset s = .next { s with
      lastError := some .badAuthCall, status := .error .badAuthCall })

/-! ## Message commands -/

/-- A message command that fails a check reports the first that fails, moves `KEYED` to `ERROR`, and changes nothing
else: no buffer, no `TAG_OUT`, no per-message field (`45_controller.md` R196 to R198, `60_exceptions.md` R236). -/
def Obligations.RefusedMessageChangesOnlyStatus : Prop :=
  ∀ (d : Dir) (nlen tlen : Nat) (s : State) (code : ErrorCode),
    let sequenced := s.state = .keyed ∧ s.dir = d
    let nonceOk := 7 ≤ nlen ∧ nlen ≤ 13
    let tagOk := tlen ∈ [4, 6, 8, 10, 12, 14, 16]
    let hdrOk := s.hdrLenReg.toNat ≤ (if s.config.longMessages then 2 ^ 64 - 1 else 2 ^ 32 - 1)
    let msgOk := s.msgLenReg.toNat < 2 ^ (8 * (15 - nlen)) ∧
      s.msgLenReg.toNat ≤ (if s.config.longMessages then 2 ^ 64 - 1 else 2 ^ 32 - 1)
    ((¬ sequenced ∧ code = .badAuthCall) ∨
      (sequenced ∧ ¬ nonceOk ∧ code = .badNonceLength) ∨
      (sequenced ∧ nonceOk ∧ ¬ tagOk ∧ code = .badAuthFieldLength) ∨
      (sequenced ∧ nonceOk ∧ tagOk ∧ ¬ hdrOk ∧ code = .authLengthError) ∨
      (sequenced ∧ nonceOk ∧ tagOk ∧ hdrOk ∧ ¬ msgOk ∧ code = .msgLengthError)) →
    exec (if d = .enc then .encryptMessage nlen tlen else .decryptMessage nlen tlen) s =
      .next { s with
        status := .error code, lastError := some code
        state := if s.state = .keyed then .error else s.state }

/-- An accepted message command gives the closed form of R203 in the state of R213, under either release policy (R202,
R214): ciphertext or plaintext in `MSG`, the tag in `TAG_OUT`, the outcome in `STATUS` and `state`. -/
def Obligations.AcceptedMessageGivesClosedForm : Prop :=
  ∀ (nlen tlen : Nat) (s : State) (k : KeySchedule), s.keySchedule = some k →
    (Accepted .enc nlen tlen s →
      exec (.encryptMessage nlen tlen) s = .next (messageResult Config.cipher k .enc nlen tlen s)) ∧
    (Accepted .dec nlen tlen s →
      exec (.decryptMessage nlen tlen) s = .next (messageResult Config.cipher k .dec nlen tlen s))

/-- `BUFFERED` differs from `STREAMING` in one thing: after a decryption whose tags differ, `MSG` keeps the bytes it had;
encryption is unchanged (`45_controller.md` R214). -/
def Obligations.BufferedKeepsMsgOnMismatch : Prop :=
  ∀ (nlen tlen : Nat) (s : State), s.keySchedule ≠ none →
    let streaming := { s with config := { s.config with releasePolicy := .streaming } }
    let buffered := { s with config := { s.config with releasePolicy := .buffered } }
    (Accepted .dec nlen tlen s → ∃ t,
      exec (.decryptMessage nlen tlen) streaming = .next t ∧
      exec (.decryptMessage nlen tlen) buffered = .next { t with
        config := buffered.config
        msg := if t.state = .messageFailed then s.msg else t.msg }) ∧
    (Accepted .enc nlen tlen s → ∃ t,
      exec (.encryptMessage nlen tlen) streaming = .next t ∧
      exec (.encryptMessage nlen tlen) buffered = .next { t with config := buffered.config })

/-- Decryption undoes encryption: with the same key schedule, nonce, header, tag length and the tag the encryption gave,
it ends with `RETURN_GOOD` and the original message (`45_controller.md` R215 (a)). -/
def Obligations.DecryptionUndoesEncryption : Prop :=
  ∀ (nlen tlen : Nat) (s u : State), s.keySchedule ≠ none →
    Accepted .enc nlen tlen s → Accepted .dec nlen tlen u →
    u.keySchedule = s.keySchedule → u.nonce.toList.take nlen = s.nonce.toList.take nlen →
    u.hdrLenReg = s.hdrLenReg → (∀ a < s.hdrLenReg.toNat, u.hdrByte a = s.hdrByte a) →
    u.msgLenReg = s.msgLenReg →
    ∃ t, exec (.encryptMessage nlen tlen) s = .next t ∧
      ((∀ a < s.msgLenReg.toNat, u.msgByte a = t.msgByte a) →
        u.tagIn.toList.take tlen = t.tagOut.toList.take tlen →
        ∃ v, exec (.decryptMessage nlen tlen) u = .next v ∧ v.status = .good ∧ v.state = .messageOk ∧
          ∀ a < s.msgLenReg.toNat, v.msgByte a = s.msgByte a)

/-- A decryption ends with `RETURN_GOOD` exactly when the recomputed tag, which `TAG_OUT` shows either way, equals
`TAG_IN[0..tag_len)`, and else with `RETURN_WARN`, which is no error (`44_tag.md` R183, R184, `45_controller.md`
R212, `60_exceptions.md` R239). -/
def Obligations.DecryptStatusIsTheTagComparison : Prop :=
  ∀ (nlen tlen : Nat) (s : State), s.keySchedule ≠ none → Accepted .dec nlen tlen s →
    ∃ t, exec (.decryptMessage nlen tlen) s = .next t ∧ t.lastError = s.lastError ∧
      (t.tagOut.toList.take tlen = s.tagIn.toList.take tlen → t.status = .good ∧ t.state = .messageOk) ∧
      (t.tagOut.toList.take tlen ≠ s.tagIn.toList.take tlen → t.status = .warn ∧ t.state = .messageFailed)

/-- Operand bytes beyond the stated lengths affect nothing: `NONCE` from `nlen` on, `TAG_IN` from `tlen` on, `HDR` from
`HDR_LEN` on (`10_state.md` R42, R43, `44_tag.md` R183). -/
def Obligations.BytesBeyondLengthsIgnored : Prop :=
  ∀ (nlen tlen : Nat) (s : State) (nonce : Bytes 13) (tagIn : Bytes 16) (hdr : Memory), s.keySchedule ≠ none →
    nonce.toList.take nlen = s.nonce.toList.take nlen → tagIn.toList.take tlen = s.tagIn.toList.take tlen →
    (∀ a < s.hdrLenReg.toNat, Memory.byteAt hdr Config.hdrLaunch a = s.hdrByte a) →
    (Accepted .enc nlen tlen s → ∃ t, exec (.encryptMessage nlen tlen) s = .next t ∧
      exec (.encryptMessage nlen tlen) { s with nonce := nonce, tagIn := tagIn, hdr := hdr } =
        .next { t with nonce := nonce, tagIn := tagIn, hdr := hdr }) ∧
    (Accepted .dec nlen tlen s → ∃ t, exec (.decryptMessage nlen tlen) s = .next t ∧
      exec (.decryptMessage nlen tlen) { s with nonce := nonce, tagIn := tagIn, hdr := hdr } =
        .next { t with nonce := nonce, tagIn := tagIn, hdr := hdr })

/-- What a message command touches: no byte of `HDR`, no byte of `MSG` at or beyond `MSG_LEN`, no operand register; and
in encryption each payload byte becomes itself xor its keystream byte (`20_memory.md` R65, `43_counter_cipher.md`
R169). -/
def Obligations.MessageFootprint : Prop :=
  ∀ (nlen tlen : Nat) (s : State) (k : KeySchedule), s.keySchedule = some k →
    (Accepted .enc nlen tlen s → ∃ t, exec (.encryptMessage nlen tlen) s = .next t ∧
      t.hdr = s.hdr ∧ t.key = s.key ∧ t.nonce = s.nonce ∧ t.tagIn = s.tagIn ∧
      t.msgLenReg = s.msgLenReg ∧ t.hdrLenReg = s.hdrLenReg ∧ t.keySchedule = s.keySchedule ∧ t.dir = s.dir ∧
      (∀ a, s.msgLenReg.toNat ≤ a → t.msgByte a = s.msgByte a) ∧
      (∀ a < s.msgLenReg.toNat, t.msgByte a =
        s.msgByte a ^^^ keystreamByte (Config.encryptBlock k) (s.nonce.toList.take nlen) a)) ∧
    (Accepted .dec nlen tlen s → ∃ t, exec (.decryptMessage nlen tlen) s = .next t ∧
      t.hdr = s.hdr ∧ t.key = s.key ∧ t.nonce = s.nonce ∧ t.tagIn = s.tagIn ∧
      t.msgLenReg = s.msgLenReg ∧ t.hdrLenReg = s.hdrLenReg ∧ t.keySchedule = s.keySchedule ∧ t.dir = s.dir ∧
      (∀ a, s.msgLenReg.toNat ≤ a → t.msgByte a = s.msgByte a))

/-- `ERROR` is sticky: every message command is refused with -5 and changes only `STATUS` and `last_error`, and
`MSG_RESET` leads back to `KEYED` with the key and the direction kept (`60_exceptions.md` R237, R241). -/
def Obligations.ErrorIsSticky : Prop :=
  ∀ (nlen tlen : Nat) (s : State), s.state = .error →
    exec (.encryptMessage nlen tlen) s =
      .next { s with status := .error .badAuthCall, lastError := some .badAuthCall } ∧
    exec (.decryptMessage nlen tlen) s =
      .next { s with status := .error .badAuthCall, lastError := some .badAuthCall } ∧
    ∃ t, exec .msgReset s = .next t ∧ t.state = .keyed ∧ t.keySchedule = s.keySchedule ∧ t.dir = s.dir

/-- The transition table of the context, row by row (`45_controller.md` R190). -/
def Obligations.StateTransitions : Prop :=
  ∀ (klen nlen tlen : Nat) (s : State), (s.keySchedule = none ↔ s.state = .unkeyed) →
    (∀ i ∈ [Instr.initEnkey klen, Instr.initDekey klen], ∃ t, exec i s = .next t ∧
      (klen ∈ s.config.keySizes → t.state = .keyed ∧ t.status = .good) ∧
      (klen ∉ s.config.keySizes → t.state = .unkeyed ∧ t.status = .error .badKey)) ∧
    (∃ t, exec .msgReset s = .next t ∧
      (s.state ≠ .unkeyed → t.state = .keyed ∧ t.status = .good) ∧
      (s.state = .unkeyed → t.state = .unkeyed ∧ t.status = .error .badAuthCall)) ∧
    (∀ d, ∃ t,
      exec (if d = .enc then .encryptMessage nlen tlen else .decryptMessage nlen tlen) s = .next t ∧
      (s.state ≠ .keyed → t.state = s.state ∧ t.status = .error .badAuthCall) ∧
      (s.state = .keyed → ¬ Accepted d nlen tlen s → t.state = .error ∧ ∃ e, e ≠ .badKey ∧ t.status = .error e) ∧
      (s.state = .keyed → Accepted d nlen tlen s →
        (t.state = .messageOk ∧ t.status = .good) ∨ (d = .dec ∧ t.state = .messageFailed ∧ t.status = .warn))) ∧
    (∀ w, (∀ i, decodeCommand w ≠ .ok i) → ∃ t, undecoded (.command w) s = .next t ∧
      t.state = s.state ∧ t.status = .error .badAuthCall)

/-! ## Formatter -/

/-- The flags byte of `B0`: bit 7 zero, `Adata`, the tag-length code and the length-width code (`41_formatter.md`
R132). -/
def Obligations.B0FlagsFields : Prop :=
  ∀ (h tagLen nonceLen : Nat), tagLen ∈ [4, 6, 8, 10, 12, 14, 16] → 7 ≤ nonceLen → nonceLen ≤ 13 →
    let f := b0Flags h tagLen (15 - nonceLen)
    f.extractLsb' 7 1 = 0 ∧
    (f.extractLsb' 6 1 = 1 ↔ 0 < h) ∧
    (f.extractLsb' 3 3).toNat = (tagLen - 2) / 2 ∧
    (f.extractLsb' 0 3).toNat = 15 - nonceLen - 1 ∧
    f.extractLsb' 3 3 ≠ 0 ∧ f.extractLsb' 0 3 ≠ 0

/-- `FMT_B0` (R131, R133): sixteen bytes, the flags byte, the nonce in order, the payload length big-endian; it writes
`blk` only. -/
def Obligations.FmtB0Result : Prop :=
  ∀ s : State, 7 ≤ s.nonceLen.toNat → s.nonceLen.toNat ≤ 13 → s.tagLen.toNat ∈ [4, 6, 8, 10, 12, 14, 16] →
    s.msgLen.toNat < 2 ^ (8 * (15 - s.nonceLen.toNat)) →
    ∃ blk, exec .fmtB0 s = .next { s with blk := blk } ∧ blk.length = 16 ∧
      blk.getD 0 0 = BitVec.ofNat 8
        ((if 0 < s.headerLen.toNat then 1 else 0) * 64 + ((s.tagLen.toNat - 2) / 2) * 8 + (15 - s.nonceLen.toNat - 1)) ∧
      (∀ i < s.nonceLen.toNat, blk.getD (1 + i) 0 = s.nonce.toList.getD i 0) ∧
      unbe (blk.drop (1 + s.nonceLen.toNat)) = s.msgLen.toNat

/-- The associated-data length prefix (R134): its length and its bytes in each range; the 2-byte form never begins with
`0xFF`, so the three forms cannot be confused. That the 4-byte and 8-byte lengths are big-endian is a choice, presumed
from general knowledge (log entry 22): "that the 4-byte and 8-byte lengths are also big-endian is this spec's choice"
(R134). -/
def Obligations.AadPrefixForms : Prop :=
  ∀ h : Nat, (aadPrefix h).length = plen h ∧
    (h = 0 → aadPrefix h = []) ∧
    (0 < h → h < 65280 → (aadPrefix h).length = 2 ∧ unbe (aadPrefix h) = h ∧ (aadPrefix h).getD 0 0 ≠ 0xFF) ∧
    (65280 ≤ h → h < 2 ^ 32 → (aadPrefix h).length = 6 ∧ (aadPrefix h).take 2 = [0xFF, 0xFE] ∧
      unbe ((aadPrefix h).drop 2) = h) ∧
    (2 ^ 32 ≤ h → h < 2 ^ 64 → (aadPrefix h).length = 10 ∧ (aadPrefix h).take 2 = [0xFF, 0xFF] ∧
      unbe ((aadPrefix h).drop 2) = h)

/-- `FMT_AAD` (R136, R138): the sixteen bytes of the padded stream from `cnt` on, and `cnt` advances by the stream
bytes among them; it writes `blk` and `cnt` only. -/
def Obligations.FmtAadResult : Prop :=
  ∀ s : State, 0 < s.headerLen.toNat → s.cnt.toNat < plen s.headerLen.toNat + s.headerLen.toNat →
    (s.config.longMessages = true ∨ s.headerLen.toNat < 2 ^ 32) →
    let h := s.headerLen.toNat
    let n := min 16 (plen h + h - s.cnt.toNat)
    ∃ blk cnt, exec .fmtAad s = .next { s with blk := blk, cnt := cnt } ∧
      cnt.toNat = s.cnt.toNat + n ∧ blk.length = 16 ∧
      ∀ k < 16, blk.getD k 0 =
        if s.cnt.toNat + k < plen h then (aadPrefix h).getD (s.cnt.toNat + k) 0
        else if s.cnt.toNat + k < plen h + h then s.hdrByte (s.cnt.toNat + k - plen h)
        else 0

/-! ## MAC accumulator -/

/-- `MAC_INIT` (`42_mac_accumulator.md` R151). -/
def Obligations.MacInitResult : Prop :=
  ∀ s : State, ∃ b : Block, exec .macInit s = .next { s with macAccumulator := b } ∧ ∀ i < 16, b.toList.getD i 0 = 0

/-- `MAC_FOLD` (R152, R155): one cipher call on the accumulator xor the block, a short block counting as followed by
zeros; it writes `mac_accumulator` only. -/
def Obligations.MacFoldResult : Prop :=
  ∀ (s : State) (k : KeySchedule) (x : Block), s.keySchedule = some k → 1 ≤ s.blk.length → s.blk.length ≤ 16 →
    (∀ i < 16, x.toList.getD i 0 =
      s.macAccumulator.toList.getD i 0 ^^^ (if i < s.blk.length then s.blk.getD i 0 else 0)) →
    exec .macFold s = .next { s with macAccumulator := Config.encryptBlock k x }

/-! ## Counter cipher -/

/-- `CTR_LOAD0` (`43_counter_cipher.md` R160, R162): the counter block of index 0; it writes `counter_block` only. -/
def Obligations.CtrLoad0Result : Prop :=
  ∀ s : State, 7 ≤ s.nonceLen.toNat → s.nonceLen.toNat ≤ 13 →
    ∃ cb : Block, exec .ctrLoad0 s = .next { s with counterBlock := cb } ∧
      cb.toList.getD 0 0 = BitVec.ofNat 8 (15 - s.nonceLen.toNat - 1) ∧
      (∀ i < s.nonceLen.toNat, cb.toList.getD (1 + i) 0 = s.nonce.toList.getD i 0) ∧
      (∀ i, s.nonceLen.toNat < i → i < 16 → cb.toList.getD i 0 = 0)

/-- `CTR_INC` (R163): the last `L` bytes, read big-endian, go up by 1 and no other byte changes; where they are all
`0xFF` the machine faults and never wraps. -/
def Obligations.CtrIncResult : Prop :=
  ∀ s : State, 7 ≤ s.nonceLen.toNat → s.nonceLen.toNat ≤ 13 →
    let l := 15 - s.nonceLen.toNat
    let v := unbe (s.counterBlock.toList.drop (16 - l))
    (v + 1 < 2 ^ (8 * l) → ∃ cb : Block, exec .ctrInc s = .next { s with counterBlock := cb } ∧
      cb.toList.take (16 - l) = s.counterBlock.toList.take (16 - l) ∧
      unbe (cb.toList.drop (16 - l)) = v + 1) ∧
    (2 ^ (8 * l) ≤ v + 1 → exec .ctrInc s = .fault .counterWrap) ∧
    v < 2 ^ (8 * l)

/-- `KS_GEN` (R164): one cipher call on the counter block; it writes the temporary `ks` only. -/
def Obligations.KsGenResult : Prop :=
  ∀ (s : State) (k : KeySchedule), s.keySchedule = some k →
    exec .ksGen s = .next { s with ks := Config.encryptBlock k s.counterBlock }

/-- `PAY_LOAD` (R165): the next `min(16, msg_len - text_position)` bytes of `MSG`; it writes the temporary `blk`
only. -/
def Obligations.PayLoadResult : Prop :=
  ∀ s : State, s.textPosition.toNat < s.msgLen.toNat →
    ∃ blk, exec .payLoad s = .next { s with blk := blk } ∧
      blk.length = min 16 (s.msgLen.toNat - s.textPosition.toNat) ∧
      ∀ i < blk.length, blk.getD i 0 = s.msgByte (s.textPosition.toNat + i)

/-- `PAY_XOR` (R166): each byte of the block xor its keystream byte, over the block's own length; twice with the same
keystream restores the block; it writes the temporary `blk` only. -/
def Obligations.PayXorResult : Prop :=
  ∀ s : State, s.blk.length ≤ 16 →
    ∃ blk, exec .payXor s = .next { s with blk := blk } ∧ blk.length = s.blk.length ∧
      (∀ i < s.blk.length, blk.getD i 0 = s.blk.getD i 0 ^^^ s.ks.toList.getD i 0) ∧
      exec .payXor { s with blk := blk } = .next s

/-- `PAY_STORE` (R167): the block goes to `MSG` at `text_position`, every other byte of `MSG` stays, and `text_position`
advances by its length. -/
def Obligations.PayStoreResult : Prop :=
  ∀ s : State, s.blk.length ≤ 16 → s.textPosition.toNat + s.blk.length ≤ s.msgLen.toNat →
    ∃ t, exec .payStore s = .next t ∧ t = { s with msg := t.msg, textPosition := t.textPosition } ∧
      t.textPosition.toNat = s.textPosition.toNat + s.blk.length ∧
      (∀ i < s.blk.length, t.msgByte (s.textPosition.toNat + i) = s.blk.getD i 0) ∧
      (∀ a, a < s.textPosition.toNat ∨ s.textPosition.toNat + s.blk.length ≤ a → t.msgByte a = s.msgByte a)

/-- No two counter blocks of a message are equal, and none equals the mask's `Ctr_0`: the indices 0 to `N` of an
accepted message are below `2^(8L)`, and distinct indices there give distinct blocks (R171). -/
def Obligations.CountersNeverCollide : Prop :=
  ∀ (nonce : List Byte), 7 ≤ nonce.length → nonce.length ≤ 13 →
    (∀ i j, i < 2 ^ (8 * (15 - nonce.length)) → j < 2 ^ (8 * (15 - nonce.length)) → i ≠ j →
      ctrBlock nonce i ≠ ctrBlock nonce j) ∧
    (∀ msgLen, msgLen < 2 ^ (8 * (15 - nonce.length)) → payloadBlocks msgLen < 2 ^ (8 * (15 - nonce.length)))

/-- `increment` takes `Ctr_j` to `Ctr_(j+1)`, and has no value at the last index (R160, R163). -/
def Obligations.IncrementStepsTheIndex : Prop :=
  ∀ (nonce : List Byte) (j : Nat), 7 ≤ nonce.length → nonce.length ≤ 13 →
    (j + 1 < 2 ^ (8 * (15 - nonce.length)) →
      increment (ctrBlock nonce j) (15 - nonce.length) = some (ctrBlock nonce (j + 1))) ∧
    (j + 1 = 2 ^ (8 * (15 - nonce.length)) → increment (ctrBlock nonce j) (15 - nonce.length) = none)

/-! ## Tag -/

/-- `TAG_MASK` (`44_tag.md` R181): the first `tag_len` bytes of the accumulator xor the mask, then zeros; it writes
`TAG_OUT` only and leaves the raw MAC. -/
def Obligations.TagMaskResult : Prop :=
  ∀ s : State, s.tagLen.toNat ≤ 16 →
    ∃ out : Block, exec .tagMask s = .next { s with tagOut := out } ∧
      (∀ i < s.tagLen.toNat, out.toList.getD i 0 = s.macAccumulator.toList.getD i 0 ^^^ s.ks.toList.getD i 0) ∧
      (∀ i, s.tagLen.toNat ≤ i → i < 16 → out.toList.getD i 0 = 0)

/-- `TAG_CMP` (R183): whether the first `tag_len` bytes of `TAG_OUT` and `TAG_IN` agree; it writes the temporary `match`
only. -/
def Obligations.TagCmpResult : Prop :=
  ∀ s : State, s.tagLen.toNat ≤ 16 →
    ∃ m : Bool, exec .tagCmp s = .next { s with tagMatch := m } ∧
      (m = true ↔ ∀ k < s.tagLen.toNat, s.tagOut.toList.getD k 0 = s.tagIn.toList.getD k 0)

/-! ## Where a micro-operation stops -/

/-- Outside the domain its rule states a micro-operation stops, by name; the names and the stops are the model's choice,
since the spec gives such a call no meaning (log entry 8): no `L` (R11), a tag length with no code (R28,
R132) or beyond its register (R181), a length that does not fit (R131), an exhausted stream (R138, R165), a prefix form
that the build has not, which the model reads from R134 (log entry 19), no key schedule (R122), a block of no legal
length (R152, R166), a store outside the payload (R63). -/
def Obligations.MicroOpsStopOutsideTheirDomain : Prop :=
  ∀ s : State,
    (¬ (7 ≤ s.nonceLen.toNat ∧ s.nonceLen.toNat ≤ 13) →
      exec .fmtB0 s = .fault .nonceLength ∧ exec .ctrLoad0 s = .fault .nonceLength ∧
      exec .ctrInc s = .fault .nonceLength) ∧
    (7 ≤ s.nonceLen.toNat ∧ s.nonceLen.toNat ≤ 13 → s.tagLen.toNat ∉ [4, 6, 8, 10, 12, 14, 16] →
      exec .fmtB0 s = .fault .tagLength) ∧
    (7 ≤ s.nonceLen.toNat ∧ s.nonceLen.toNat ≤ 13 → s.tagLen.toNat ∈ [4, 6, 8, 10, 12, 14, 16] →
      2 ^ (8 * (15 - s.nonceLen.toNat)) ≤ s.msgLen.toNat → exec .fmtB0 s = .fault .lengthField) ∧
    (s.headerLen.toNat = 0 ∨ plen s.headerLen.toNat + s.headerLen.toNat ≤ s.cnt.toNat →
      exec .fmtAad s = .fault .aadExhausted) ∧
    (2 ^ 32 ≤ s.headerLen.toNat → s.cnt.toNat < plen s.headerLen.toNat + s.headerLen.toNat →
      s.config.longMessages = false → exec .fmtAad s = .fault .noPrefixForm) ∧
    (s.blk.length = 0 ∨ 16 < s.blk.length → exec .macFold s = .fault .blockLength) ∧
    (1 ≤ s.blk.length ∧ s.blk.length ≤ 16 → s.keySchedule = none → exec .macFold s = .fault .noKeySchedule) ∧
    (s.keySchedule = none → exec .ksGen s = .fault .noKeySchedule) ∧
    (s.msgLen.toNat ≤ s.textPosition.toNat → exec .payLoad s = .fault .payloadExhausted) ∧
    (16 < s.blk.length → exec .payXor s = .fault .blockLength) ∧
    (16 < s.blk.length ∨ s.msgLen.toNat < s.textPosition.toNat + s.blk.length →
      exec .payStore s = .fault .storeOutside) ∧
    (16 < s.tagLen.toNat → exec .tagMask s = .fault .tagLength ∧ exec .tagCmp s = .fault .tagLength)

/-! ## Call forms -/

/-- The two key calls and `reset_message()`, from beginning to end (`30_encoding.md` R99): the bytes given arrive in
`KEY`, the command runs on them, and the call returns `STATUS` and reads nothing back. -/
def Obligations.KeyAndResetCallsReturnStatus : Prop :=
  ∀ (s : State) (key : List Byte) (n : Nat), Inv s → s.state ≠ .processing → n ≤ 255 →
    let given := key.take (min n s.config.keyMax)
    let filled := { s with key := given ++ s.key.drop given.length }
    let returned (v : State) : CallReturn :=
      { status := statusWord v, readBack := [], after := { v with reads := s.reads ++ [(statusWord v).setWidth 64] } }
    (∃ v, exec (.initEnkey n) filled = .next v ∧ performCall (callInitAndEnkey s.config key n) s = .next (returned v)) ∧
    (∃ v, exec (.initDekey n) filled = .next v ∧ performCall (callInitAndDekey s.config key n) s = .next (returned v)) ∧
    (∃ v, exec .msgReset s = .next v ∧ performCall callResetMessage s = .next (returned v))

/-- The two message calls, from beginning to end (`30_encoding.md` R99): the operands given arrive in `NONCE`, `HDR`,
`MSG`, `HDR_LEN`, `MSG_LEN` and, for a decryption, `TAG_IN`, bytes already resident stay, the command runs on them, and
the call returns `STATUS` and reads the message and the tag back exactly when that is 0, or 1 for a decryption. -/
def Obligations.MessageCallsReadBackByStatus : Prop :=
  ∀ (d : Dir) (nonce tagIn : List Byte) (n t : Nat) (hdr msg : Buffer) (s : State),
    Inv s → s.state ≠ .processing → n ≤ 255 → t ≤ 255 →
    hdr.Fits (spaceSize s .hdr) → msg.Fits (spaceSize s .msg) →
    let stored (bytes : List Byte) (most : Nat) (old : Nat → Byte) (i : Nat) : Byte :=
      if i < most ∧ i < bytes.length then bytes.getD i 0 else old i
    ∃ (u v : State) (r : CallReturn),
      performCall (if d = .enc then callEncryptMessage nonce n hdr msg t
        else callDecryptMessage nonce n hdr msg tagIn t) s = .next r ∧
      exec (if d = .enc then .encryptMessage n t else .decryptMessage n t) u = .next v ∧
      u = { s with
        nonce := u.nonce, hdr := u.hdr, msg := u.msg, tagIn := u.tagIn, hdrLenReg := hdr.length, msgLenReg := msg.length } ∧
      (∀ i < 13, u.nonce.toList.getD i 0 = stored nonce n (fun i => s.nonce.toList.getD i 0) i) ∧
      (∀ a, u.hdrByte a = stored hdr.bytes hdr.bytes.length s.hdrByte a) ∧
      (∀ a, u.msgByte a = stored msg.bytes msg.bytes.length s.msgByte a) ∧
      (d = .enc → u.tagIn = s.tagIn) ∧
      (d = .dec → ∀ i < 16, u.tagIn.toList.getD i 0 = stored tagIn t (fun i => s.tagIn.toList.getD i 0) i) ∧
      r.status = statusWord v ∧
      r.readBack = (if v.status = .good ∨ (d = .dec ∧ v.status = .warn)
        then (List.range msg.length.toNat).map v.msgByte ++ v.tagOut.toList.take t else []) ∧
      r.after = { v with
        reads := s.reads ++ (statusWord v).setWidth 64 :: r.readBack.map fun b => b.setWidth 64 }
end

