-- ==== Sys2Proof/Laws/Bytes.lean ====
section
/-! SUPPORT. What the byte-string operations give (`00_scope.md` R8): lengths, single bytes, and that big-endian
encoding and reading are inverse. -/

namespace Sys2Proof.Machine

/-! ## Registers of bytes -/

theorem toBytes_toList (n : Nat) (s : List Byte) :
    (toBytes n s).toList = (List.range n).map fun k => s.getD k 0 := rfl

@[simp] theorem toBytes_toList_of_length {n : Nat} {s : List Byte} (h : s.length = n) :
    (toBytes n s).toList = s := by
  subst h
  rw [toBytes_toList]
  apply List.ext_getElem (by simp)
  intro i h1 h2
  simp [h2]

@[simp] theorem toBytes_of_toList {n : Nat} (b : Bytes n) : toBytes n b.toList = b := by
  apply Vector.toList_inj.mp
  exact toBytes_toList_of_length (by simp)

theorem toBytes_getD (n : Nat) (s : List Byte) (i : Nat) :
    (toBytes n s).toList.getD i 0 = if i < n then s.getD i 0 else 0 := by
  rw [toBytes_toList]
  by_cases h : i < n <;> simp [h, List.getD_eq_getElem?_getD]

theorem bytes_ext {n : Nat} {a b : Bytes n} (h : ∀ i < n, a.toList.getD i 0 = b.toList.getD i 0) : a = b := by
  apply Vector.toList_inj.mp
  apply List.ext_getElem (by simp)
  intro i h1 h2
  have := h i (by simpa using h1)
  rwa [List.getD_eq_getElem _ _ h1, List.getD_eq_getElem _ _ h2] at this

@[simp] theorem zeroBytes_toList (n : Nat) : (zeroBytes n).toList = zeros n := by
  simp [zeroBytes, zeros]

@[simp] theorem zeros_length (n : Nat) : (zeros n).length = n := by simp [zeros]

theorem putByte_getD {n : Nat} (s : Bytes n) (i j : Nat) (v : Byte) :
    (putByte s i v).toList.getD j 0 = if j = i ∧ i < n then v else s.toList.getD j 0 := by
  rw [putByte, toBytes_getD]
  simp only [List.getD_eq_getElem?_getD, List.getElem?_set, Vector.length_toList]
  by_cases hj : j < n
  · by_cases hi : i = j
    · subst hi; simp [hj]
    · simp [hj, hi, Ne.symm hi]
  · by_cases hi : i = j
    · subst hi; simp [hj]
    · simp [hj, Ne.symm hi]

@[simp] theorem xorBytes_length (s t : List Byte) : (xorBytes s t).length = min s.length t.length := by
  simp [xorBytes]

theorem xorBlock_toList (a b : Block) : (xorBlock a b).toList = xorBytes a.toList b.toList := by
  rw [xorBlock, toBytes_toList_of_length]; simp

theorem xorBytes_getD {s t : List Byte} {i : Nat} (hs : i < s.length) (ht : i < t.length) :
    (xorBytes s t).getD i 0 = s.getD i 0 ^^^ t.getD i 0 := by
  rw [List.getD_eq_getElem _ _ (by simp; omega), List.getD_eq_getElem _ _ hs, List.getD_eq_getElem _ _ ht]
  simp [xorBytes]

theorem xorBlock_getD (a b : Block) {i : Nat} (h : i < 16) :
    (xorBlock a b).toList.getD i 0 = a.toList.getD i 0 ^^^ b.toList.getD i 0 := by
  rw [xorBlock_toList, xorBytes_getD] <;> simpa

theorem take_getD {s : List Byte} {n i : Nat} (h : i < n) : (s.take n).getD i 0 = s.getD i 0 := by
  rw [List.getD_eq_getElem?_getD, List.getElem?_take, if_pos h, ← List.getD_eq_getElem?_getD]

/-! ## Big-endian numbers -/

@[simp] theorem be_length (v n : Nat) : (be v n).length = n := by simp [be]

theorem be_getD (v : Nat) {n k : Nat} (h : k < n) :
    (be v n).getD k 0 = BitVec.ofNat 8 (v / 2 ^ (8 * (n - 1 - k))) := by
  rw [List.getD_eq_getElem _ _ (by simpa)]; simp [be]

theorem be_succ (v n : Nat) : be v (n + 1) = be (v / 256) n ++ [BitVec.ofNat 8 v] := by
  rw [be, List.range_succ, List.map_append, be]
  congr 1
  · apply List.map_congr_left
    intro k hk
    have hk : k < n := List.mem_range.mp hk
    rw [Nat.div_div_eq_div_mul, show (256 : Nat) = 2 ^ 8 from rfl, ← pow_add]
    congr 3; omega
  · simp

@[simp] theorem be_zero_right (v : Nat) : be v 0 = [] := rfl

theorem be_zero_left (n : Nat) : be 0 n = zeros n := by
  simp [be, zeros, List.map_const']

theorem unbe_append (s : List Byte) (b : Byte) : unbe (s ++ [b]) = unbe s * 256 + b.toNat := by
  simp [unbe]

/-- `unbe(be(v, n)) = v` (R8). -/
theorem unbe_be {v n : Nat} (h : v < 2 ^ (8 * n)) : unbe (be v n) = v := by
  induction n generalizing v with
  | zero => simp at h; subst h; rfl
  | succ n ih =>
    have hd : v / 256 < 2 ^ (8 * n) := by
      rw [Nat.div_lt_iff_lt_mul (by norm_num)]
      calc v < 2 ^ (8 * (n + 1)) := h
        _ = 2 ^ (8 * n) * 256 := by rw [Nat.mul_add, pow_add]; norm_num
    rw [be_succ, unbe_append, ih hd]
    simp only [BitVec.toNat_ofNat]
    omega

/-- A string of `n` bytes encodes a number below `2^(8n)`. -/
theorem unbe_lt (s : List Byte) : unbe s < 2 ^ (8 * s.length) := by
  induction s using List.reverseRecOn with
  | nil => simp [unbe]
  | append_singleton s b ih =>
    rw [unbe_append]
    have := b.isLt
    have e : 2 ^ (8 * (s ++ [b]).length) = 2 ^ (8 * s.length) * 256 := by simp [Nat.mul_add, pow_add]
    omega

theorem be_injective {v w n : Nat} (hv : v < 2 ^ (8 * n)) (hw : w < 2 ^ (8 * n)) (h : be v n = be w n) : v = w := by
  rw [← unbe_be hv, h, unbe_be hw]

end Sys2Proof.Machine
end

