-- ==== Sys2Proof/Laws/Memory.lean ====
section
/-! SUPPORT. What the buffer-space operations give: a read after a write, and that every write keeps the canonical form
(`20_memory.md` R62, R63; `10_state.md` R46). -/

namespace Sys2Proof.Machine

theorem Memory.byteAt?_put (m : Memory) (a b : Nat) (v : Byte) :
    Memory.byteAt? (Memory.put m a v) b = if a = b then some v else Memory.byteAt? m b := by
  induction m with
  | nil => by_cases h : a = b <;> simp [Memory.put, Memory.byteAt?, h]
  | cons c m ih =>
    simp only [Memory.put]
    split
    · by_cases h : a = b <;> simp [Memory.byteAt?, h]
    · split
      · rename_i h1 h2
        subst h2
        by_cases h : c.1 = b <;> simp [Memory.byteAt?, h]
      · rename_i h1 h2
        simp only [Memory.byteAt?, ih]
        by_cases h : c.1 = b
        · have : a ≠ b := fun e => h2 (e.trans h.symm)
          simp [h, this]
        · simp [h]

/-- A read after a write: the byte written at its offset, the old byte at every other. -/
theorem Memory.byteAt_put (m : Memory) (launch : Nat → Byte) (a b : Nat) (v : Byte) :
    Memory.byteAt (Memory.put m a v) launch b = if a = b then v else Memory.byteAt m launch b := by
  rw [Memory.byteAt, Memory.byteAt?_put]
  by_cases h : a = b <;> simp [h, Memory.byteAt]

/-- `MemWrite` in one sentence: the bytes written inside, the old byte outside (R63). -/
theorem Memory.byteAt_write (m : Memory) (launch : Nat → Byte) (a b : Nat) (s : List Byte) :
    Memory.byteAt (Memory.write m a s) launch b =
      if a ≤ b ∧ b < a + s.length then s.getD (b - a) 0 else Memory.byteAt m launch b := by
  induction s generalizing m a with
  | nil => simp only [Memory.write, List.length_nil, add_zero]; rw [if_neg (by omega)]
  | cons v s ih =>
    rw [Memory.write, ih, Memory.byteAt_put]
    simp only [List.length_cons]
    by_cases h1 : a = b
    · subst h1
      rw [if_neg (by omega), if_pos rfl, if_pos (by omega)]; simp
    · by_cases h2 : a + 1 ≤ b ∧ b < a + 1 + s.length
      · rw [if_pos h2, if_pos (by omega)]
        obtain ⟨d, rfl⟩ : ∃ d, b = a + 1 + d := ⟨b - (a + 1), by omega⟩
        rw [show a + 1 + d - a = d + 1 by omega, show a + 1 + d - (a + 1) = d by omega]; simp
      · rw [if_neg h2, if_neg h1, if_neg (by omega)]

theorem Memory.write_append (m : Memory) (a : Nat) (s t : List Byte) :
    Memory.write m a (s ++ t) = Memory.write (Memory.write m a s) (a + s.length) t := by
  induction s generalizing m a with
  | nil => rfl
  | cons v s ih =>
    simp only [List.cons_append, Memory.write, ih, List.length_cons]
    congr 1; omega

theorem Memory.mem_put {m : Memory} {a : Nat} {v : Byte} {c : Host.Cell} (h : c ∈ Memory.put m a v) :
    c = (a, v) ∨ c ∈ m := by
  induction m with
  | nil => simpa [Memory.put] using h
  | cons d m ih =>
    simp only [Memory.put] at h
    split at h
    · simpa using h
    · split at h
      · rcases List.mem_cons.mp h with h | h
        · exact .inl h
        · exact .inr (List.mem_cons_of_mem _ h)
      · rcases List.mem_cons.mp h with h | h
        · exact .inr (h ▸ List.mem_cons_self)
        · exact (ih h).imp_right (List.mem_cons_of_mem _)

/-- A write of one byte keeps the canonical form. -/
theorem Memory.put_wf {m : Memory} {a : Nat} (v : Byte) (ha : a < 2 ^ 64) (h : Memory.wf m) :
    Memory.wf (Memory.put m a v) := by
  refine ⟨?_, fun c hc => ?_⟩
  · have hp := h.1
    clear h
    induction m with
    | nil => simp [Memory.put]
    | cons d m ih =>
      obtain ⟨hd, hm⟩ := List.pairwise_cons.mp hp
      simp only [Memory.put]
      split
      · rename_i h1
        refine List.pairwise_cons.mpr ⟨fun e he => ?_, hp⟩
        rcases List.mem_cons.mp he with rfl | he
        · exact h1
        · exact lt_trans h1 (hd e he)
      · split
        · rename_i h1 h2
          exact List.pairwise_cons.mpr ⟨fun e he => by subst h2; exact hd e he, hm⟩
        · rename_i h1 h2
          refine List.pairwise_cons.mpr ⟨fun e he => ?_, ih hm⟩
          rcases Memory.mem_put he with rfl | he
          · show d.1 < a
            omega
          · exact hd e he
  · rcases Memory.mem_put hc with rfl | hc
    · exact ha
    · exact h.2 c hc

/-- `MemWrite` keeps the canonical form. -/
theorem Memory.write_wf {m : Memory} {a : Nat} (s : List Byte) (ha : a + s.length ≤ 2 ^ 64) (h : Memory.wf m) :
    Memory.wf (Memory.write m a s) := by
  induction s generalizing m a with
  | nil => exact h
  | cons v s ih =>
    simp only [List.length_cons] at ha
    exact ih (by omega) (Memory.put_wf v (by omega) h)

/-- The reset memory is in canonical form. -/
theorem reset_memory_wf : Memory.wf State.reset.hdr ∧ Memory.wf State.reset.msg := by decide

end Sys2Proof.Machine
end

