-- ==== Sys2Proof/Laws/State.lean ====
section
/-! SUPPORT. One lemma per field per named update of the state, each true by rfl: later proofs do not unfold an
update. -/

namespace Sys2Proof.Machine

/-! ## clearMessageFields -/

@[simp] theorem clearMessageFields_keySchedule (s : State) : (clearMessageFields s).keySchedule = s.keySchedule := rfl
@[simp] theorem clearMessageFields_dir (s : State) : (clearMessageFields s).dir = s.dir := rfl
@[simp] theorem clearMessageFields_counterBlock (s : State) : (clearMessageFields s).counterBlock = zeroBytes 16 := rfl
@[simp] theorem clearMessageFields_macAccumulator (s : State) : (clearMessageFields s).macAccumulator = zeroBytes 16 := rfl
@[simp] theorem clearMessageFields_headerLen (s : State) : (clearMessageFields s).headerLen = 0 := rfl
@[simp] theorem clearMessageFields_headerLimit (s : State) : (clearMessageFields s).headerLimit = 0 := rfl
@[simp] theorem clearMessageFields_msgLen (s : State) : (clearMessageFields s).msgLen = 0 := rfl
@[simp] theorem clearMessageFields_cnt (s : State) : (clearMessageFields s).cnt = 0 := rfl
@[simp] theorem clearMessageFields_textPosition (s : State) : (clearMessageFields s).textPosition = 0 := rfl
@[simp] theorem clearMessageFields_nonceLen (s : State) : (clearMessageFields s).nonceLen = 0 := rfl
@[simp] theorem clearMessageFields_tagLen (s : State) : (clearMessageFields s).tagLen = 0 := rfl
@[simp] theorem clearMessageFields_state (s : State) : (clearMessageFields s).state = s.state := rfl
@[simp] theorem clearMessageFields_lastError (s : State) : (clearMessageFields s).lastError = s.lastError := rfl
@[simp] theorem clearMessageFields_phase (s : State) : (clearMessageFields s).phase = s.phase := rfl
@[simp] theorem clearMessageFields_status (s : State) : (clearMessageFields s).status = s.status := rfl
@[simp] theorem clearMessageFields_msgLenReg (s : State) : (clearMessageFields s).msgLenReg = s.msgLenReg := rfl
@[simp] theorem clearMessageFields_hdrLenReg (s : State) : (clearMessageFields s).hdrLenReg = s.hdrLenReg := rfl
@[simp] theorem clearMessageFields_key (s : State) : (clearMessageFields s).key = s.key := rfl
@[simp] theorem clearMessageFields_nonce (s : State) : (clearMessageFields s).nonce = s.nonce := rfl
@[simp] theorem clearMessageFields_tagIn (s : State) : (clearMessageFields s).tagIn = s.tagIn := rfl
@[simp] theorem clearMessageFields_tagOut (s : State) : (clearMessageFields s).tagOut = s.tagOut := rfl
@[simp] theorem clearMessageFields_hdr (s : State) : (clearMessageFields s).hdr = s.hdr := rfl
@[simp] theorem clearMessageFields_msg (s : State) : (clearMessageFields s).msg = s.msg := rfl
@[simp] theorem clearMessageFields_config (s : State) : (clearMessageFields s).config = s.config := rfl
@[simp] theorem clearMessageFields_blk (s : State) : (clearMessageFields s).blk = s.blk := rfl
@[simp] theorem clearMessageFields_ks (s : State) : (clearMessageFields s).ks = s.ks := rfl
@[simp] theorem clearMessageFields_tagMatch (s : State) : (clearMessageFields s).tagMatch = s.tagMatch := rfl
@[simp] theorem clearMessageFields_sel (s : State) : (clearMessageFields s).sel = s.sel := rfl
@[simp] theorem clearMessageFields_host (s : State) : (clearMessageFields s).host = s.host := rfl
@[simp] theorem clearMessageFields_reads (s : State) : (clearMessageFields s).reads = s.reads := rfl

/-! ## clearTemps -/

@[simp] theorem clearTemps_keySchedule (s : State) : (clearTemps s).keySchedule = s.keySchedule := rfl
@[simp] theorem clearTemps_dir (s : State) : (clearTemps s).dir = s.dir := rfl
@[simp] theorem clearTemps_counterBlock (s : State) : (clearTemps s).counterBlock = s.counterBlock := rfl
@[simp] theorem clearTemps_macAccumulator (s : State) : (clearTemps s).macAccumulator = s.macAccumulator := rfl
@[simp] theorem clearTemps_headerLen (s : State) : (clearTemps s).headerLen = s.headerLen := rfl
@[simp] theorem clearTemps_headerLimit (s : State) : (clearTemps s).headerLimit = s.headerLimit := rfl
@[simp] theorem clearTemps_msgLen (s : State) : (clearTemps s).msgLen = s.msgLen := rfl
@[simp] theorem clearTemps_cnt (s : State) : (clearTemps s).cnt = s.cnt := rfl
@[simp] theorem clearTemps_textPosition (s : State) : (clearTemps s).textPosition = s.textPosition := rfl
@[simp] theorem clearTemps_nonceLen (s : State) : (clearTemps s).nonceLen = s.nonceLen := rfl
@[simp] theorem clearTemps_tagLen (s : State) : (clearTemps s).tagLen = s.tagLen := rfl
@[simp] theorem clearTemps_state (s : State) : (clearTemps s).state = s.state := rfl
@[simp] theorem clearTemps_lastError (s : State) : (clearTemps s).lastError = s.lastError := rfl
@[simp] theorem clearTemps_phase (s : State) : (clearTemps s).phase = s.phase := rfl
@[simp] theorem clearTemps_status (s : State) : (clearTemps s).status = s.status := rfl
@[simp] theorem clearTemps_msgLenReg (s : State) : (clearTemps s).msgLenReg = s.msgLenReg := rfl
@[simp] theorem clearTemps_hdrLenReg (s : State) : (clearTemps s).hdrLenReg = s.hdrLenReg := rfl
@[simp] theorem clearTemps_key (s : State) : (clearTemps s).key = s.key := rfl
@[simp] theorem clearTemps_nonce (s : State) : (clearTemps s).nonce = s.nonce := rfl
@[simp] theorem clearTemps_tagIn (s : State) : (clearTemps s).tagIn = s.tagIn := rfl
@[simp] theorem clearTemps_tagOut (s : State) : (clearTemps s).tagOut = s.tagOut := rfl
@[simp] theorem clearTemps_hdr (s : State) : (clearTemps s).hdr = s.hdr := rfl
@[simp] theorem clearTemps_msg (s : State) : (clearTemps s).msg = s.msg := rfl
@[simp] theorem clearTemps_config (s : State) : (clearTemps s).config = s.config := rfl
@[simp] theorem clearTemps_blk (s : State) : (clearTemps s).blk = [] := rfl
@[simp] theorem clearTemps_ks (s : State) : (clearTemps s).ks = zeroBytes 16 := rfl
@[simp] theorem clearTemps_tagMatch (s : State) : (clearTemps s).tagMatch = false := rfl
@[simp] theorem clearTemps_sel (s : State) : (clearTemps s).sel = s.sel := rfl
@[simp] theorem clearTemps_host (s : State) : (clearTemps s).host = s.host := rfl
@[simp] theorem clearTemps_reads (s : State) : (clearTemps s).reads = s.reads := rfl

/-! ## raiseStatus -/

@[simp] theorem raiseStatus_keySchedule (code : ErrorCode) (s : State) : (raiseStatus code s).keySchedule = s.keySchedule := rfl
@[simp] theorem raiseStatus_dir (code : ErrorCode) (s : State) : (raiseStatus code s).dir = s.dir := rfl
@[simp] theorem raiseStatus_counterBlock (code : ErrorCode) (s : State) : (raiseStatus code s).counterBlock = s.counterBlock := rfl
@[simp] theorem raiseStatus_macAccumulator (code : ErrorCode) (s : State) : (raiseStatus code s).macAccumulator = s.macAccumulator := rfl
@[simp] theorem raiseStatus_headerLen (code : ErrorCode) (s : State) : (raiseStatus code s).headerLen = s.headerLen := rfl
@[simp] theorem raiseStatus_headerLimit (code : ErrorCode) (s : State) : (raiseStatus code s).headerLimit = s.headerLimit := rfl
@[simp] theorem raiseStatus_msgLen (code : ErrorCode) (s : State) : (raiseStatus code s).msgLen = s.msgLen := rfl
@[simp] theorem raiseStatus_cnt (code : ErrorCode) (s : State) : (raiseStatus code s).cnt = s.cnt := rfl
@[simp] theorem raiseStatus_textPosition (code : ErrorCode) (s : State) : (raiseStatus code s).textPosition = s.textPosition := rfl
@[simp] theorem raiseStatus_nonceLen (code : ErrorCode) (s : State) : (raiseStatus code s).nonceLen = s.nonceLen := rfl
@[simp] theorem raiseStatus_tagLen (code : ErrorCode) (s : State) : (raiseStatus code s).tagLen = s.tagLen := rfl
@[simp] theorem raiseStatus_state (code : ErrorCode) (s : State) : (raiseStatus code s).state = if s.state = .keyed then .error else s.state := rfl
@[simp] theorem raiseStatus_lastError (code : ErrorCode) (s : State) : (raiseStatus code s).lastError = some code := rfl
@[simp] theorem raiseStatus_phase (code : ErrorCode) (s : State) : (raiseStatus code s).phase = s.phase := rfl
@[simp] theorem raiseStatus_status (code : ErrorCode) (s : State) : (raiseStatus code s).status = .error code := rfl
@[simp] theorem raiseStatus_msgLenReg (code : ErrorCode) (s : State) : (raiseStatus code s).msgLenReg = s.msgLenReg := rfl
@[simp] theorem raiseStatus_hdrLenReg (code : ErrorCode) (s : State) : (raiseStatus code s).hdrLenReg = s.hdrLenReg := rfl
@[simp] theorem raiseStatus_key (code : ErrorCode) (s : State) : (raiseStatus code s).key = s.key := rfl
@[simp] theorem raiseStatus_nonce (code : ErrorCode) (s : State) : (raiseStatus code s).nonce = s.nonce := rfl
@[simp] theorem raiseStatus_tagIn (code : ErrorCode) (s : State) : (raiseStatus code s).tagIn = s.tagIn := rfl
@[simp] theorem raiseStatus_tagOut (code : ErrorCode) (s : State) : (raiseStatus code s).tagOut = s.tagOut := rfl
@[simp] theorem raiseStatus_hdr (code : ErrorCode) (s : State) : (raiseStatus code s).hdr = s.hdr := rfl
@[simp] theorem raiseStatus_msg (code : ErrorCode) (s : State) : (raiseStatus code s).msg = s.msg := rfl
@[simp] theorem raiseStatus_config (code : ErrorCode) (s : State) : (raiseStatus code s).config = s.config := rfl
@[simp] theorem raiseStatus_blk (code : ErrorCode) (s : State) : (raiseStatus code s).blk = s.blk := rfl
@[simp] theorem raiseStatus_ks (code : ErrorCode) (s : State) : (raiseStatus code s).ks = s.ks := rfl
@[simp] theorem raiseStatus_tagMatch (code : ErrorCode) (s : State) : (raiseStatus code s).tagMatch = s.tagMatch := rfl
@[simp] theorem raiseStatus_sel (code : ErrorCode) (s : State) : (raiseStatus code s).sel = s.sel := rfl
@[simp] theorem raiseStatus_host (code : ErrorCode) (s : State) : (raiseStatus code s).host = s.host := rfl
@[simp] theorem raiseStatus_reads (code : ErrorCode) (s : State) : (raiseStatus code s).reads = s.reads := rfl

/-! ## illegalCommand -/

@[simp] theorem illegalCommand_keySchedule (s : State) : (illegalCommand s).keySchedule = s.keySchedule := rfl
@[simp] theorem illegalCommand_dir (s : State) : (illegalCommand s).dir = s.dir := rfl
@[simp] theorem illegalCommand_counterBlock (s : State) : (illegalCommand s).counterBlock = s.counterBlock := rfl
@[simp] theorem illegalCommand_macAccumulator (s : State) : (illegalCommand s).macAccumulator = s.macAccumulator := rfl
@[simp] theorem illegalCommand_headerLen (s : State) : (illegalCommand s).headerLen = s.headerLen := rfl
@[simp] theorem illegalCommand_headerLimit (s : State) : (illegalCommand s).headerLimit = s.headerLimit := rfl
@[simp] theorem illegalCommand_msgLen (s : State) : (illegalCommand s).msgLen = s.msgLen := rfl
@[simp] theorem illegalCommand_cnt (s : State) : (illegalCommand s).cnt = s.cnt := rfl
@[simp] theorem illegalCommand_textPosition (s : State) : (illegalCommand s).textPosition = s.textPosition := rfl
@[simp] theorem illegalCommand_nonceLen (s : State) : (illegalCommand s).nonceLen = s.nonceLen := rfl
@[simp] theorem illegalCommand_tagLen (s : State) : (illegalCommand s).tagLen = s.tagLen := rfl
@[simp] theorem illegalCommand_state (s : State) : (illegalCommand s).state = s.state := rfl
@[simp] theorem illegalCommand_lastError (s : State) : (illegalCommand s).lastError = some .badAuthCall := rfl
@[simp] theorem illegalCommand_phase (s : State) : (illegalCommand s).phase = s.phase := rfl
@[simp] theorem illegalCommand_status (s : State) : (illegalCommand s).status = .error .badAuthCall := rfl
@[simp] theorem illegalCommand_msgLenReg (s : State) : (illegalCommand s).msgLenReg = s.msgLenReg := rfl
@[simp] theorem illegalCommand_hdrLenReg (s : State) : (illegalCommand s).hdrLenReg = s.hdrLenReg := rfl
@[simp] theorem illegalCommand_key (s : State) : (illegalCommand s).key = s.key := rfl
@[simp] theorem illegalCommand_nonce (s : State) : (illegalCommand s).nonce = s.nonce := rfl
@[simp] theorem illegalCommand_tagIn (s : State) : (illegalCommand s).tagIn = s.tagIn := rfl
@[simp] theorem illegalCommand_tagOut (s : State) : (illegalCommand s).tagOut = s.tagOut := rfl
@[simp] theorem illegalCommand_hdr (s : State) : (illegalCommand s).hdr = s.hdr := rfl
@[simp] theorem illegalCommand_msg (s : State) : (illegalCommand s).msg = s.msg := rfl
@[simp] theorem illegalCommand_config (s : State) : (illegalCommand s).config = s.config := rfl
@[simp] theorem illegalCommand_blk (s : State) : (illegalCommand s).blk = s.blk := rfl
@[simp] theorem illegalCommand_ks (s : State) : (illegalCommand s).ks = s.ks := rfl
@[simp] theorem illegalCommand_tagMatch (s : State) : (illegalCommand s).tagMatch = s.tagMatch := rfl
@[simp] theorem illegalCommand_sel (s : State) : (illegalCommand s).sel = s.sel := rfl
@[simp] theorem illegalCommand_host (s : State) : (illegalCommand s).host = s.host := rfl
@[simp] theorem illegalCommand_reads (s : State) : (illegalCommand s).reads = s.reads := rfl

/-! ## State.memWriteMsg -/

@[simp] theorem State.memWriteMsg_keySchedule (s : State) (a : Nat) (bytes : List Byte) : (State.memWriteMsg s a bytes).keySchedule = s.keySchedule := rfl
@[simp] theorem State.memWriteMsg_dir (s : State) (a : Nat) (bytes : List Byte) : (State.memWriteMsg s a bytes).dir = s.dir := rfl
@[simp] theorem State.memWriteMsg_counterBlock (s : State) (a : Nat) (bytes : List Byte) : (State.memWriteMsg s a bytes).counterBlock = s.counterBlock := rfl
@[simp] theorem State.memWriteMsg_macAccumulator (s : State) (a : Nat) (bytes : List Byte) : (State.memWriteMsg s a bytes).macAccumulator = s.macAccumulator := rfl
@[simp] theorem State.memWriteMsg_headerLen (s : State) (a : Nat) (bytes : List Byte) : (State.memWriteMsg s a bytes).headerLen = s.headerLen := rfl
@[simp] theorem State.memWriteMsg_headerLimit (s : State) (a : Nat) (bytes : List Byte) : (State.memWriteMsg s a bytes).headerLimit = s.headerLimit := rfl
@[simp] theorem State.memWriteMsg_msgLen (s : State) (a : Nat) (bytes : List Byte) : (State.memWriteMsg s a bytes).msgLen = s.msgLen := rfl
@[simp] theorem State.memWriteMsg_cnt (s : State) (a : Nat) (bytes : List Byte) : (State.memWriteMsg s a bytes).cnt = s.cnt := rfl
@[simp] theorem State.memWriteMsg_textPosition (s : State) (a : Nat) (bytes : List Byte) : (State.memWriteMsg s a bytes).textPosition = s.textPosition := rfl
@[simp] theorem State.memWriteMsg_nonceLen (s : State) (a : Nat) (bytes : List Byte) : (State.memWriteMsg s a bytes).nonceLen = s.nonceLen := rfl
@[simp] theorem State.memWriteMsg_tagLen (s : State) (a : Nat) (bytes : List Byte) : (State.memWriteMsg s a bytes).tagLen = s.tagLen := rfl
@[simp] theorem State.memWriteMsg_state (s : State) (a : Nat) (bytes : List Byte) : (State.memWriteMsg s a bytes).state = s.state := rfl
@[simp] theorem State.memWriteMsg_lastError (s : State) (a : Nat) (bytes : List Byte) : (State.memWriteMsg s a bytes).lastError = s.lastError := rfl
@[simp] theorem State.memWriteMsg_phase (s : State) (a : Nat) (bytes : List Byte) : (State.memWriteMsg s a bytes).phase = s.phase := rfl
@[simp] theorem State.memWriteMsg_status (s : State) (a : Nat) (bytes : List Byte) : (State.memWriteMsg s a bytes).status = s.status := rfl
@[simp] theorem State.memWriteMsg_msgLenReg (s : State) (a : Nat) (bytes : List Byte) : (State.memWriteMsg s a bytes).msgLenReg = s.msgLenReg := rfl
@[simp] theorem State.memWriteMsg_hdrLenReg (s : State) (a : Nat) (bytes : List Byte) : (State.memWriteMsg s a bytes).hdrLenReg = s.hdrLenReg := rfl
@[simp] theorem State.memWriteMsg_key (s : State) (a : Nat) (bytes : List Byte) : (State.memWriteMsg s a bytes).key = s.key := rfl
@[simp] theorem State.memWriteMsg_nonce (s : State) (a : Nat) (bytes : List Byte) : (State.memWriteMsg s a bytes).nonce = s.nonce := rfl
@[simp] theorem State.memWriteMsg_tagIn (s : State) (a : Nat) (bytes : List Byte) : (State.memWriteMsg s a bytes).tagIn = s.tagIn := rfl
@[simp] theorem State.memWriteMsg_tagOut (s : State) (a : Nat) (bytes : List Byte) : (State.memWriteMsg s a bytes).tagOut = s.tagOut := rfl
@[simp] theorem State.memWriteMsg_hdr (s : State) (a : Nat) (bytes : List Byte) : (State.memWriteMsg s a bytes).hdr = s.hdr := rfl
@[simp] theorem State.memWriteMsg_msg (s : State) (a : Nat) (bytes : List Byte) : (State.memWriteMsg s a bytes).msg = Memory.write s.msg a bytes := rfl
@[simp] theorem State.memWriteMsg_config (s : State) (a : Nat) (bytes : List Byte) : (State.memWriteMsg s a bytes).config = s.config := rfl
@[simp] theorem State.memWriteMsg_blk (s : State) (a : Nat) (bytes : List Byte) : (State.memWriteMsg s a bytes).blk = s.blk := rfl
@[simp] theorem State.memWriteMsg_ks (s : State) (a : Nat) (bytes : List Byte) : (State.memWriteMsg s a bytes).ks = s.ks := rfl
@[simp] theorem State.memWriteMsg_tagMatch (s : State) (a : Nat) (bytes : List Byte) : (State.memWriteMsg s a bytes).tagMatch = s.tagMatch := rfl
@[simp] theorem State.memWriteMsg_sel (s : State) (a : Nat) (bytes : List Byte) : (State.memWriteMsg s a bytes).sel = s.sel := rfl
@[simp] theorem State.memWriteMsg_host (s : State) (a : Nat) (bytes : List Byte) : (State.memWriteMsg s a bytes).host = s.host := rfl
@[simp] theorem State.memWriteMsg_reads (s : State) (a : Nat) (bytes : List Byte) : (State.memWriteMsg s a bytes).reads = s.reads := rfl

/-! ## latch -/

@[simp] theorem latch_keySchedule (nlen tlen : Nat) (s : State) : (latch nlen tlen s).keySchedule = s.keySchedule := rfl
@[simp] theorem latch_dir (nlen tlen : Nat) (s : State) : (latch nlen tlen s).dir = s.dir := rfl
@[simp] theorem latch_counterBlock (nlen tlen : Nat) (s : State) : (latch nlen tlen s).counterBlock = s.counterBlock := rfl
@[simp] theorem latch_macAccumulator (nlen tlen : Nat) (s : State) : (latch nlen tlen s).macAccumulator = s.macAccumulator := rfl
@[simp] theorem latch_headerLen (nlen tlen : Nat) (s : State) : (latch nlen tlen s).headerLen = s.hdrLenReg := rfl
@[simp] theorem latch_headerLimit (nlen tlen : Nat) (s : State) : (latch nlen tlen s).headerLimit = BitVec.ofNat 64 (aadBlocks s.hdrLenReg.toNat) := rfl
@[simp] theorem latch_msgLen (nlen tlen : Nat) (s : State) : (latch nlen tlen s).msgLen = s.msgLenReg := rfl
@[simp] theorem latch_cnt (nlen tlen : Nat) (s : State) : (latch nlen tlen s).cnt = 0 := rfl
@[simp] theorem latch_textPosition (nlen tlen : Nat) (s : State) : (latch nlen tlen s).textPosition = 0 := rfl
@[simp] theorem latch_nonceLen (nlen tlen : Nat) (s : State) : (latch nlen tlen s).nonceLen = BitVec.ofNat 8 nlen := rfl
@[simp] theorem latch_tagLen (nlen tlen : Nat) (s : State) : (latch nlen tlen s).tagLen = BitVec.ofNat 8 tlen := rfl
@[simp] theorem latch_state (nlen tlen : Nat) (s : State) : (latch nlen tlen s).state = .processing := rfl
@[simp] theorem latch_lastError (nlen tlen : Nat) (s : State) : (latch nlen tlen s).lastError = s.lastError := rfl
@[simp] theorem latch_phase (nlen tlen : Nat) (s : State) : (latch nlen tlen s).phase = .b0 := rfl
@[simp] theorem latch_status (nlen tlen : Nat) (s : State) : (latch nlen tlen s).status = s.status := rfl
@[simp] theorem latch_msgLenReg (nlen tlen : Nat) (s : State) : (latch nlen tlen s).msgLenReg = s.msgLenReg := rfl
@[simp] theorem latch_hdrLenReg (nlen tlen : Nat) (s : State) : (latch nlen tlen s).hdrLenReg = s.hdrLenReg := rfl
@[simp] theorem latch_key (nlen tlen : Nat) (s : State) : (latch nlen tlen s).key = s.key := rfl
@[simp] theorem latch_nonce (nlen tlen : Nat) (s : State) : (latch nlen tlen s).nonce = s.nonce := rfl
@[simp] theorem latch_tagIn (nlen tlen : Nat) (s : State) : (latch nlen tlen s).tagIn = s.tagIn := rfl
@[simp] theorem latch_tagOut (nlen tlen : Nat) (s : State) : (latch nlen tlen s).tagOut = s.tagOut := rfl
@[simp] theorem latch_hdr (nlen tlen : Nat) (s : State) : (latch nlen tlen s).hdr = s.hdr := rfl
@[simp] theorem latch_msg (nlen tlen : Nat) (s : State) : (latch nlen tlen s).msg = s.msg := rfl
@[simp] theorem latch_config (nlen tlen : Nat) (s : State) : (latch nlen tlen s).config = s.config := rfl
@[simp] theorem latch_blk (nlen tlen : Nat) (s : State) : (latch nlen tlen s).blk = s.blk := rfl
@[simp] theorem latch_ks (nlen tlen : Nat) (s : State) : (latch nlen tlen s).ks = s.ks := rfl
@[simp] theorem latch_tagMatch (nlen tlen : Nat) (s : State) : (latch nlen tlen s).tagMatch = s.tagMatch := rfl
@[simp] theorem latch_sel (nlen tlen : Nat) (s : State) : (latch nlen tlen s).sel = s.sel := rfl
@[simp] theorem latch_host (nlen tlen : Nat) (s : State) : (latch nlen tlen s).host = s.host := rfl
@[simp] theorem latch_reads (nlen tlen : Nat) (s : State) : (latch nlen tlen s).reads = s.reads := rfl

/-! ## giveHost -/

@[simp] theorem giveHost_keySchedule (s : State) (v : BitVec 64) : (giveHost s v).keySchedule = s.keySchedule := rfl
@[simp] theorem giveHost_dir (s : State) (v : BitVec 64) : (giveHost s v).dir = s.dir := rfl
@[simp] theorem giveHost_counterBlock (s : State) (v : BitVec 64) : (giveHost s v).counterBlock = s.counterBlock := rfl
@[simp] theorem giveHost_macAccumulator (s : State) (v : BitVec 64) : (giveHost s v).macAccumulator = s.macAccumulator := rfl
@[simp] theorem giveHost_headerLen (s : State) (v : BitVec 64) : (giveHost s v).headerLen = s.headerLen := rfl
@[simp] theorem giveHost_headerLimit (s : State) (v : BitVec 64) : (giveHost s v).headerLimit = s.headerLimit := rfl
@[simp] theorem giveHost_msgLen (s : State) (v : BitVec 64) : (giveHost s v).msgLen = s.msgLen := rfl
@[simp] theorem giveHost_cnt (s : State) (v : BitVec 64) : (giveHost s v).cnt = s.cnt := rfl
@[simp] theorem giveHost_textPosition (s : State) (v : BitVec 64) : (giveHost s v).textPosition = s.textPosition := rfl
@[simp] theorem giveHost_nonceLen (s : State) (v : BitVec 64) : (giveHost s v).nonceLen = s.nonceLen := rfl
@[simp] theorem giveHost_tagLen (s : State) (v : BitVec 64) : (giveHost s v).tagLen = s.tagLen := rfl
@[simp] theorem giveHost_state (s : State) (v : BitVec 64) : (giveHost s v).state = s.state := rfl
@[simp] theorem giveHost_lastError (s : State) (v : BitVec 64) : (giveHost s v).lastError = s.lastError := rfl
@[simp] theorem giveHost_phase (s : State) (v : BitVec 64) : (giveHost s v).phase = s.phase := rfl
@[simp] theorem giveHost_status (s : State) (v : BitVec 64) : (giveHost s v).status = s.status := rfl
@[simp] theorem giveHost_msgLenReg (s : State) (v : BitVec 64) : (giveHost s v).msgLenReg = s.msgLenReg := rfl
@[simp] theorem giveHost_hdrLenReg (s : State) (v : BitVec 64) : (giveHost s v).hdrLenReg = s.hdrLenReg := rfl
@[simp] theorem giveHost_key (s : State) (v : BitVec 64) : (giveHost s v).key = s.key := rfl
@[simp] theorem giveHost_nonce (s : State) (v : BitVec 64) : (giveHost s v).nonce = s.nonce := rfl
@[simp] theorem giveHost_tagIn (s : State) (v : BitVec 64) : (giveHost s v).tagIn = s.tagIn := rfl
@[simp] theorem giveHost_tagOut (s : State) (v : BitVec 64) : (giveHost s v).tagOut = s.tagOut := rfl
@[simp] theorem giveHost_hdr (s : State) (v : BitVec 64) : (giveHost s v).hdr = s.hdr := rfl
@[simp] theorem giveHost_msg (s : State) (v : BitVec 64) : (giveHost s v).msg = s.msg := rfl
@[simp] theorem giveHost_config (s : State) (v : BitVec 64) : (giveHost s v).config = s.config := rfl
@[simp] theorem giveHost_blk (s : State) (v : BitVec 64) : (giveHost s v).blk = s.blk := rfl
@[simp] theorem giveHost_ks (s : State) (v : BitVec 64) : (giveHost s v).ks = s.ks := rfl
@[simp] theorem giveHost_tagMatch (s : State) (v : BitVec 64) : (giveHost s v).tagMatch = s.tagMatch := rfl
@[simp] theorem giveHost_sel (s : State) (v : BitVec 64) : (giveHost s v).sel = s.sel := rfl
@[simp] theorem giveHost_host (s : State) (v : BitVec 64) : (giveHost s v).host = s.host := rfl
@[simp] theorem giveHost_reads (s : State) (v : BitVec 64) : (giveHost s v).reads = s.reads ++ [v] := rfl

end Sys2Proof.Machine
end

