-- ==== Sys2Proof/Laws/Machine.lean ====
section
/-! SUPPORT. What each shared operation and each micro-operation can do: if it answers a next state, then which. Later
proofs cite these instead of unfolding. -/

namespace Sys2Proof.Machine

/-! ## Outcomes -/

@[simp] theorem andThen_next {α : Type} (s : State) (f : State → Host.Outcome α Fault Refusal) :
    andThen (.next s) f = f s := rfl
@[simp] theorem andThen_fault {α : Type} (r : Fault) (f : State → Host.Outcome α Fault Refusal) :
    andThen (.fault r) f = .fault r := rfl
@[simp] theorem andThen_refused {α : Type} (r : Refusal) (f : State → Host.Outcome α Fault Refusal) :
    andThen (.refused r) f = .refused r := rfl

theorem andThen_eq_next {α : Type} {o : Host.Outcome State Fault Refusal} {f : State → Host.Outcome α Fault Refusal}
    {t : α} : andThen o f = .next t ↔ ∃ s, o = .next s ∧ f s = .next t := by
  cases o <;> simp

theorem withE_eq_next {c : Cipher} {s : State} {b : Block} {f : Block → State} {t : State} :
    withE c s b f = .next t ↔ ∃ k, s.keySchedule = some k ∧ t = f (c.encryptBlock k b) := by
  unfold withE
  cases s.keySchedule <;> simp [eq_comm]

/-- An outcome that is `u` exactly under `p`. -/
theorem next_iff {o : Host.Outcome State Fault Refusal} {u t : State} {p : Prop}
    (hp : p → o = .next u) (hn : ¬ p → ∀ v, o ≠ .next v) : o = .next t ↔ p ∧ t = u := by
  constructor
  · intro e
    by_cases h : p
    · rw [hp h] at e; injection e with e; exact ⟨h, e.symm⟩
    · exact absurd e (hn h t)
  · rintro ⟨h, rfl⟩; exact hp h

/-! ## The domain of `L` -/

theorem latchedL_of_legal {s : State} (h : nonceLenLegal s.nonceLen.toNat) :
    latchedL s = some (15 - s.nonceLen.toNat) := if_pos h

theorem latchedL_of_not_legal {s : State} (h : ¬ nonceLenLegal s.nonceLen.toNat) : latchedL s = none := if_neg h

theorem nonceBytes_length {s : State} (h : s.nonceLen.toNat ≤ 13) : (nonceBytes s).length = s.nonceLen.toNat := by
  simp [nonceBytes, h]

/-! ## Micro-operations: what a next state is -/

theorem execMacInit_next {s t : State} : execMacInit s = .next t ↔ t = { s with macAccumulator := zeroBytes 16 } := by
  rw [execMacInit, Host.Outcome.next.injEq, eq_comm]

theorem execFmtB0_next {s t : State} : execFmtB0 s = .next t ↔
    (nonceLenLegal s.nonceLen.toNat ∧ tagLenLegal s.tagLen.toNat ∧
      s.msgLen.toNat < 2 ^ (8 * (15 - s.nonceLen.toNat))) ∧
    t = { s with blk := b0Bytes s.headerLen.toNat s.tagLen.toNat (nonceBytes s) s.msgLen.toNat } := by
  refine next_iff (fun ⟨hn, ht, hm⟩ => ?_) (fun h v => ?_) <;> unfold execFmtB0
  · rw [latchedL_of_legal hn]; simp only
    rw [if_neg (not_not.mpr ht), if_neg (Nat.not_le.mpr hm)]
  · by_cases hn : nonceLenLegal s.nonceLen.toNat
    · rw [latchedL_of_legal hn]; simp only
      by_cases ht : tagLenLegal s.tagLen.toNat
      · rw [if_neg (not_not.mpr ht), if_pos (Nat.le_of_not_lt fun hm => h ⟨hn, ht, hm⟩)]; nofun
      · rw [if_pos ht]; nofun
    · rw [latchedL_of_not_legal hn]; nofun

theorem execFmtAad_next {s t : State} : execFmtAad s = .next t ↔
    (s.headerLen.toNat ≠ 0 ∧ s.cnt.toNat < aadTotal s.headerLen.toNat ∧
      ¬ (s.config.longMessages = false ∧ 2 ^ 32 ≤ s.headerLen.toNat)) ∧
    t = { s with
      blk := aadBytesFrom s.headerLen.toNat s.hdrByte s.cnt.toNat
      cnt := BitVec.ofNat 65 (s.cnt.toNat + min 16 (aadTotal s.headerLen.toNat - s.cnt.toNat)) } := by
  refine next_iff (fun ⟨h0, hc, hl⟩ => ?_) (fun h v => ?_) <;> unfold execFmtAad <;> simp only
  · rw [if_neg (by rw [not_or]; exact ⟨h0, Nat.not_le.mpr hc⟩), if_neg hl]
  · by_cases hc : s.headerLen.toNat = 0 ∨ aadTotal s.headerLen.toNat ≤ s.cnt.toNat
    · rw [if_pos hc]; nofun
    · rw [not_or] at hc
      rw [if_neg (by rw [not_or]; exact hc),
        if_pos (by_contra fun hl => h ⟨hc.1, Nat.lt_of_not_le hc.2, hl⟩)]
      nofun

theorem macFold_next {c : Cipher} {s t : State} : macFold c s = .next t ↔
    (s.blk.length ≠ 0 ∧ s.blk.length ≤ 16) ∧ ∃ k, s.keySchedule = some k ∧
      t = { s with macAccumulator := c.encryptBlock k (xorBlock s.macAccumulator (pad16 s.blk)) } := by
  unfold macFold
  by_cases h : s.blk.length = 0 ∨ 16 < s.blk.length
  · rw [if_pos h]
    exact ⟨nofun, fun ⟨⟨h1, h2⟩, _⟩ => absurd h (by omega)⟩
  · rw [if_neg h, withE_eq_next]
    exact ⟨fun e => ⟨by omega, e⟩, fun e => e.2⟩

theorem execCtrLoad0_next {s t : State} : execCtrLoad0 s = .next t ↔
    nonceLenLegal s.nonceLen.toNat ∧ t = { s with counterBlock := ctrBlock (nonceBytes s) 0 } := by
  refine next_iff (fun h => ?_) (fun h v => ?_) <;> unfold execCtrLoad0
  · rw [latchedL_of_legal h, ctrBlock, nonceBytes_length h.2, be_zero_left]
  · rw [latchedL_of_not_legal h]; nofun

theorem execCtrInc_next {s t : State} : execCtrInc s = .next t ↔
    nonceLenLegal s.nonceLen.toNat ∧ ∃ cb, increment s.counterBlock (15 - s.nonceLen.toNat) = some cb ∧
      t = { s with counterBlock := cb } := by
  unfold execCtrInc
  by_cases h : nonceLenLegal s.nonceLen.toNat
  · rw [latchedL_of_legal h]; simp only
    cases increment s.counterBlock (15 - s.nonceLen.toNat) with
    | none => exact ⟨nofun, fun ⟨_, _, e, _⟩ => absurd e nofun⟩
    | some cb =>
      constructor
      · intro e; injection e with e; exact ⟨h, cb, rfl, e.symm⟩
      · rintro ⟨_, cb', e, rfl⟩; injection e with e; subst e; rfl
  · rw [latchedL_of_not_legal h]
    exact ⟨nofun, fun e => absurd e.1 h⟩

theorem ksGen_next {c : Cipher} {s t : State} : ksGen c s = .next t ↔
    ∃ k, s.keySchedule = some k ∧ t = { s with ks := c.encryptBlock k s.counterBlock } := withE_eq_next

theorem execPayLoad_next {s t : State} : execPayLoad s = .next t ↔
    s.textPosition.toNat < s.msgLen.toNat ∧
    t = { s with blk := s.memReadMsg s.textPosition.toNat (payloadCount s) } := by
  refine next_iff (fun h => ?_) (fun h v => ?_) <;> unfold execPayLoad
  · rw [if_neg (Nat.not_le.mpr h)]
  · rw [if_pos (Nat.le_of_not_lt h)]; nofun

theorem execPayXor_next {s t : State} : execPayXor s = .next t ↔
    s.blk.length ≤ 16 ∧ t = { s with blk := xorBytes s.blk (s.ks.toList.take s.blk.length) } := by
  refine next_iff (fun h => ?_) (fun h v => ?_) <;> unfold execPayXor
  · rw [if_neg (Nat.not_lt.mpr h)]
  · rw [if_pos (Nat.lt_of_not_le h)]; nofun

theorem execPayStore_next {s t : State} : execPayStore s = .next t ↔
    (s.blk.length ≤ 16 ∧ s.textPosition.toNat + s.blk.length ≤ s.msgLen.toNat) ∧
    t = { s with
      msg := Memory.write s.msg s.textPosition.toNat s.blk
      textPosition := BitVec.ofNat 64 (s.textPosition.toNat + s.blk.length) } := by
  refine next_iff (fun h => ?_) (fun h v => ?_) <;> unfold execPayStore
  · rw [if_neg (by omega)]; rfl
  · rw [if_pos (by omega)]; nofun

theorem execTagMask_next {s t : State} : execTagMask s = .next t ↔
    s.tagLen.toNat ≤ 16 ∧ t = { s with tagOut := maskedTag s.macAccumulator s.ks s.tagLen.toNat } := by
  refine next_iff (fun h => ?_) (fun h v => ?_) <;> unfold execTagMask
  · rw [if_neg (Nat.not_lt.mpr h)]
  · rw [if_pos (Nat.lt_of_not_le h)]; nofun

theorem execTagCmp_next {s t : State} : execTagCmp s = .next t ↔
    s.tagLen.toNat ≤ 16 ∧ t = { s with tagMatch := decide (tagOutBytes s = tagInBytes s) } := by
  refine next_iff (fun h => ?_) (fun h v => ?_) <;> unfold execTagCmp
  · rw [if_neg (Nat.not_lt.mpr h)]
  · rw [if_pos (Nat.lt_of_not_le h)]; nofun

end Sys2Proof.Machine
end

