-- ==== Sys2Proof/Laws/Frame.lean ====
section
/-! SUPPORT. What every micro-operation leaves, and that none looks at the codes still to issue. -/

namespace Sys2Proof.Machine

/-- What no micro-operation changes (`45_controller.md` R204): everything but the temporaries, the counters, the two
working blocks, `MSG` and `TAG_OUT`. -/
structure SameContext (s t : State) : Prop where
  keySchedule : t.keySchedule = s.keySchedule
  dir : t.dir = s.dir
  headerLen : t.headerLen = s.headerLen
  headerLimit : t.headerLimit = s.headerLimit
  msgLen : t.msgLen = s.msgLen
  nonceLen : t.nonceLen = s.nonceLen
  tagLen : t.tagLen = s.tagLen
  state : t.state = s.state
  lastError : t.lastError = s.lastError
  phase : t.phase = s.phase
  status : t.status = s.status
  msgLenReg : t.msgLenReg = s.msgLenReg
  hdrLenReg : t.hdrLenReg = s.hdrLenReg
  key : t.key = s.key
  nonce : t.nonce = s.nonce
  tagIn : t.tagIn = s.tagIn
  hdr : t.hdr = s.hdr
  config : t.config = s.config
  sel : t.sel = s.sel
  host : t.host = s.host
  reads : t.reads = s.reads

theorem SameContext.refl (s : State) : SameContext s s :=
  ⟨rfl, rfl, rfl, rfl, rfl, rfl, rfl, rfl, rfl, rfl, rfl, rfl, rfl, rfl, rfl, rfl, rfl, rfl, rfl, rfl, rfl⟩

theorem SameContext.trans {s t u : State} (h : SameContext s t) (g : SameContext t u) : SameContext s u where
  keySchedule := g.1.trans h.1
  dir := g.2.trans h.2
  headerLen := g.3.trans h.3
  headerLimit := g.4.trans h.4
  msgLen := g.5.trans h.5
  nonceLen := g.6.trans h.6
  tagLen := g.7.trans h.7
  state := g.8.trans h.8
  lastError := g.9.trans h.9
  phase := g.10.trans h.10
  status := g.11.trans h.11
  msgLenReg := g.12.trans h.12
  hdrLenReg := g.13.trans h.13
  key := g.14.trans h.14
  nonce := g.15.trans h.15
  tagIn := g.16.trans h.16
  hdr := g.17.trans h.17
  config := g.18.trans h.18
  sel := g.19.trans h.19
  host := g.20.trans h.20
  reads := g.21.trans h.21

/-- The counters stay inside their streams, `MSG` keeps its canonical form and its bytes from `msg_len` on. -/
structure KeepsInside (s t : State) : Prop where
  cnt : s.cnt.toNat ≤ aadTotal s.headerLen.toNat → t.cnt.toNat ≤ aadTotal t.headerLen.toNat
  text : s.textPosition.toNat ≤ s.msgLen.toNat → t.textPosition.toNat ≤ t.msgLen.toNat
  wf : Memory.wf s.msg → Memory.wf t.msg
  beyond : ∀ a, s.msgLen.toNat ≤ a → t.msgByte a = s.msgByte a

theorem KeepsInside.refl (s : State) : KeepsInside s s := ⟨id, id, id, fun _ _ => rfl⟩

theorem KeepsInside.trans {s t u : State} (hc : SameContext s t) (h : KeepsInside s t) (g : KeepsInside t u) :
    KeepsInside s u where
  cnt := fun x => g.cnt (h.cnt x)
  text := fun x => g.text (h.text x)
  wf := fun x => g.wf (h.wf x)
  beyond := fun a ha => (g.beyond a (by rw [hc.msgLen]; exact ha)).trans (h.beyond a ha)

theorem aadTotal_lt (x : BitVec 64) : aadTotal x.toNat < 2 ^ 65 := by
  have := x.isLt
  unfold aadTotal plen
  split
  · omega
  · split
    · omega
    · split <;> omega

/-- Everything a micro-operation that goes on can do, short of the value it computes. -/
theorem microMeaning_frame {c : Cipher} {m : MicroOp} {s t : State} (h : microMeaning c m s = .next t) :
    SameContext s t ∧ KeepsInside s t := by
  cases m <;> simp only [microMeaning] at h
  case macInit =>
    rw [execMacInit_next] at h; subst h
    exact ⟨by constructor <;> rfl, ⟨id, id, id, fun _ _ => rfl⟩⟩
  case fmtB0 =>
    rw [execFmtB0_next] at h; obtain ⟨-, rfl⟩ := h
    exact ⟨by constructor <;> rfl, ⟨id, id, id, fun _ _ => rfl⟩⟩
  case fmtAad =>
    rw [execFmtAad_next] at h; obtain ⟨⟨h0, hc, -⟩, rfl⟩ := h
    refine ⟨by constructor <;> rfl, ⟨fun _ => ?_, id, id, fun _ _ => rfl⟩⟩
    have := aadTotal_lt s.headerLen
    simp only [BitVec.toNat_ofNat]
    omega
  case macFold =>
    rw [macFold_next] at h; obtain ⟨-, k, -, rfl⟩ := h
    exact ⟨by constructor <;> rfl, ⟨id, id, id, fun _ _ => rfl⟩⟩
  case ctrLoad0 =>
    rw [execCtrLoad0_next] at h; obtain ⟨-, rfl⟩ := h
    exact ⟨by constructor <;> rfl, ⟨id, id, id, fun _ _ => rfl⟩⟩
  case ctrInc =>
    rw [execCtrInc_next] at h; obtain ⟨-, cb, -, rfl⟩ := h
    exact ⟨by constructor <;> rfl, ⟨id, id, id, fun _ _ => rfl⟩⟩
  case ksGen =>
    rw [ksGen_next] at h; obtain ⟨k, -, rfl⟩ := h
    exact ⟨by constructor <;> rfl, ⟨id, id, id, fun _ _ => rfl⟩⟩
  case payLoad =>
    rw [execPayLoad_next] at h; obtain ⟨-, rfl⟩ := h
    exact ⟨by constructor <;> rfl, ⟨id, id, id, fun _ _ => rfl⟩⟩
  case payXor =>
    rw [execPayXor_next] at h; obtain ⟨-, rfl⟩ := h
    exact ⟨by constructor <;> rfl, ⟨id, id, id, fun _ _ => rfl⟩⟩
  case payStore =>
    rw [execPayStore_next] at h; obtain ⟨⟨h16, hin⟩, rfl⟩ := h
    have hlt := s.msgLen.isLt
    refine ⟨by constructor <;> rfl, ⟨id, fun _ => ?_, fun hw => ?_, fun a ha => ?_⟩⟩
    · simp only [BitVec.toNat_ofNat]
      omega
    · exact Memory.write_wf _ (by omega) hw
    · show Memory.byteAt _ _ _ = Memory.byteAt _ _ _
      simp only
      rw [Memory.byteAt_write, if_neg (by omega)]
  case tagMask =>
    rw [execTagMask_next] at h; obtain ⟨-, rfl⟩ := h
    exact ⟨by constructor <;> rfl, ⟨id, id, id, fun _ _ => rfl⟩⟩
  case tagCmp =>
    rw [execTagCmp_next] at h; obtain ⟨-, rfl⟩ := h
    exact ⟨by constructor <;> rfl, ⟨id, id, id, fun _ _ => rfl⟩⟩

/-- Micro-operations run back to back keep the same things. -/
theorem runOps_frame {c : Cipher} {ms : List MicroOp} {s t : State} (h : runOps c ms s = .next t) :
    SameContext s t ∧ KeepsInside s t := by
  induction ms generalizing s with
  | nil =>
    rw [runOps, Host.Outcome.next.injEq] at h; subst h
    exact ⟨.refl s, .refl s⟩
  | cons m ms ih =>
    rw [runOps, andThen_eq_next] at h
    obtain ⟨u, hu, h⟩ := h
    obtain ⟨h1, h2⟩ := microMeaning_frame hu
    obtain ⟨h3, h4⟩ := ih h
    exact ⟨h1.trans h3, KeepsInside.trans h1 h2 h4⟩

/-! ## No micro-operation refuses, and none looks at `sel` -/

theorem microMeaning_not_refused (c : Cipher) (m : MicroOp) (s : State) (r : Refusal) :
    microMeaning c m s ≠ .refused r := by
  cases m <;> simp only [microMeaning]
  case macInit => nofun
  case fmtB0 => unfold execFmtB0; split <;> [nofun; (split <;> [nofun; (split <;> nofun)])]
  case fmtAad => unfold execFmtAad; simp only; split <;> [nofun; (split <;> nofun)]
  case macFold => unfold macFold withE; split <;> [nofun; (split <;> nofun)]
  case ctrLoad0 => unfold execCtrLoad0; split <;> nofun
  case ctrInc => unfold execCtrInc; split <;> [nofun; (split <;> nofun)]
  case ksGen => unfold ksGen withE; split <;> nofun
  case payLoad => unfold execPayLoad; split <;> nofun
  case payXor => unfold execPayXor; split <;> nofun
  case payStore => unfold execPayStore; split <;> nofun
  case tagMask => unfold execTagMask; split <;> nofun
  case tagCmp => unfold execTagCmp; split <;> nofun

/-- The same outcome with other codes still to issue. -/
def withSel (x : List (BitVec 4)) : Host.Outcome State Fault Refusal → Host.Outcome State Fault Refusal
  | .next t => .next { t with sel := x }
  | .fault f => .fault f
  | .refused r => .refused r

theorem microMeaning_sel (c : Cipher) (m : MicroOp) (s : State) (x : List (BitVec 4)) :
    microMeaning c m { s with sel := x } = withSel x (microMeaning c m s) := by
  cases m <;> simp only [microMeaning]
  case macInit => rfl
  case fmtB0 =>
    unfold execFmtB0
    rw [show latchedL { s with sel := x } = latchedL s from rfl]
    cases latchedL s <;> [rfl; skip]
    simp only
    split <;> [rfl; (split <;> rfl)]
  case fmtAad => unfold execFmtAad; simp only; split <;> [rfl; (split <;> rfl)]
  case macFold =>
    unfold macFold withE
    simp only
    split <;> [rfl; skip]
    cases s.keySchedule <;> rfl
  case ctrLoad0 =>
    unfold execCtrLoad0
    rw [show latchedL { s with sel := x } = latchedL s from rfl]
    cases latchedL s <;> rfl
  case ctrInc =>
    unfold execCtrInc
    rw [show latchedL { s with sel := x } = latchedL s from rfl]
    cases latchedL s <;> [rfl; skip]
    simp only
    cases increment s.counterBlock _ <;> rfl
  case ksGen =>
    unfold ksGen withE
    simp only
    cases s.keySchedule <;> rfl
  case payLoad => unfold execPayLoad; simp only; split <;> rfl
  case payXor => unfold execPayXor; simp only; split <;> rfl
  case payStore => unfold execPayStore; simp only; split <;> rfl
  case tagMask => unfold execTagMask; simp only; split <;> rfl
  case tagCmp => unfold execTagCmp; simp only; split <;> rfl

/-- The dispatch and the sequencer mean the same by a micro-operation. -/
theorem exec_toInstr (m : MicroOp) (s : State) : exec m.toInstr s = microMeaning Config.cipher m s := by
  cases m <;> rfl

end Sys2Proof.Machine
end

