-- ==== Sys2Proof/Laws/Groups.lean ====
section
/-! SUPPORT. What a group does as one update of the state (`45_controller.md` R207 to R212), with the cipher a
parameter. -/

namespace Sys2Proof.Machine

/-! ## Blocks -/

theorem ctrBlock_toList {nonce : List Byte} (hn : nonce.length ≤ 15) (j : Nat) :
    (ctrBlock nonce j).toList = ctrFlags (15 - nonce.length) :: (nonce ++ be j (15 - nonce.length)) := by
  rw [ctrBlock, toBytes_toList_of_length]
  simp; omega

/-- `increment` on a counter block, away from the wrap (R163). -/
theorem increment_ctrBlock {nonce : List Byte} {j l : Nat} (hl : l = 15 - nonce.length) (hn : nonce.length ≤ 13)
    (hj : j + 1 < 2 ^ (8 * l)) : increment (ctrBlock nonce j) l = some (ctrBlock nonce (j + 1)) := by
  subst hl
  have hpre : (ctrFlags (15 - nonce.length) :: nonce).length = 16 - (15 - nonce.length) := by simp; omega
  have hsplit : (ctrBlock nonce j).toList =
      (ctrFlags (15 - nonce.length) :: nonce) ++ be j (15 - nonce.length) := by
    rw [ctrBlock_toList (by omega)]; rfl
  unfold increment
  simp only [hsplit]
  rw [List.drop_left' hpre, List.take_left' hpre, unbe_be (by omega), if_neg (by omega)]
  rfl

theorem payloadBytes_length (p : Nat → Byte) (n i : Nat) : (payloadBytes p n i).length = min 16 (n - 16 * i) := by
  simp [payloadBytes]

theorem b0Bytes_length {h t n : Nat} {nonce : List Byte} (hn : nonce.length ≤ 15) :
    (b0Bytes h t nonce n).length = 16 := by
  simp [b0Bytes]; omega

theorem aadBytesFrom_length (h : Nat) (hdr : Nat → Byte) (q : Nat) : (aadBytesFrom h hdr q).length = 16 := by
  simp [aadBytesFrom]

/-! ## Forward forms of the micro-operations -/

theorem execMacInit_of {s : State} : execMacInit s = .next { s with macAccumulator := zeroBytes 16 } := rfl

theorem execFmtB0_of {s : State} (hn : nonceLenLegal s.nonceLen.toNat) (ht : tagLenLegal s.tagLen.toNat)
    (hm : s.msgLen.toNat < 2 ^ (8 * (15 - s.nonceLen.toNat))) : execFmtB0 s = .next { s with
      blk := b0Bytes s.headerLen.toNat s.tagLen.toNat (nonceBytes s) s.msgLen.toNat } :=
  execFmtB0_next.mpr ⟨⟨hn, ht, hm⟩, rfl⟩

theorem execFmtAad_of {s : State} (h0 : s.headerLen.toNat ≠ 0) (hc : s.cnt.toNat < aadTotal s.headerLen.toNat)
    (hl : ¬ (s.config.longMessages = false ∧ 2 ^ 32 ≤ s.headerLen.toNat)) : execFmtAad s = .next { s with
      blk := aadBytesFrom s.headerLen.toNat s.hdrByte s.cnt.toNat
      cnt := BitVec.ofNat 65 (s.cnt.toNat + min 16 (aadTotal s.headerLen.toNat - s.cnt.toNat)) } :=
  execFmtAad_next.mpr ⟨⟨h0, hc, hl⟩, rfl⟩

theorem macFold_of {c : Cipher} {s : State} {k : KeySchedule} (hk : s.keySchedule = some k)
    (h1 : s.blk.length ≠ 0) (h2 : s.blk.length ≤ 16) :
    macFold c s = .next { s with macAccumulator := c.encryptBlock k (xorBlock s.macAccumulator (pad16 s.blk)) } :=
  macFold_next.mpr ⟨⟨h1, h2⟩, k, hk, rfl⟩

theorem execCtrLoad0_of {s : State} (hn : nonceLenLegal s.nonceLen.toNat) :
    execCtrLoad0 s = .next { s with counterBlock := ctrBlock (nonceBytes s) 0 } :=
  execCtrLoad0_next.mpr ⟨hn, rfl⟩

theorem execCtrInc_of {s : State} {cb : Block} (hn : nonceLenLegal s.nonceLen.toNat)
    (hcb : increment s.counterBlock (15 - s.nonceLen.toNat) = some cb) :
    execCtrInc s = .next { s with counterBlock := cb } :=
  execCtrInc_next.mpr ⟨hn, cb, hcb, rfl⟩

theorem ksGen_of {c : Cipher} {s : State} {k : KeySchedule} (hk : s.keySchedule = some k) :
    ksGen c s = .next { s with ks := c.encryptBlock k s.counterBlock } :=
  ksGen_next.mpr ⟨k, hk, rfl⟩

theorem execPayLoad_of {s : State} (h : s.textPosition.toNat < s.msgLen.toNat) :
    execPayLoad s = .next { s with blk := s.memReadMsg s.textPosition.toNat (payloadCount s) } :=
  execPayLoad_next.mpr ⟨h, rfl⟩

theorem execPayXor_of {s : State} (h : s.blk.length ≤ 16) :
    execPayXor s = .next { s with blk := xorBytes s.blk (s.ks.toList.take s.blk.length) } :=
  execPayXor_next.mpr ⟨h, rfl⟩

theorem execPayStore_of {s : State} (h : s.blk.length ≤ 16)
    (hin : s.textPosition.toNat + s.blk.length ≤ s.msgLen.toNat) : execPayStore s = .next { s with
      msg := Memory.write s.msg s.textPosition.toNat s.blk
      textPosition := BitVec.ofNat 64 (s.textPosition.toNat + s.blk.length) } :=
  execPayStore_next.mpr ⟨⟨h, hin⟩, rfl⟩

theorem execTagMask_of {s : State} (h : s.tagLen.toNat ≤ 16) :
    execTagMask s = .next { s with tagOut := maskedTag s.macAccumulator s.ks s.tagLen.toNat } :=
  execTagMask_next.mpr ⟨h, rfl⟩

theorem execTagCmp_of {s : State} (h : s.tagLen.toNat ≤ 16) :
    execTagCmp s = .next { s with tagMatch := decide (tagOutBytes s = tagInBytes s) } :=
  execTagCmp_next.mpr ⟨h, rfl⟩

/-! ## The groups -/

/-- The B0 group (R207). -/
theorem b0Group {c : Cipher} {s : State} {k : KeySchedule} (hp : s.phase = .b0) (hk : s.keySchedule = some k)
    (hn : nonceLenLegal s.nonceLen.toNat) (ht : tagLenLegal s.tagLen.toNat)
    (hm : s.msgLen.toNat < 2 ^ (8 * (15 - s.nonceLen.toNat))) :
    runGroup c s = .next { s with
      phase := nextPhase s
      counterBlock := ctrBlock (nonceBytes s) 0
      macAccumulator := c.encryptBlock k (xorBlock (zeroBytes 16)
        (pad16 (b0Bytes s.headerLen.toNat s.tagLen.toNat (nonceBytes s) s.msgLen.toNat)))
      blk := [], ks := zeroBytes 16, tagMatch := false } := by
  have hb := b0Bytes_length (h := s.headerLen.toNat) (t := s.tagLen.toNat) (n := s.msgLen.toNat)
    (nonce := nonceBytes s) (by rw [nonceBytes_length hn.2]; omega)
  unfold runGroup
  rw [if_neg (by rw [hp]; decide)]
  simp only [hp, groupOps, runOps, microMeaning]
  rw [execMacInit_of, andThen_next, execCtrLoad0_of, andThen_next, execFmtB0_of, andThen_next, macFold_of (k := k)]
  · simp only [andThen_next, endGroup, hp]
    rfl
  · exact hk
  · exact ne_of_eq_of_ne hb (by decide)
  · exact le_of_eq hb
  · exact hn
  · exact ht
  · exact hm
  · exact hn

/-- An associated-data group (R208). -/
theorem aadGroup {c : Cipher} {s : State} {k : KeySchedule} (hp : s.phase = .aad) (hk : s.keySchedule = some k)
    (h0 : s.headerLen.toNat ≠ 0) (hc : s.cnt.toNat < aadTotal s.headerLen.toNat)
    (hl : ¬ (s.config.longMessages = false ∧ 2 ^ 32 ≤ s.headerLen.toNat)) {cnt : BitVec 65}
    (hcnt : cnt = BitVec.ofNat 65 (s.cnt.toNat + min 16 (aadTotal s.headerLen.toNat - s.cnt.toNat))) :
    runGroup c s = .next { s with
      phase := nextPhase { s with cnt := cnt }
      cnt := cnt
      macAccumulator := c.encryptBlock k (xorBlock s.macAccumulator
        (pad16 (aadBytesFrom s.headerLen.toNat s.hdrByte s.cnt.toNat)))
      blk := [], ks := zeroBytes 16, tagMatch := false } := by
  subst hcnt
  unfold runGroup
  rw [if_neg (by rw [hp]; decide)]
  simp only [hp, groupOps, runOps, microMeaning]
  rw [execFmtAad_of h0 hc hl, andThen_next, macFold_of (k := k)]
  · simp only [andThen_next, endGroup, hp]
    rfl
  · exact hk
  · simp [aadBytesFrom_length]
  · simp [aadBytesFrom_length]

/-- The plaintext block of a payload group: what is read in encryption, what the keystream gives in decryption. -/
def groupPlain (d : Dir) (blk : List Byte) (ks : Block) : List Byte :=
  if d = .enc then blk else xorBytes blk (ks.toList.take blk.length)

/-- A payload group of either direction (R209, R210). -/
theorem payloadGroup {c : Cipher} {s : State} {k : KeySchedule} (hp : s.phase = .payload)
    (hk : s.keySchedule = some k) (hn : nonceLenLegal s.nonceLen.toNat)
    (hpos : s.textPosition.toNat < s.msgLen.toNat) {cb : Block}
    (hcb : increment s.counterBlock (15 - s.nonceLen.toNat) = some cb) {blk out : List Byte} {tp : BitVec 64}
    (hblk : blk = s.memReadMsg s.textPosition.toNat (payloadCount s))
    (hout : out = xorBytes blk ((c.encryptBlock k cb).toList.take blk.length))
    (htp : tp = BitVec.ofNat 64 (s.textPosition.toNat + blk.length)) :
    runGroup c s = .next { s with
      phase := nextPhase { s with textPosition := tp }
      counterBlock := cb
      textPosition := tp
      msg := Memory.write s.msg s.textPosition.toNat out
      macAccumulator := c.encryptBlock k (xorBlock s.macAccumulator
        (pad16 (groupPlain s.dir blk (c.encryptBlock k cb))))
      blk := [], ks := zeroBytes 16, tagMatch := false } := by
  have hlen : blk.length = payloadCount s := by rw [hblk]; simp [State.memReadMsg]
  have hcount : payloadCount s = min 16 (s.msgLen.toNat - s.textPosition.toNat) := rfl
  have hout' : out.length = blk.length := by rw [hout]; simp; omega
  unfold runGroup
  rw [if_neg (by rw [hp]; decide)]
  cases hd : s.dir
  · simp only [hp, groupOps, runOps, microMeaning]
    rw [execPayLoad_of hpos, ← hblk, andThen_next, macFold_of (k := k), andThen_next, execCtrInc_of (cb := cb),
      andThen_next, ksGen_of (k := k), andThen_next, execPayXor_of, andThen_next, execPayStore_of]
    · simp only [andThen_next, endGroup, hp, hd, ← hout, hout', ← htp, groupPlain]
      rfl
    · simp only [← hout]; omega
    · simp only [← hout]; omega
    · simp only; omega
    · exact hk
    · exact hn
    · exact hcb
    · exact hk
    · simp only; omega
    · simp only; omega
  · simp only [hp, groupOps, runOps, microMeaning]
    rw [execPayLoad_of hpos, ← hblk, andThen_next, execCtrInc_of (cb := cb), andThen_next, ksGen_of (k := k),
      andThen_next, execPayXor_of, andThen_next, execPayStore_of, andThen_next, macFold_of (k := k)]
    · simp only [andThen_next, endGroup, hp, hd, ← hout, hout', ← htp, groupPlain]
      rfl
    · exact hk
    · simp only [← hout]; omega
    · simp only [← hout]; omega
    · simp only [← hout]; omega
    · simp only [← hout]; omega
    · simp only; omega
    · exact hk
    · exact hn
    · exact hcb

/-- The tag group of either direction (R211, R212). -/
theorem tagGroup {c : Cipher} {s : State} {k : KeySchedule} (hp : s.phase = .tag) (hk : s.keySchedule = some k)
    (hn : nonceLenLegal s.nonceLen.toNat) (ht : s.tagLen.toNat ≤ 16) {tag : Block}
    (htag : tag = maskedTag s.macAccumulator (c.encryptBlock k (ctrBlock (nonceBytes s) 0)) s.tagLen.toNat) :
    runGroup c s = .next { s with
      phase := .idle
      counterBlock := ctrBlock (nonceBytes s) 0
      tagOut := tag
      state := if tagAccepted s.dir s.tagLen.toNat tag s.tagIn then .messageOk else .messageFailed
      status := if tagAccepted s.dir s.tagLen.toNat tag s.tagIn then .good else .warn
      blk := [], ks := zeroBytes 16, tagMatch := false } := by
  unfold runGroup
  rw [if_neg (by rw [hp]; decide)]
  cases hd : s.dir
  · simp only [hp, groupOps, runOps, microMeaning]
    rw [execCtrLoad0_of hn, andThen_next, ksGen_of (k := k), andThen_next, execTagMask_of]
    · simp only [andThen_next, endGroup, hp, ← htag, finishMessage, tagAccepted, hd]
      rfl
    · exact ht
    · exact hk
  · simp only [hp, groupOps, runOps, microMeaning]
    rw [execCtrLoad0_of hn, andThen_next, ksGen_of (k := k), andThen_next, execTagMask_of, andThen_next,
      execTagCmp_of]
    · simp only [andThen_next, endGroup, hp, ← htag, finishMessage, tagAccepted, hd, tagOutBytes, tagInBytes]
      by_cases hm : tag.toList.take s.tagLen.toNat = s.tagIn.toList.take s.tagLen.toNat
      · simp only [hm]; rfl
      · simp only [hm]; rfl
    · exact ht
    · exact ht
    · exact hk

end Sys2Proof.Machine
end

