-- ==== Sys2Proof/Laws/Message.lean ====
section
/-! SUPPORT. Where an accepted message command stands after each of its groups (`45_controller.md` R205 to R213): one
state for every number of associated-data blocks and payload blocks done, and each group taking one to the next. -/

namespace Sys2Proof.Machine

/-! ## Counting blocks -/

theorem ceilDiv_eq (n : Nat) : ceilDiv n 16 = (n + 15) / 16 := rfl

theorem aadTotal_pos {h : Nat} (h0 : h ≠ 0) : 0 < aadTotal h := by unfold aadTotal; omega

/-- Block `j` of the associated data exists exactly when the stream reaches it (R136). -/
theorem lt_aadBlocks {h j : Nat} : j < aadBlocks h ↔ 16 * j < aadTotal h := by
  unfold aadBlocks
  split
  · rename_i h0; subst h0; simp [aadTotal, plen]
  · rw [ceilDiv_eq]; omega

/-- Payload block `i + 1` exists exactly when the payload reaches it (R168). -/
theorem lt_payloadBlocks {n i : Nat} : i < payloadBlocks n ↔ 16 * i < n := by
  rw [payloadBlocks, ceilDiv_eq]; omega

theorem payloadBlocks_lt {n l : Nat} (hl : 2 ≤ l) (hn : n < 2 ^ (8 * l)) : payloadBlocks n < 2 ^ (8 * l) := by
  rw [payloadBlocks, ceilDiv_eq]
  have : 2 ^ (8 * 2) ≤ 2 ^ (8 * l) := Nat.pow_le_pow_right (by decide) (by omega)
  omega

/-! ## One payload block -/

/-- A payload block xor its keystream block is the keystream over those bytes of the payload (R169). -/
theorem payloadBytes_xor (e : Block → Block) (nonce : List Byte) (p : Nat → Byte) (n i : Nat) :
    xorBytes (payloadBytes p n i) ((e (ctrBlock nonce (i + 1))).toList.take (payloadBytes p n i).length) =
      payloadBytes (fun a => p a ^^^ keystreamByte e nonce a) n i := by
  apply List.ext_getElem
  · simp [payloadBytes_length]
  · intro k h1 h2
    have hk : k < 16 := by
      have : k < min 16 (n - 16 * i) := by simpa [payloadBytes_length] using h2
      omega
    have hd : (16 * i + k) / 16 = i := by omega
    have hm' : k % 16 = k := by omega
    simp [xorBytes, payloadBytes, keystreamByte, hd, hm', List.getD_eq_getElem?_getD, hk]

theorem payloadBytes_append (p : Nat → Byte) (n i : Nat) :
    (List.range (min (16 * i) n)).map p ++ payloadBytes p n i = (List.range (min (16 * (i + 1)) n)).map p := by
  have h : min (16 * (i + 1)) n = min (16 * i) n + min 16 (n - 16 * i) := by omega
  rw [h, List.range_add, List.map_append, List.map_map]
  congr 1
  apply List.map_congr_left
  intro k hk
  have : k < min 16 (n - 16 * i) := List.mem_range.mp hk
  show p (16 * i + k) = p (min (16 * i) n + k)
  congr 1; omega

/-! ## The states between groups -/

/-- The message's `E` applied: what `MSG` holds after the keystream. -/
def outputByte (c : Cipher) (k : KeySchedule) (nlen : Nat) (s : State) (a : Nat) : Byte :=
  s.msgByte a ^^^ keystreamByte (c.encryptBlock k) (s.nonce.toList.take nlen) a

/-- The plaintext, which the MAC covers in both directions (`42_mac_accumulator.md` R154). -/
def plainByte (c : Cipher) (k : KeySchedule) (d : Dir) (nlen : Nat) (s : State) : Nat → Byte :=
  if d = .enc then s.msgByte else outputByte c k nlen s

/-- The accumulator after `B0`, `j` associated-data blocks and `i` payload blocks. -/
def macAfter (c : Cipher) (k : KeySchedule) (d : Dir) (nlen tlen : Nat) (s : State) (j i : Nat) : Block :=
  cbcMac (c.encryptBlock k)
    (pad16 (b0Bytes s.hdrLenReg.toNat tlen (s.nonce.toList.take nlen) s.msgLenReg.toNat) ::
      ((List.range j).map (aadBlock s.hdrLenReg.toNat s.hdrByte) ++
        (List.range i).map fun i => pad16 (payloadBytes (plainByte c k d nlen s) s.msgLenReg.toNat i)))

/-- The state between groups, with `j` associated-data blocks and `i` payload blocks done. -/
def between (c : Cipher) (k : KeySchedule) (d : Dir) (nlen tlen : Nat) (s : State) (j i : Nat) : State :=
  { latch nlen tlen s with
    phase := if j < aadBlocks s.hdrLenReg.toNat then .aad
      else if i < payloadBlocks s.msgLenReg.toNat then .payload else .tag
    counterBlock := ctrBlock (s.nonce.toList.take nlen) i
    macAccumulator := macAfter c k d nlen tlen s j i
    cnt := BitVec.ofNat 65 (min (16 * j) (aadTotal s.hdrLenReg.toNat))
    textPosition := BitVec.ofNat 64 (min (16 * i) s.msgLenReg.toNat)
    msg := Memory.write s.msg 0 ((List.range (min (16 * i) s.msgLenReg.toNat)).map (outputByte c k nlen s))
    blk := [], ks := zeroBytes 16, tagMatch := false }

/-- What R205 finds as the next phase. -/
theorem nextPhase_eq {s : State} {h n j i : Nat} (hh : s.headerLen.toNat = h) (hn : s.msgLen.toNat = n)
    (hc : s.cnt.toNat = min (16 * j) (aadTotal h)) (ht : s.textPosition.toNat = min (16 * i) n) :
    nextPhase s = if j < aadBlocks h then .aad else if i < payloadBlocks n then .payload else .tag := by
  unfold nextPhase
  rw [hh, hn, hc, ht]
  have h1 : min (16 * j) (aadTotal h) < aadTotal h ↔ j < aadBlocks h := by rw [lt_aadBlocks]; omega
  have h2 : min (16 * i) n < n ↔ i < payloadBlocks n := by rw [lt_payloadBlocks]; omega
  simp only [h1, h2]

theorem cntValue (s : State) (j : Nat) :
    (BitVec.ofNat 65 (min (16 * j) (aadTotal s.hdrLenReg.toNat))).toNat =
      min (16 * j) (aadTotal s.hdrLenReg.toNat) := by
  have := aadTotal_lt s.hdrLenReg
  rw [BitVec.toNat_ofNat]; omega

theorem textValue (s : State) (i : Nat) :
    (BitVec.ofNat 64 (min (16 * i) s.msgLenReg.toNat)).toNat = min (16 * i) s.msgLenReg.toNat := by
  have := s.msgLenReg.isLt
  rw [BitVec.toNat_ofNat]; omega

theorem nonceLenValue {d : Dir} {nlen tlen : Nat} {s : State} (ha : Accepted d nlen tlen s) :
    (BitVec.ofNat 8 nlen).toNat = nlen := by
  have := ha.nonce; rw [BitVec.toNat_ofNat]; omega

theorem tagLenValue {d : Dir} {nlen tlen : Nat} {s : State} (ha : Accepted d nlen tlen s) :
    (BitVec.ofNat 8 tlen).toNat = tlen ∧ tlen ≤ 16 := by
  have h : tlen ≤ 16 := by
    have := ha.tag
    simp only [List.mem_cons, List.not_mem_nil, or_false] at this
    omega
  exact ⟨by rw [BitVec.toNat_ofNat]; omega, h⟩

theorem macAfter_aad (c : Cipher) (k : KeySchedule) (d : Dir) (nlen tlen : Nat) (s : State) (j : Nat) :
    macAfter c k d nlen tlen s (j + 1) 0 = c.encryptBlock k
      (xorBlock (macAfter c k d nlen tlen s j 0) (aadBlock s.hdrLenReg.toNat s.hdrByte j)) := by
  simp [macAfter, cbcMac, List.range_succ]

theorem macAfter_payload (c : Cipher) (k : KeySchedule) (d : Dir) (nlen tlen : Nat) (s : State) (j i : Nat) :
    macAfter c k d nlen tlen s j (i + 1) = c.encryptBlock k (xorBlock (macAfter c k d nlen tlen s j i)
      (pad16 (payloadBytes (plainByte c k d nlen s) s.msgLenReg.toNat i))) := by
  simp [macAfter, cbcMac, List.range_succ]

variable {c : Cipher} {k : KeySchedule} {d : Dir} {nlen tlen : Nat} {s : State}

/-- The B0 group of an accepted message. -/
theorem group_b0 (ha : Accepted d nlen tlen s) (hk : s.keySchedule = some k) :
    runGroup c (latch nlen tlen s) = .next (between c k d nlen tlen s 0 0) := by
  have hn := nonceLenValue ha
  obtain ⟨ht, -⟩ := tagLenValue ha
  have hnb : nonceBytes (latch nlen tlen s) = s.nonce.toList.take nlen := by
    unfold nonceBytes; show List.take (BitVec.ofNat 8 nlen).toNat _ = _; rw [hn]; rfl
  rw [b0Group (s := latch nlen tlen s) (k := k) rfl hk]
  · rw [nextPhase_eq (s := latch nlen tlen s) (h := s.hdrLenReg.toNat) (n := s.msgLenReg.toNat) (j := 0) (i := 0) rfl rfl
      (by simp [latch]) (by simp [latch]), hnb]
    simp only [latch, between, ht]
    simp [macAfter, cbcMac, Memory.write]
  · show nonceLenLegal (BitVec.ofNat 8 nlen).toNat; rw [hn]; exact ha.nonce
  · show tagLenLegal (BitVec.ofNat 8 tlen).toNat; rw [ht]; exact ha.tag
  · show s.msgLenReg.toNat < 2 ^ (8 * (15 - (BitVec.ofNat 8 nlen).toNat)); rw [hn]; exact ha.fits

/-- An associated-data group of an accepted message. -/
theorem group_aad (ha : Accepted d nlen tlen s) (hk : s.keySchedule = some k) {j : Nat}
    (hj : j < aadBlocks s.hdrLenReg.toNat) :
    runGroup c (between c k d nlen tlen s j 0) = .next (between c k d nlen tlen s (j + 1) 0) := by
  have hq := lt_aadBlocks.mp hj
  have hc : (between c k d nlen tlen s j 0).cnt.toNat = 16 * j := (cntValue s j).trans (by omega)
  have hh : (between c k d nlen tlen s j 0).headerLen = s.hdrLenReg := rfl
  have h0 : s.hdrLenReg.toNat ≠ 0 := by
    intro e; rw [e] at hq; simp [aadTotal, plen] at hq
  have hl : ¬ (s.config.longMessages = false ∧ 2 ^ 32 ≤ s.hdrLenReg.toNat) := by
    rintro ⟨h1, h2⟩
    have := ha.header
    rw [Build.lenMax, h1] at this
    simp at this; omega
  rw [aadGroup (s := between c k d nlen tlen s j 0) (k := k) (cnt := BitVec.ofNat 65 (min (16 * (j + 1)) (aadTotal s.hdrLenReg.toNat)))
    (show _ = _ from if_pos hj) hk h0 (by rw [hc, hh]; exact hq) hl
    (by rw [hc, hh]; congr 1; omega)]
  rw [nextPhase_eq (h := s.hdrLenReg.toNat) (n := s.msgLenReg.toNat) (j := j + 1) (i := 0) rfl rfl (cntValue s (j + 1))
    (textValue s 0), hc, hh]
  show _ = Host.Outcome.next (between c k d nlen tlen s (j + 1) 0)
  simp only [between, macAfter_aad]
  rfl

/-- A payload group of an accepted message, of either direction. -/
theorem group_payload (ha : Accepted d nlen tlen s) (hk : s.keySchedule = some k) {i : Nat}
    (hi : i < payloadBlocks s.msgLenReg.toNat) :
    runGroup c (between c k d nlen tlen s (aadBlocks s.hdrLenReg.toNat) i) =
      .next (between c k d nlen tlen s (aadBlocks s.hdrLenReg.toNat) (i + 1)) := by
  have hn := nonceLenValue ha
  have hq := lt_payloadBlocks.mp hi
  have hnl : (s.nonce.toList.take nlen).length = nlen := by have := ha.nonce; simp; omega
  have ht : (between c k d nlen tlen s (aadBlocks s.hdrLenReg.toNat) i).textPosition.toNat = 16 * i :=
    (textValue s i).trans (by omega)
  have hdir : (between c k d nlen tlen s (aadBlocks s.hdrLenReg.toNat) i).dir = d := ha.direction
  have hmsg : (between c k d nlen tlen s (aadBlocks s.hdrLenReg.toNat) i).msg =
    Memory.write s.msg 0 ((List.range (min (16 * i) s.msgLenReg.toNat)).map (outputByte c k nlen s)) := rfl
  have hblk : payloadBytes s.msgByte s.msgLenReg.toNat i =
      (between c k d nlen tlen s (aadBlocks s.hdrLenReg.toNat) i).memReadMsg (16 * i)
        (payloadCount (between c k d nlen tlen s (aadBlocks s.hdrLenReg.toNat) i)) := by
    rw [payloadCount, ht]
    apply List.map_congr_left
    intro a _
    show _ = Memory.byteAt _ _ _
    rw [hmsg, Memory.byteAt_write, if_neg (by simp)]
    rfl
  rw [payloadGroup (s := between c k d nlen tlen s (aadBlocks s.hdrLenReg.toNat) i) (k := k)
    (cb := ctrBlock (s.nonce.toList.take nlen) (i + 1))
    (blk := payloadBytes s.msgByte s.msgLenReg.toNat i)
    (out := payloadBytes (outputByte c k nlen s) s.msgLenReg.toNat i)
    (tp := BitVec.ofNat 64 (min (16 * (i + 1)) s.msgLenReg.toNat))
    (by show (if _ then _ else _) = _; rw [if_neg (Nat.lt_irrefl _), if_pos hi]) hk]
  · rw [nextPhase_eq (h := s.hdrLenReg.toNat) (n := s.msgLenReg.toNat) (j := aadBlocks s.hdrLenReg.toNat) (i := i + 1)
      rfl rfl (cntValue s _) (textValue s (i + 1)), hdir, hmsg, ht]
    have hw : Memory.write (Memory.write s.msg 0 ((List.range (min (16 * i) s.msgLenReg.toNat)).map
          (outputByte c k nlen s))) (16 * i) (payloadBytes (outputByte c k nlen s) s.msgLenReg.toNat i) =
        Memory.write s.msg 0 ((List.range (min (16 * (i + 1)) s.msgLenReg.toNat)).map (outputByte c k nlen s)) := by
      rw [← payloadBytes_append, Memory.write_append]
      congr 1
      simp; omega
    have hp : groupPlain d (payloadBytes s.msgByte s.msgLenReg.toNat i)
          (c.encryptBlock k (ctrBlock (s.nonce.toList.take nlen) (i + 1))) =
        payloadBytes (plainByte c k d nlen s) s.msgLenReg.toNat i := by
      unfold groupPlain plainByte
      split
      · rfl
      · exact payloadBytes_xor (c.encryptBlock k) _ _ _ _
    rw [hw, hp]
    show _ = Host.Outcome.next (between c k d nlen tlen s (aadBlocks s.hdrLenReg.toNat) (i + 1))
    have hl : (latch nlen tlen s).dir = d := ha.direction
    simp only [between, macAfter_payload, hl]
  · show nonceLenLegal (BitVec.ofNat 8 nlen).toNat; rw [hn]; exact ha.nonce
  · rw [ht]; exact hq
  · show increment (ctrBlock (s.nonce.toList.take nlen) i) (15 - (BitVec.ofNat 8 nlen).toNat) = _
    have := ha.nonce
    have := payloadBlocks_lt (l := 15 - nlen) (by omega) ha.fits
    rw [hn]
    exact increment_ctrBlock (by rw [hnl]) (by omega) (by omega)
  · rw [ht]; exact hblk
  · exact (payloadBytes_xor (c.encryptBlock k) _ _ _ _).symm
  · rw [ht, payloadBytes_length]; congr 1; omega

/-- The tag group of an accepted message, of either direction. -/
theorem group_tag (ha : Accepted d nlen tlen s) (hk : s.keySchedule = some k) {tag : Block}
    (htag : tag = maskedTag (macAfter c k d nlen tlen s (aadBlocks s.hdrLenReg.toNat)
        (payloadBlocks s.msgLenReg.toNat)) (c.encryptBlock k (ctrBlock (s.nonce.toList.take nlen) 0)) tlen) :
    runGroup c (between c k d nlen tlen s (aadBlocks s.hdrLenReg.toNat) (payloadBlocks s.msgLenReg.toNat)) =
      .next { between c k d nlen tlen s (aadBlocks s.hdrLenReg.toNat) (payloadBlocks s.msgLenReg.toNat) with
        phase := .idle
        counterBlock := ctrBlock (s.nonce.toList.take nlen) 0
        tagOut := tag
        state := if tagAccepted d tlen tag s.tagIn then .messageOk else .messageFailed
        status := if tagAccepted d tlen tag s.tagIn then .good else .warn } := by
  have hn := nonceLenValue ha
  obtain ⟨ht, ht16⟩ := tagLenValue ha
  have hdir := ha.direction
  have hnb : nonceBytes (between c k d nlen tlen s (aadBlocks s.hdrLenReg.toNat) (payloadBlocks s.msgLenReg.toNat)) =
      s.nonce.toList.take nlen := by
    unfold nonceBytes; show List.take (BitVec.ofNat 8 nlen).toNat _ = _; rw [hn]; rfl
  rw [tagGroup (k := k) (tag := tag)
    (s := between c k d nlen tlen s (aadBlocks s.hdrLenReg.toNat) (payloadBlocks s.msgLenReg.toNat))
    (by show (if _ then _ else _) = _; rw [if_neg (Nat.lt_irrefl _), if_neg (Nat.lt_irrefl _)]) hk]
  · rw [hnb]
    simp only [between, latch, ht, hdir]
  · show nonceLenLegal (BitVec.ofNat 8 nlen).toNat; rw [hn]; exact ha.nonce
  · show (BitVec.ofNat 8 tlen).toNat ≤ 16; rw [ht]; exact ht16
  · rw [hnb]; show tag = maskedTag _ _ (BitVec.ofNat 8 tlen).toNat; rw [ht]; exact htag

end Sys2Proof.Machine
end

