-- ==== Sys2Proof/Laws/Run.lean ====
section
/-! SUPPORT. What a step fetches, and a run of steps cut in two. -/

namespace Sys2Proof.Machine

/-! ## What is fetched -/

/-- With no message in progress and no group running, the host acts (`20_memory.md` R71). -/
theorem fetch_idle {s : State} (h1 : s.state ≠ .processing) (h2 : s.sel = []) : fetch s = fetchHost s := by
  unfold fetch pendingCodes
  simp [h1, h2]

/-- While a group runs, its next select code (`45_controller.md` R205). -/
theorem fetch_sel {s : State} {c : BitVec 4} {rest : List (BitVec 4)} (h : s.sel = c :: rest) :
    fetch s = .code (.micro c) { s with sel := rest } := by
  unfold fetch pendingCodes
  simp [h]

/-- A host action that is no command is performed as it stands (`20_memory.md` R61). -/
theorem step_hostAction {s : State} {a : HostAction} {rest : List HostAction} (h1 : s.state ≠ .processing)
    (h2 : s.sel = []) (h3 : s.host = a :: rest) (ha : commandOf a = none) :
    step s = hostAction a { s with host := rest } := by
  rw [step, fetch_idle h1 h2, fetchHost, h3]
  simp only [ha]

theorem decode_code (m : MicroOp) : decode (.micro m.code) = .ok m.toInstr := by cases m <;> rfl

/-! ## Runs -/

/-- One step, then the rest of the run. -/
theorem run_succ (k : Nat) (s : State) : core.run (k + 1) s = andThen (step s) fun t => core.run k t := by
  refine (Host.Core.run.eq_2 core s k).trans ?_
  cases h : step s with
  | next t => rw [show core.step s = .next t from h]; rfl
  | fault r => rw [show core.step s = .fault r from h]; rfl
  | refused r => rw [show core.step s = .refused r from h]; rfl

/-- A run that goes on from where a shorter one ended. -/
theorem run_add {j k : Nat} {s t : State} (h : core.run j s = .next t) : core.run (j + k) s = core.run k t := by
  induction j generalizing s with
  | zero => injection h with h; subst h; simp
  | succ j ih =>
    rw [show j + 1 + k = (j + k) + 1 by omega, run_succ]
    rw [run_succ] at h
    cases hs : step s with
    | next u => rw [hs] at h; exact ih h
    | fault r => rw [hs] at h; cases h
    | refused r => rw [hs] at h; cases h

end Sys2Proof.Machine
end

