-- ==== Sys2Proof/Laws/CallForms.lean ====
section
/-! SUPPORT. What the host accesses of a call do, run after run (`30_encoding.md` R98, R99): a list cut in two, one
access, the bytes of a space read, the bytes of a space written. -/

namespace Sys2Proof.Machine

/-! ## Runs of accesses -/

theorem hostActs_append (as bs : List HostAction) (s : State) :
    hostActs (as ++ bs) s = andThen (hostActs as s) (hostActs bs) := by
  induction as generalizing s with
  | nil => rfl
  | cons a as ih =>
    rw [List.cons_append, hostActs, hostActs]
    cases step { s with host := a :: s.host } <;> simp [ih]

/-- An access that is no command does what `hostAction` says, the host's later actions standing aside (R61). -/
theorem hostActs_action {s : State} {a : HostAction} (h1 : s.state ≠ .processing) (h2 : s.sel = [])
    (ha : commandOf a = none) : hostActs [a] s = hostAction a s := by
  rw [hostActs, step_hostAction (s := { s with host := a :: s.host }) h1 h2 rfl ha]
  show andThen (hostAction a s) (hostActs []) = hostAction a s
  cases hostAction a s <;> rfl

/-! ## Bytes read -/

theorem readBytes_succ (sp : Space) (n : Nat) : readBytes sp (n + 1) = readBytes sp n ++ [.byteRead sp n] := by
  simp [readBytes, List.range_succ]

/-- The first bytes of a space, read in order, are what the host has read last (R61, R98). -/
theorem hostActs_readBytes {s : State} {sp : Space} {n : Nat} (h1 : s.state ≠ .processing) (h2 : s.sel = [])
    (hn : n ≤ spaceSize s sp) : hostActs (readBytes sp n) s =
      .next { s with reads := s.reads ++ (List.range n).map fun i => (hostByte s sp i).setWidth 64 } := by
  induction n with
  | zero => simp [readBytes, hostActs]
  | succ n ih =>
    rw [readBytes_succ, hostActs_append, ih (by omega), andThen_next]
    have hr : ∀ reads, hostActs [.byteRead sp n] { s with reads := reads } =
        .next { s with reads := reads ++ [(hostByte s sp n).setWidth 64] } := fun reads => by
      rw [hostActs_action (s := { s with reads := reads }) h1 h2 rfl]
      refine (if_pos (show n < spaceSize s sp by omega)).trans ?_
      cases sp <;> rfl
    rw [hr, List.range_succ, List.map_append, List.append_assoc]
    rfl

/-! ## Bytes written -/

/-- `s` with the first bytes of a space replaced. -/
def fillSpace (s : State) (sp : Space) (bytes : List Byte) : State :=
  match sp with
  | .key => { s with key := bytes ++ s.key.drop bytes.length }
  | .nonce => { s with nonce := toBytes 13 (bytes ++ s.nonce.toList.drop bytes.length) }
  | .tagIn => { s with tagIn := toBytes 16 (bytes ++ s.tagIn.toList.drop bytes.length) }
  | .tagOut => s
  | .hdr => { s with hdr := Memory.write s.hdr 0 bytes }
  | .msg => { s with msg := Memory.write s.msg 0 bytes }

theorem writeBytes_succ (sp : Space) (bytes : List Byte) (v : Byte) :
    writeBytes sp (bytes ++ [v]) = writeBytes sp bytes ++ [.byteWrite sp bytes.length v] := by
  simp [writeBytes, List.mapIdx_append]

/-- One more byte at the end of what has been replaced. -/
theorem set_filled {old bytes : List Byte} {v : Byte} (h : bytes.length < old.length) :
    (bytes ++ old.drop bytes.length).set bytes.length v = (bytes ++ [v]) ++ old.drop (bytes.length + 1) := by
  rw [List.set_append_right _ _ (le_refl _), Nat.sub_self, List.append_assoc, List.drop_eq_getElem_cons h,
    List.set_cons_zero]
  rfl

theorem filled_length {old bytes : List Byte} (h : bytes.length ≤ old.length) :
    (bytes ++ old.drop bytes.length).length = old.length := by
  simp; omega

theorem putByte_filled {n : Nat} {old : Bytes n} {bytes : List Byte} {v : Byte} (h : bytes.length < n) :
    putByte (toBytes n (bytes ++ old.toList.drop bytes.length)) bytes.length v =
      toBytes n ((bytes ++ [v]) ++ old.toList.drop (bytes.length + 1)) := by
  have ho : old.toList.length = n := by simp
  rw [putByte, toBytes_toList_of_length ((filled_length (by omega)).trans ho), set_filled (by omega)]

/-- The bytes of `s` with those of `old` after them, seen one by one. -/
theorem filled_getD {n : Nat} {old : Bytes n} {bytes : List Byte} {i : Nat} (h : i < n) :
    (toBytes n (bytes ++ old.toList.drop bytes.length)).toList.getD i 0 =
      if i < bytes.length then bytes.getD i 0 else old.toList.getD i 0 := by
  rw [toBytes_getD, if_pos h]
  split
  · simp [List.getElem?_append, *]
  · have : bytes.length + (i - bytes.length) = i := by omega
    simp [List.getElem?_append, *]

/-- Bytes written to a space in order replace its first bytes and nothing else (R61, R98). -/
theorem hostActs_writeBytes {s : State} {sp : Space} {bytes : List Byte} (h1 : s.state ≠ .processing)
    (h2 : s.sel = []) (hk : s.key.length = s.config.keyMax) (hn : bytes.length ≤ spaceSize s sp) :
    hostActs (writeBytes sp bytes) s = .next (fillSpace s sp bytes) := by
  induction bytes using List.reverseRecOn with
  | nil => cases sp <;> simp [writeBytes, hostActs, fillSpace, Memory.write]
  | append_singleton bytes v ih =>
    rw [List.length_append, List.length_singleton] at hn
    rw [writeBytes_succ, hostActs_append, ih (by omega), andThen_next]
    have hc : ∀ t : State, t.state = s.state → t.sel = s.sel → spaceSize t sp = spaceSize s sp →
        hostActs [.byteWrite sp bytes.length v] t = .next (hostSetByte t sp bytes.length v) := fun t e1 e2 e3 => by
      rw [hostActs_action (a := .byteWrite sp bytes.length v) (e1 ▸ h1) (e2.trans h2) rfl]
      exact if_pos (e3 ▸ by omega)
    rw [hc _ (by cases sp <;> rfl) (by cases sp <;> rfl) (by cases sp <;> rfl)]
    congr 1
    cases sp
    · have : bytes.length < s.key.length := by rw [hk]; exact hn
      simp [fillSpace, hostSetByte, set_filled this]
    · have : bytes.length < 13 := hn
      simp [fillSpace, hostSetByte, putByte_filled this]
    · have : bytes.length < 16 := hn
      simp [fillSpace, hostSetByte, putByte_filled this]
    · rfl
    · simp [fillSpace, hostSetByte, Memory.write_append, Memory.write]
    · simp [fillSpace, hostSetByte, Memory.write_append, Memory.write]

end Sys2Proof.Machine
end

