-- ==== Sys2Proof/Laws/Encoding.lean ====
section
/-! SUPPORT. The fields of a command word and the match and mask of each row (`30_encoding.md` R90, R94). -/

namespace Sys2Proof

/-! ## The fields of an assembled word -/

@[simp] theorem fieldOp_commandWord (op a b : Nat) : fieldOp (commandWord op a b) = BitVec.ofNat 8 op := by
  apply BitVec.eq_of_getLsbD_eq
  intro i hi
  simp only [fieldOp, commandWord, BitVec.getLsbD_extractLsb', BitVec.getLsbD_append, hi]
  simp [hi]

@[simp] theorem fieldA_commandWord (op a b : Nat) : fieldA (commandWord op a b) = BitVec.ofNat 8 a := by
  apply BitVec.eq_of_getLsbD_eq
  intro i hi
  have h1 : ¬ 8 + i < 8 := by omega
  have h2 : 8 + i - 8 = i := by omega
  simp only [fieldA, commandWord, BitVec.getLsbD_extractLsb', BitVec.getLsbD_append, hi, h1, h2]
  simp

@[simp] theorem fieldB_commandWord (op a b : Nat) : fieldB (commandWord op a b) = BitVec.ofNat 8 b := by
  apply BitVec.eq_of_getLsbD_eq
  intro i hi
  have h1 : ¬ 16 + i < 8 := by omega
  have h2 : ¬ 16 + i - 8 < 8 := by omega
  have h3 : 16 + i - 8 - 8 = i := by omega
  simp only [fieldB, commandWord, BitVec.getLsbD_extractLsb', BitVec.getLsbD_append, hi, h1, h2, h3]
  simp

@[simp] theorem fieldRsv_commandWord (op a b : Nat) : fieldRsv (commandWord op a b) = 0 := by
  apply BitVec.eq_of_getLsbD_eq
  intro i hi
  have h1 : ¬ 24 + i < 8 := by omega
  have h2 : ¬ 24 + i - 8 < 8 := by omega
  have h3 : ¬ 24 + i - 8 - 8 < 8 := by omega
  simp only [fieldRsv, commandWord, BitVec.getLsbD_extractLsb', BitVec.getLsbD_append, hi, h1, h2, h3]
  simp

/-- A word is its four fields. -/
theorem word_of_fields (w : BitVec 32) : w = fieldRsv w ++ fieldB w ++ fieldA w ++ fieldOp w := by
  apply BitVec.eq_of_getLsbD_eq
  intro i hi
  simp only [fieldRsv, fieldB, fieldA, fieldOp, BitVec.getLsbD_append, BitVec.getLsbD_extractLsb']
  by_cases h1 : i < 8
  · simp [h1]
  · by_cases h2 : i - 8 < 8
    · simp [h1, h2, show 8 + (i - 8) = i by omega]
    · by_cases h3 : i - 8 - 8 < 8
      · simp [h1, h2, h3, show 16 + (i - 8 - 8) = i by omega]
      · simp [h1, h2, h3, show 24 + (i - 8 - 8 - 8) = i by omega, show i - 8 - 8 - 8 < 8 by omega]

/-- A word whose `RSV` is zero is the word of its other fields. -/
theorem commandWord_of_fields {w : BitVec 32} (h : fieldRsv w = 0) :
    commandWord (fieldOp w).toNat (fieldA w).toNat (fieldB w).toNat = w := by
  conv_rhs => rw [word_of_fields w]
  simp [commandWord, h]

/-- Two words are equal when their fields are. -/
theorem word_ext {w v : BitVec 32} :
    w = v ↔ fieldRsv w = fieldRsv v ∧ fieldB w = fieldB v ∧ fieldA w = fieldA v ∧ fieldOp w = fieldOp v := by
  refine ⟨fun h => by simp [h], fun ⟨h1, h2, h3, h4⟩ => ?_⟩
  rw [word_of_fields w, word_of_fields v, h1, h2, h3, h4]

/-! ## Match and mask -/

@[simp] theorem fieldOp_and (w m : BitVec 32) : fieldOp (w &&& m) = fieldOp w &&& fieldOp m :=
  BitVec.extractLsb'_and
@[simp] theorem fieldA_and (w m : BitVec 32) : fieldA (w &&& m) = fieldA w &&& fieldA m :=
  BitVec.extractLsb'_and
@[simp] theorem fieldB_and (w m : BitVec 32) : fieldB (w &&& m) = fieldB w &&& fieldB m :=
  BitVec.extractLsb'_and
@[simp] theorem fieldRsv_and (w m : BitVec 32) : fieldRsv (w &&& m) = fieldRsv w &&& fieldRsv m :=
  BitVec.extractLsb'_and

/-- A byte under a full mask. -/
theorem byte_and_full (x : BitVec 8) : x &&& 0xFF = x := by
  rw [show (0xFF : BitVec 8) = BitVec.allOnes 8 by decide, BitVec.and_allOnes]

/-- A byte under an empty mask. -/
theorem byte_and_none (x : BitVec 8) : x &&& 0x00 = 0 := by simp

end Sys2Proof
end

