-- ==== Sys2Proof/Laws/PerInstr.lean ====
section
/-! SUPPORT. Statements about every instruction as syntax, one lemma per constructor. -/

namespace Sys2Proof.Laws.SpellsRow

/-- The encoding of a well-formed instruction spells the instruction's own row of the opcode table: its match under its
mask (`30_encoding.md` R94), or its select code (R102). -/
def Statement (i : Instr) : Prop := i.WellFormed → i.row.spelledBy (encode i)

theorem initEnkey (klen : Nat) : Statement (.initEnkey klen) := fun _ => by
  show commandWord 1 klen 0 &&& 0xFFFF00FF = 0x00000001
  rw [word_ext]
  simp only [fieldOp_and, fieldA_and, fieldB_and, fieldRsv_and, fieldOp_commandWord, fieldA_commandWord,
    fieldB_commandWord, fieldRsv_commandWord]
  refine ⟨by decide, by decide, ?_, by decide⟩
  exact (byte_and_none _).trans (by decide)

theorem initDekey (klen : Nat) : Statement (.initDekey klen) := fun _ => by
  show commandWord 2 klen 0 &&& 0xFFFF00FF = 0x00000002
  rw [word_ext]
  simp only [fieldOp_and, fieldA_and, fieldB_and, fieldRsv_and, fieldOp_commandWord, fieldA_commandWord,
    fieldB_commandWord, fieldRsv_commandWord]
  refine ⟨by decide, by decide, ?_, by decide⟩
  exact (byte_and_none _).trans (by decide)

theorem encryptMessage (nlen tlen : Nat) : Statement (.encryptMessage nlen tlen) := fun _ => by
  show commandWord 3 nlen tlen &&& 0xFF0000FF = 0x00000003
  rw [word_ext]
  simp only [fieldOp_and, fieldA_and, fieldB_and, fieldRsv_and, fieldOp_commandWord, fieldA_commandWord,
    fieldB_commandWord, fieldRsv_commandWord]
  refine ⟨by decide, ?_, ?_, by decide⟩
  · exact (byte_and_none _).trans (by decide)
  · exact (byte_and_none _).trans (by decide)

theorem decryptMessage (nlen tlen : Nat) : Statement (.decryptMessage nlen tlen) := fun _ => by
  show commandWord 4 nlen tlen &&& 0xFF0000FF = 0x00000004
  rw [word_ext]
  simp only [fieldOp_and, fieldA_and, fieldB_and, fieldRsv_and, fieldOp_commandWord, fieldA_commandWord,
    fieldB_commandWord, fieldRsv_commandWord]
  refine ⟨by decide, ?_, ?_, by decide⟩
  · exact (byte_and_none _).trans (by decide)
  · exact (byte_and_none _).trans (by decide)

theorem msgReset : Statement .msgReset := fun _ => by
  show commandWord 5 0 0 &&& 0xFFFFFFFF = 0x00000005
  decide

theorem macInit : Statement .macInit := fun _ => rfl
theorem fmtB0 : Statement .fmtB0 := fun _ => rfl
theorem fmtAad : Statement .fmtAad := fun _ => rfl
theorem macFold : Statement .macFold := fun _ => rfl
theorem ctrLoad0 : Statement .ctrLoad0 := fun _ => rfl
theorem ctrInc : Statement .ctrInc := fun _ => rfl
theorem ksGen : Statement .ksGen := fun _ => rfl
theorem payLoad : Statement .payLoad := fun _ => rfl
theorem payXor : Statement .payXor := fun _ => rfl
theorem payStore : Statement .payStore := fun _ => rfl
theorem tagMask : Statement .tagMask := fun _ => rfl
theorem tagCmp : Statement .tagCmp := fun _ => rfl

end Sys2Proof.Laws.SpellsRow
end

