-- ==== Sys2Proof/Tests/Slice0.lean ====
section
/-! SUPPORT. Tests: every expected value is a word, a table row or a vector of `95_test_vectors.md` (or of the rule
named). Then, for each statement that has hypotheses, a state and operands that meet them. -/

namespace Sys2Proof.Tests

/-! One theorem after another: each kernel evaluation would else hold a thread of its own. -/
set_option Elab.async false

open Sys2Proof.Machine

/-! ## WellFormed refuses what no command word can hold (R91) -/

theorem test_wf_refuses_initEnkey : ¬ (Instr.initEnkey 256).WellFormed := by simp [Instr.WellFormed]
theorem test_wf_refuses_initDekey : ¬ (Instr.initDekey 256).WellFormed := by simp [Instr.WellFormed]
theorem test_wf_refuses_encryptMessage :
    ¬ (Instr.encryptMessage 256 8).WellFormed ∧ ¬ (Instr.encryptMessage 13 256).WellFormed := by
  simp [Instr.WellFormed]
theorem test_wf_refuses_decryptMessage :
    ¬ (Instr.decryptMessage 256 8).WellFormed ∧ ¬ (Instr.decryptMessage 13 256).WellFormed := by
  simp [Instr.WellFormed]

/-! ## Decoding (section 3.1; micro-operations from R102) -/

theorem test_decode_initEnkey :
    decode (.command 0x00001001) = .ok (.initEnkey 16) ∧ decode (.command 0x00000001) = .ok (.initEnkey 0) := by decide
theorem test_decode_initDekey :
    decode (.command 0x00002002) = .ok (.initDekey 32) ∧ decode (.command 0x0000FF02) = .ok (.initDekey 255) := by
  decide
theorem test_decode_encryptMessage :
    decode (.command 0x00080D03) = .ok (.encryptMessage 13 8) ∧
    decode (.command 0x00FFFF03) = .ok (.encryptMessage 255 255) := by decide
theorem test_decode_decryptMessage : decode (.command 0x00100704) = .ok (.decryptMessage 7 16) := by decide
theorem test_decode_msgReset : decode (.command 0x00000005) = .ok .msgReset := by decide

theorem test_decode_illegal_words :
    decode (.command 0x00000000) = .error .opcode ∧ decode (.command 0x00000006) = .error .opcode ∧
    decode (.command 0x01000005) = .error .reserved ∧ decode (.command 0x80080D03) = .error .reserved ∧
    decode (.command 0x00011001) = .error .operandB ∧ decode (.command 0x00000105) = .error .operandA ∧
    decode (.command 0x00010005) = .error .operandB := by decide

theorem test_decode_micro_operations :
    decode (.micro 0b0000) = .ok .macInit ∧ decode (.micro 0b0001) = .ok .fmtB0 ∧
    decode (.micro 0b0010) = .ok .fmtAad ∧ decode (.micro 0b0011) = .ok .macFold ∧
    decode (.micro 0b0100) = .ok .ctrLoad0 ∧ decode (.micro 0b0101) = .ok .ctrInc ∧
    decode (.micro 0b0110) = .ok .ksGen ∧ decode (.micro 0b0111) = .ok .payLoad ∧
    decode (.micro 0b1000) = .ok .payXor ∧ decode (.micro 0b1001) = .ok .payStore ∧
    decode (.micro 0b1010) = .ok .tagMask ∧ decode (.micro 0b1011) = .ok .tagCmp := by decide

theorem test_decode_unused_micro_codes :
    decode (.micro 0b1100) = .error .microCode ∧ decode (.micro 0b1111) = .error .microCode := by decide

theorem test_decodeTableWord :
    decodeTableWord 32 0x00080D03 = some (.encryptMessage 13 8) ∧ decodeTableWord 32 6 = none ∧
    decodeTableWord 8 11 = some .tagCmp ∧ decodeTableWord 8 12 = none := by decide

/-! ## Small states, and the test ciphers of section 2 -/

/-- `TOY` (section 2.2). -/
def toy : Cipher where
  expandKey := fun k => ⟨k⟩
  encryptBlock := fun ks b =>
    let kf := fun i => ((List.range ks.bytes.length).foldl
      (fun (a : Byte) j => if j % 16 = i then a + ks.bytes.getD j 0 else a) 0)
    let t := (List.range 16).map fun i => b.toList.getD i 0 ^^^ kf i
    let u := ((List.range 16).foldl (fun (p : Byte × List Byte) i =>
      (p.1 + t.getD i 0 + BitVec.ofNat 8 i + 1, p.2 ++ [p.1 + t.getD i 0 + BitVec.ofNat 8 i + 1])) (0, [])).2
    toBytes 16 (u.foldr (fun x (p : Byte × List Byte) => (p.1 + x, (p.1 + x) :: p.2)) (0, [])).2

/-- The `n` bytes `a`, `a + 1`, … -/
def bytesFrom (a n : Nat) : List Byte := (List.range n).map fun i => BitVec.ofNat 8 (a + i)

/-- Bytes as the listed cells of a space from offset 0 on. -/
def cellsOf (bytes : List Byte) : Memory := bytes.mapIdx fun i b => (i, b)

/-- A keyed context whose key schedule is `K16`, with `N13`, in direction `d`. -/
def keyedIn (d : Dir) : State :=
  { State.reset with
    state := .keyed, dir := d, keySchedule := some ⟨bytesFrom 0 16⟩, nonce := toBytes 13 (bytesFrom 0 13) }

/-- A message in progress on it: header and payload lengths `h` and `n`, tag length 8. -/
def running (d : Dir) (h n : Nat) : State :=
  latch 13 8 { keyedIn d with hdrLenReg := BitVec.ofNat 64 h, msgLenReg := BitVec.ofNat 64 n }

/-- The next state of an outcome, else the state given. -/
def nextOr (s : State) : Host.Outcome State Fault Refusal → State
  | .next t => t
  | .fault _ => s
  | .refused _ => s

/-- The fault an outcome is, if it is one. -/
def faultOf : Host.Outcome State Fault Refusal → Option Fault
  | .next _ => none
  | .fault f => some f
  | .refused _ => none

/-- The refusal an outcome is, if it is one. -/
def refusalOf : Host.Outcome State Fault Refusal → Option Refusal
  | .next _ => none
  | .fault _ => none
  | .refused r => some r

/-- The state after an instruction that goes on. -/
def after (i : Instr) (s : State) : State := nextOr s (exec i s)

/-! ## The step -/

theorem test_step_runs_fetched_word :
    nextOr State.reset (step (State.reset.withFetchWord 32 0x00000005)) =
      { State.reset with status := .error .badAuthCall, lastError := some .badAuthCall } := by decide +kernel

theorem test_step_runs_fetched_select_code :
    nextOr (keyedIn .enc) (step ({ State.reset with macAccumulator := toBytes 16 [1] }.withFetchWord 8 0)) =
      State.reset := by decide +kernel

/-- R238, section 3.8 row 14: an illegal word keeps the state. -/
theorem test_illegal_word :
    let t := nextOr State.reset (step { keyedIn .enc with host := [.regWrite 0 0x01000005] })
    statusWord t = 0xFFFFFFFB ∧ ctxWord t = 0x0000FB01 := by decide +kernel

/-- Section 3.8 rows 0 and 4: what the host reads. -/
theorem test_registers :
    ctxWord State.reset = 0 ∧ configWord State.reset = 1 ∧ ctxWord (keyedIn .enc) = 1 := by decide +kernel

/-! ## Commands -/

/-- Section 3.8 rows 3 and 4. -/
theorem test_initEnkey :
    ctxWord (after (.initEnkey 16) State.reset) = 0x00000001 ∧
    statusWord (after (.initEnkey 17) (keyedIn .enc)) = 0xFFFFFFFE ∧
    ctxWord (after (.initEnkey 17) (keyedIn .enc)) = 0x0000FE00 := by decide +kernel

/-- R193's example, and section 3.8's last case. -/
theorem test_initDekey :
    ctxWord (after (.initDekey 32) State.reset) = 0x00000009 ∧
    (after (.initDekey 0) { keyedIn .enc with state := .messageOk }).keySchedule = none := by decide +kernel

/-- Section 3.8 rows 2 and 7. -/
theorem test_msgReset :
    ctxWord (after .msgReset State.reset) = 0x0000FB00 ∧
    after .msgReset { keyedIn .enc with state := .error, lastError := some .badAuthCall } = keyedIn .enc := by
  decide +kernel

/-- Section 3.8 rows 8 and 12. -/
theorem test_encryptMessage_refused :
    ctxWord (after (.encryptMessage 6 3) (keyedIn .enc)) = 0x0000FC05 ∧
    ctxWord (after (.encryptMessage 13 8) { keyedIn .enc with msgLenReg := 65536 }) = 0x0000F905 := by decide +kernel

/-- Vector V2. -/
theorem test_encryptMessage_V2 :
    let t := nextOr State.reset (message toy .enc 13 8 { keyedIn .enc with
      hdr := cellsOf (bytesFrom 0 8), hdrLenReg := 8, msg := cellsOf (bytesFrom 0x20 23), msgLenReg := 23 })
    t.msg = cellsOf [0xCB, 0xC8, 0xC6, 0xFA, 0xED, 0x88, 0xAC, 0x7A, 0x0F, 0xF0, 0xAA, 0x32, 0x89, 0x30, 0xA8, 0xFD,
      0xDA, 0xD9, 0xD1, 0xEB, 0xFC, 0x99, 0xBF] ∧
    t.tagOut = toBytes 16 [0x1D, 0x66, 0xC4, 0x40, 0x89, 0x8C, 0x39, 0xBA] ∧
    t.cnt = 10 ∧ t.headerLimit = 1 ∧ t.status = .good := by decide +kernel

/-- Section 3.8 row 5: the wrong direction. -/
theorem test_decryptMessage_refused :
    ctxWord (after (.decryptMessage 13 8) (keyedIn .enc)) = 0x0000FB05 := by decide +kernel

/-- Vector V3bad, `STREAMING`. -/
theorem test_decryptMessage_V3bad :
    let t := nextOr State.reset (message toy .dec 13 8 { keyedIn .dec with
      hdr := cellsOf (bytesFrom 0 8), hdrLenReg := 8, msgLenReg := 23
      tagIn := toBytes 16 [0x1D, 0x66, 0xC4, 0x40, 0x89, 0x8C, 0x39, 0xBA]
      msg := cellsOf [0xCA, 0xC8, 0xC6, 0xFA, 0xED, 0x88, 0xAC, 0x7A, 0x0F, 0xF0, 0xAA, 0x32, 0x89, 0x30, 0xA8, 0xFD,
        0xDA, 0xD9, 0xD1, 0xEB, 0xFC, 0x99, 0xBF] })
    t.msg = cellsOf (0x21 :: bytesFrom 0x21 22) ∧
    t.tagOut = toBytes 16 [0x27, 0xBC, 0x2F, 0xCA, 0xB9, 0x56, 0x92, 0x98] ∧
    t.status = .warn ∧ t.state = .messageFailed := by decide +kernel

/-! ## Micro-operations -/

/-- Section 3.5. -/
theorem test_macInit :
    (after .macInit { running .enc 0 0 with macAccumulator := toBytes 16 (bytesFrom 1 16) }).macAccumulator =
      zeroBytes 16 := by decide +kernel

/-- Section 3.2, rows 2 and 3 (the second: largest tag, shortest nonce). -/
theorem test_fmtB0 :
    (after .fmtB0 (running .enc 8 23)).blk = [0x59] ++ bytesFrom 0 13 ++ [0x00, 0x17] ∧
    (after .fmtB0 (latch 7 16 { keyedIn .enc with nonce := toBytes 13 (bytesFrom 0xA0 7), msgLenReg := 16 })).blk =
      [0x3F, 0xA0, 0xA1, 0xA2, 0xA3, 0xA4, 0xA5, 0xA6, 0, 0, 0, 0, 0, 0, 0, 0x10] := by decide +kernel

/-- Section 3.3, the 15-byte header: its second block. -/
theorem test_fmtAad :
    let t := after .fmtAad { running .enc 15 0 with hdr := cellsOf (bytesFrom 0 15), cnt := 16 }
    t.blk = 0x0E :: zeros 15 ∧ t.cnt = 17 := by decide +kernel

/-- Section 3.3: the prefixes on both sides of each bound. -/
theorem test_aadPrefix :
    aadPrefix 65279 = [0xFE, 0xFF] ∧ aadPrefix 65280 = [0xFF, 0xFE, 0x00, 0x00, 0xFF, 0x00] ∧
    aadPrefix (2 ^ 32) = [0xFF, 0xFF, 0, 0, 0, 1, 0, 0, 0, 0] ∧ aadBlocks (2 ^ 32 - 1) = 268435457 := by decide +kernel

/-- Section 3.5, the first row and the last (7 bytes, padded). -/
theorem test_macFold :
    (nextOr State.reset (macFold toy { keyedIn .enc with
      blk := [0x19] ++ bytesFrom 0 13 ++ [0, 0] })).macAccumulator =
      toBytes 16 [0x6C, 0x52, 0x35, 0x12, 0xEA, 0xB6, 0x7B, 0x36, 0xE8, 0x82, 0x11, 0x92, 0x06, 0x66, 0xB7, 0xEB] ∧
    (nextOr State.reset (macFold toy { keyedIn .enc with
      blk := bytesFrom 0x30 7
      macAccumulator := toBytes 16
        [0x54, 0x34, 0x29, 0xFC, 0xF5, 0x79, 0x67, 0x9D, 0x86, 0xD2, 0x39, 0xC2, 0xCF, 0xDE, 0x7D, 0x6A] })).macAccumulator =
      toBytes 16 [0xF1, 0x8C, 0x21, 0x9A, 0x43, 0x22, 0xB2, 0xE4, 0x74, 0x6D, 0x81, 0x57, 0x58, 0x89, 0xD9, 0xA7] := by
  decide +kernel

/-- R162's example. -/
theorem test_ctrLoad0 :
    (after .ctrLoad0 (running .enc 0 0)).counterBlock = toBytes 16 ([0x01] ++ bytesFrom 0 13 ++ [0, 0]) := by
  decide +kernel

/-- Section 3.4: a carry inside the suffix, and none out of it. -/
theorem test_ctrInc :
    (after .ctrInc { running .enc 0 0 with
      counterBlock := toBytes 16 ([0x01] ++ bytesFrom 0 13 ++ [0x00, 0xFF]) }).counterBlock =
      toBytes 16 ([0x01] ++ bytesFrom 0 13 ++ [0x01, 0x00]) ∧
    faultOf (exec .ctrInc { running .enc 0 0 with
      counterBlock := toBytes 16 ([0x01] ++ bytesFrom 0 13 ++ [0xFF, 0xFF]) }) = some .counterWrap := by decide +kernel

/-- Section 2.2, `E(Ctr_1)`. -/
theorem test_ksGen :
    (nextOr State.reset (ksGen toy { keyedIn .enc with
      counterBlock := toBytes 16 ([0x01] ++ bytesFrom 0 13 ++ [0, 1]) })).ks =
      toBytes 16 [0xEB, 0xE9, 0xE4, 0xD9, 0xC9, 0xAD, 0x8A, 0x5D, 0x27, 0xD9, 0x80, 0x19, 0xA5, 0x1D, 0x86, 0xD2] := by
  decide +kernel

/-- R165's example: the last seven bytes of a payload of 23. -/
theorem test_payLoad :
    (after .payLoad { running .enc 0 23 with msg := cellsOf (bytesFrom 0x20 24), textPosition := 16 }).blk =
      bytesFrom 0x30 7 := by decide +kernel

/-- R166's example. -/
theorem test_payXor :
    (after .payXor { running .enc 0 3 with blk := [0x41, 0x42, 0x43], ks := toBytes 16 (bytesFrom 1 16) }).blk =
      [0x40, 0x40, 0x40] := by decide +kernel

/-- Section 3.6: `MSG[23..)` is not written. -/
theorem test_payStore :
    let t := after .payStore { running .enc 0 23 with
      msg := cellsOf (bytesFrom 0 24), textPosition := 16, blk := [0xDA, 0xD9, 0xD1, 0xEB, 0xFC, 0x99, 0xBF] }
    t.msg = cellsOf (bytesFrom 0 16 ++ [0xDA, 0xD9, 0xD1, 0xEB, 0xFC, 0x99, 0xBF] ++ [23]) ∧ t.textPosition = 23 := by
  decide +kernel

/-- Section 3.7, the first row. -/
theorem test_tagMask :
    (after .tagMask { running .enc 0 0 with
      macAccumulator := toBytes 16
        [0x6C, 0x52, 0x35, 0x12, 0xEA, 0xB6, 0x7B, 0x36, 0xE8, 0x82, 0x11, 0x92, 0x06, 0x66, 0xB7, 0xEB]
      ks := toBytes 16
        [0xEC, 0xEA, 0xE5, 0xDA, 0xCA, 0xAE, 0x8B, 0x5E, 0x28, 0xDA, 0x81, 0x1A, 0xA6, 0x1E, 0x87, 0xD3] }).tagOut =
      toBytes 16 [0x80, 0xB8, 0xD0, 0xC8, 0x20, 0x18, 0xF0, 0x68] := by decide +kernel

/-- Section 3.7: bytes from `tag_len` on are ignored, the last compared byte is not. -/
theorem test_tagCmp :
    let s := { running .dec 0 0 with tagOut := toBytes 16 [0x1D, 0x66, 0xC4, 0x40, 0x89, 0x8C, 0x39, 0xBA] }
    (after .tagCmp { s with
      tagIn := toBytes 16 [0x1D, 0x66, 0xC4, 0x40, 0x89, 0x8C, 0x39, 0xBA, 0xFF, 0xFF] }).tagMatch = true ∧
    (after .tagCmp { s with
      tagIn := toBytes 16 [0x1D, 0x66, 0xC4, 0x40, 0x89, 0x8C, 0x39, 0xBB] }).tagMatch = false := by decide +kernel

/-! ## Witnesses: states and operands that meet the hypotheses of the statements, clause by clause -/

/-- A keyed context in direction `d` with these lengths, header bytes from 0, payload bytes from 32. -/
def ready (d : Dir) (h n : Nat) : State :=
  { keyedIn d with
    hdrLenReg := BitVec.ofNat 64 h, msgLenReg := BitVec.ofNat 64 n
    hdr := cellsOf (bytesFrom 0 h), msg := cellsOf (bytesFrom 0x20 n) }

theorem ready_accepted (d : Dir) : Accepted d 7 4 (ready d 3 2) ∧ Accepted d 13 16 (ready d 3 2) := by
  constructor <;> constructor <;> cases d <;> decide +kernel

theorem witness_EncodeThenDecode : (Instr.encryptMessage 255 255).WellFormed ∧ (Instr.initEnkey 0).WellFormed ∧
    (Instr.initDekey 255).WellFormed ∧ (Instr.decryptMessage 0 255).WellFormed ∧ Instr.payStore.WellFormed := by
  simp [Instr.WellFormed]

theorem witness_DecodeThenEncode :
    decode (.command 0x00FFFF04) = .ok (.decryptMessage 255 255) ∧ decode (.micro 11) = .ok .tagCmp := by decide

theorem witness_IllegalWordsReportBadCall :
    (∀ n ∈ [0x00000000, 0x00000006, 0x01000005, 0x00011001, 0x00010002, 0x00000105, 0x00010005],
      let w := BitVec.ofNat 32 n
      (w.extractLsb' 0 8).toNat = 0 ∨ 6 ≤ (w.extractLsb' 0 8).toNat ∨ (w.extractLsb' 24 8).toNat ≠ 0 ∨
        (((w.extractLsb' 0 8).toNat = 1 ∨ (w.extractLsb' 0 8).toNat = 2) ∧ (w.extractLsb' 16 8).toNat ≠ 0) ∨
        ((w.extractLsb' 0 8).toNat = 5 ∧ ((w.extractLsb' 8 8).toNat ≠ 0 ∨ (w.extractLsb' 16 8).toNat ≠ 0))) ∧
    let s := { ready .enc 0 0 with host := [.regWrite 0 ((0x00000006 : BitVec 32).setWidth 64)] }
    s.state ≠ .processing ∧ s.sel = [] := by decide +kernel

theorem witness_StepRunsDecodedCommand :
    let s := { ready .enc 0 0 with host := [.regWrite 0 0x00080D03] }
    s.state ≠ .processing ∧ s.sel = [] ∧ s.host = [.regWrite 0 0x00080D03] ∧
    (0x00080D03 : BitVec 64).toNat < 2 ^ 32 ∧
    decode (.command ((0x00080D03 : BitVec 64).setWidth 32)) = .ok (.encryptMessage 13 8) := by decide +kernel

theorem witness_StepRunsSelectedMicroOp :
    let s := { running .enc 0 0 with sel := [4, 1, 3] }
    s.sel = 4 :: [1, 3] ∧ decode (.micro 4) = .ok .ctrLoad0 := by decide +kernel

theorem witness_EngineWaitsForTheHost :
    (ready .enc 0 0).state ≠ .processing ∧ (ready .enc 0 0).sel = [] ∧ (ready .enc 0 0).host = [] := by decide +kernel

theorem witness_HostHasNoStepInMessage :
    (running .enc 0 0).state = .processing ∧ ∃ t, step (running .enc 0 0) = .next t := ⟨rfl, _, rfl⟩

theorem witness_GroupStepsAreTheGroup : ∀ p ∈ [Phase.b0, .aad, .payload, .tag], ∀ d ∈ [Dir.enc, .dec],
    let s := { running d 3 2 with phase := p }
    s.state = .processing ∧ s.sel = [] ∧ s.phase ≠ .idle ∧
      ¬ (s.config.releasePolicy = .buffered ∧ s.dir = .dec) := by decide +kernel

theorem witness_FineGrainedRunIsTheCommand :
    (ready .enc 3 2).keySchedule ≠ none ∧ (ready .enc 3 2).sel = [] ∧ Accepted .enc 7 4 (ready .enc 3 2) ∧
    (ready .dec 3 2).keySchedule ≠ none ∧ (ready .dec 3 2).sel = [] ∧ Accepted .dec 13 16 (ready .dec 3 2) ∧
    (ready .dec 3 2).config.releasePolicy = .streaming :=
  ⟨nofun, rfl, (ready_accepted .enc).1, nofun, rfl, (ready_accepted .dec).2, rfl⟩

/-- The accesses of the four host primitives, on registers 0 to 6 and at both ends of every space. -/
theorem witness_HostAccesses :
    (∀ k ∈ [0, 1, 2, 3, 4, 5, 6],
      let s := { ready .enc 3 2 with host := [.regRead k, .regWrite k 7] }
      s.state ≠ .processing ∧ s.sel = [] ∧ s.host = .regRead k :: [.regWrite k 7]) ∧
    2 ^ 32 ≤ (0x100000000 : BitVec 64).toNat ∧
    (ready .enc 3 2).config.keySizes ≠ [] ∧
    (∀ p ∈ [(Space.key, 32), (.nonce, 13), (.tagIn, 16), (.tagOut, 16), (.hdr, 2 ^ 64), (.msg, 2 ^ 64)],
      spaceSize (ready .enc 3 2) p.1 = p.2 ∧
      let s := { ready .enc 3 2 with host := [.byteRead p.1 (p.2 - 1), .byteRead p.1 p.2] }
      s.state ≠ .processing ∧ s.sel = []) := by decide +kernel

theorem witness_StatusReadsItsCode : ∀ e ∈ [ErrorCode.badKey, .badAuthFieldLength, .badNonceLength, .badAuthCall,
    .authLengthError, .msgLengthError], ({ ready .enc 0 0 with status := .error e } : State).status = .error e := by
  decide

/-- The invariant on a keyed context and on a message in progress. -/
theorem ready_inv (d : Dir) : Inv (ready d 3 2) where
  phaseIdle := by cases d <;> decide
  keyNone := by cases d <;> decide
  keySize := by cases d <;> decide +kernel
  lengths := fun h => by cases d <;> simp [holdsMessage, ready, keyedIn] at h
  clear := fun _ => by constructor <;> cases d <;> decide +kernel
  cntInside := by cases d <;> decide +kernel
  textInside := by cases d <;> decide +kernel
  errorCode := by cases d <;> decide
  failedDec := by cases d <;> decide
  hdrWf := by cases d <;> decide +kernel
  msgWf := by cases d <;> decide +kernel
  selEmpty := by cases d <;> decide
  tempsClear := by cases d <;> decide +kernel

theorem witness_CtxShowsTheContext :
    Inv (ready .dec 3 2) ∧ (ready .dec 3 2).state ≠ .processing ∧ (ready .dec 3 2).lastError = none ∧
    (raiseStatus .badNonceLength (ready .dec 3 2)).lastError = some .badNonceLength :=
  ⟨ready_inv .dec, nofun, rfl, rfl⟩

theorem witness_ConfigIsConstant : ∃ t, step (ready .enc 3 2) = .next t := ⟨_, rfl⟩

theorem witness_CallFormsRefuseWideLengths : 255 < 256 ∧ 255 ≤ 255 := by decide

theorem witness_KeyCallFillsKeyAndRuns :
    let key := bytesFrom 0 16
    let s := { ready .enc 3 2 with host := writeBytes .key key ++ issue (.initEnkey key.length) ++ [] }
    Inv s ∧ s.state ≠ .processing ∧ key.length ≤ s.config.keyMax ∧ key.length ≤ 255 :=
  ⟨{ ready_inv .enc with lengths := fun h => by simp [holdsMessage, ready, keyedIn] at h, clear := fun _ => by constructor <;> decide +kernel },
    nofun, by decide, by decide⟩

theorem witness_ResetForgetsTheKey :
    let s := { ready .enc 3 2 with host := [.reset, .regRead 1] }
    s.state ≠ .processing ∧ s.sel = [] ∧ s.host = .reset :: [.regRead 1] ∧ s.keySchedule ≠ none := by decide +kernel

theorem witness_StepKeepsInvariant : Inv (ready .enc 3 2) ∧ (ready .enc 3 2).state ≠ .processing ∧
    ∃ t, step (ready .enc 3 2) = .next t := ⟨ready_inv .enc, nofun, _, rfl⟩

/-- The invariant does not look at what the host will do. -/
theorem ready_host_inv (d : Dir) (acts : List HostAction) : Inv { ready d 3 2 with host := acts } :=
  have c := (ready_inv d).clear (by cases d <;> simp [holdsMessage, ready, keyedIn])
  { ready_inv d with
    lengths := fun h => by cases d <;> simp [holdsMessage, ready, keyedIn] at h
    clear := fun _ => ⟨c.1, c.2, c.3, c.4, c.5, c.6, c.7, c.8, c.9⟩ }

theorem witness_CommandsAreAtomic :
    let s := { ready .dec 3 2 with host := [.regWrite 0 5] }
    Inv s ∧ s.state ≠ .processing ∧ ∃ t, step s = .next t := ⟨ready_host_inv .dec _, nofun, _, rfl⟩

/-- One state for each access that is refused, at the boundary of what exists. -/
theorem witness_CommandsNeverFault :
    ∀ a ∈ [HostAction.regRead 6, .regWrite 6 0, .regWrite 0 0x100000000, .byteRead .nonce 13, .byteWrite .key 32 0],
      let s := { ready .enc 3 2 with host := [a] }
      Inv s ∧ s.state ≠ .processing ∧ (refusalOf (step s)).isSome := fun a ha =>
  ⟨ready_host_inv .enc [a], nofun, by revert a; decide +kernel⟩

/-- A message in progress, about to run the group of `p`, with `c` stream bytes and `t` payload bytes done. -/
def atGroup (p : Phase) (c t : Nat) : State :=
  { running .dec 17 18 with
    phase := p, cnt := BitVec.ofNat 65 c, textPosition := BitVec.ofNat 64 t
    counterBlock := ctrBlock (nonceBytes (running .dec 17 18)) (t / 16) }

theorem atGroup_inv (p : Phase) (c t : Nat) (hp : p ≠ .idle)
    (hc : (atGroup p c t).cnt.toNat ≤ aadTotal (atGroup p c t).headerLen.toNat)
    (ht : (atGroup p c t).textPosition.toNat ≤ (atGroup p c t).msgLen.toNat) : Inv (atGroup p c t) where
  phaseIdle := ⟨fun h => absurd h hp, fun h => absurd rfl h⟩
  keyNone := by constructor <;> nofun
  keySize := by show (running .dec 17 18).key.length = (running .dec 17 18).config.keyMax; decide +kernel
  lengths := fun _ => by
    constructor
    · show nonceLenLegal (running .dec 17 18).nonceLen.toNat; decide +kernel
    · show tagLenLegal (running .dec 17 18).tagLen.toNat; decide +kernel
    · show (running .dec 17 18).msgLen.toNat < 2 ^ (8 * (15 - (running .dec 17 18).nonceLen.toNat)); decide +kernel
    · show (running .dec 17 18).msgLen.toNat ≤ (running .dec 17 18).config.lenMax; decide +kernel
    · show (running .dec 17 18).headerLen.toNat ≤ (running .dec 17 18).config.lenMax; decide +kernel
    · show (running .dec 17 18).headerLimit.toNat = aadBlocks (running .dec 17 18).headerLen.toNat; decide +kernel
  clear := fun h => absurd (.inl rfl) h
  cntInside := hc
  textInside := ht
  errorCode := nofun
  failedDec := nofun
  hdrWf := by show Memory.wf []; decide
  msgWf := by show Memory.wf []; decide
  selEmpty := fun h => absurd rfl h
  tempsClear := fun h => absurd rfl h

/-- Each boundary of `AtBoundary`: before the first group, at the second associated-data block, at the last payload
block (two bytes), before the tag. -/
theorem witness_GroupsNeverFault :
    GroupReady (atGroup .b0 0 0) ∧ GroupReady (atGroup .aad 16 0) ∧ GroupReady (atGroup .payload 19 16) ∧
    GroupReady (atGroup .tag 19 18) :=
  ⟨⟨atGroup_inv _ _ _ nofun (by decide +kernel) (by decide +kernel), rfl, rfl, by
      show _ ∧ _; decide +kernel⟩,
    ⟨atGroup_inv _ _ _ nofun (by decide +kernel) (by decide +kernel), rfl, rfl, by
      show _ ∧ _ ∧ _ ∧ _; decide +kernel⟩,
    ⟨atGroup_inv _ _ _ nofun (by decide +kernel) (by decide +kernel), rfl, rfl, by
      show _ ∧ _ ∧ _ ∧ _; decide +kernel⟩,
    ⟨atGroup_inv _ _ _ nofun (by decide +kernel) (by decide +kernel), rfl, rfl, by
      show _ ∧ _; decide +kernel⟩⟩

theorem witness_KeySetupResult :
    16 ∈ (ready .enc 3 2).config.keySizes ∧ 32 ∈ (ready .enc 3 2).config.keySizes ∧
    17 ∉ (ready .enc 3 2).config.keySizes ∧ 0 ∉ (ready .enc 3 2).config.keySizes := by decide

theorem witness_MsgResetResult : (ready .enc 3 2).state ≠ .unkeyed ∧ State.reset.state = .unkeyed := by decide

/-- A keyed context without long messages and with a header of 2^32 bytes. -/
def longHeader : State :=
  { State.resetOf { Config.defaultBuild with longMessages := false } with
    state := .keyed, keySchedule := some ⟨[]⟩, hdrLenReg := 0x100000000 }

/-- A keyed context with a payload of 65536 bytes. -/
def longPayload : State := { ready .enc 0 0 with msgLenReg := 65536 }

/-- One state for each cause, at the boundary values of `95_test_vectors.md` 1.2, 1.3 and 3.8. -/
theorem witness_RefusedMessageChangesOnlyStatus :
    ¬ (State.reset.state = .keyed ∧ State.reset.dir = .enc) ∧
    ¬ ((ready .dec 0 0).state = .keyed ∧ (ready .dec 0 0).dir = .enc) ∧
    (longHeader.state = .keyed ∧ longHeader.dir = .enc) ∧ (longPayload.state = .keyed ∧ longPayload.dir = .enc) ∧
    ¬ (7 ≤ 6 ∧ 6 ≤ 13) ∧ ¬ (7 ≤ 14 ∧ 14 ≤ 13) ∧ 3 ∉ [4, 6, 8, 10, 12, 14, 16] ∧ 18 ∉ [4, 6, 8, 10, 12, 14, 16] ∧
    ¬ longHeader.hdrLenReg.toNat ≤ (if longHeader.config.longMessages then 2 ^ 64 - 1 else 2 ^ 32 - 1) ∧
    longPayload.hdrLenReg.toNat ≤ (if longPayload.config.longMessages then 2 ^ 64 - 1 else 2 ^ 32 - 1) ∧
    ¬ longPayload.msgLenReg.toNat < 2 ^ (8 * (15 - 13)) := by decide +kernel

/-- Also for BufferedKeepsMsgOnMismatch and MessageFootprint, which ask no more. -/
theorem witness_AcceptedMessageGivesClosedForm :
    (ready .enc 3 2).keySchedule = some ⟨bytesFrom 0 16⟩ ∧ Accepted .enc 7 4 (ready .enc 3 2) ∧
    (ready .dec 3 2).keySchedule = some ⟨bytesFrom 0 16⟩ ∧ Accepted .dec 13 16 (ready .dec 3 2) :=
  ⟨rfl, (ready_accepted .enc).1, rfl, (ready_accepted .dec).2⟩

/-- The state an encryption of one byte leaves, with the bound cipher. -/
def encrypted : State := after (.encryptMessage 7 4) (ready .enc 0 1)

/-- A context keyed to decrypt what `encrypted` holds, with a tag to compare. -/
def received (tagIn : Block) : State := { ready .dec 0 1 with msg := encrypted.msg, tagIn := tagIn }

theorem one_accepted (d : Dir) : Accepted d 7 4 (ready d 0 1) := by
  constructor <;> cases d <;> decide +kernel

theorem received_accepted (tagIn : Block) : Accepted .dec 7 4 (received tagIn) where
  keyed := rfl
  direction := rfl
  nonce := (one_accepted .dec).nonce
  tag := (one_accepted .dec).tag
  header := (one_accepted .dec).header
  fits := (one_accepted .dec).fits
  message := (one_accepted .dec).message

theorem releaseAfter_tagOut (a b : State) : (releaseAfter a b).tagOut = b.tagOut := by
  unfold releaseAfter; split <;> rfl

/-- The three groups of a message of one byte and no header end with a next state. -/
theorem one_completes (d : Dir) (s : State) (ha : Accepted d 7 4 s) (hk : s.keySchedule = some ⟨bytesFrom 0 16⟩)
    (hc : checkMessage d 7 4 s = none) (hh : s.hdrLenReg = 0) (hm : s.msgLenReg = 1) :
    ∃ t, message Config.cipher d 7 4 s = .next t ∧ t.tagOut =
      maskedTag (macAfter Config.cipher ⟨bytesFrom 0 16⟩ d 7 4 s 0 1)
        (Config.cipher.encryptBlock ⟨bytesFrom 0 16⟩ (ctrBlock (s.nonce.toList.take 7) 0)) 4 := by
  have h0 : aadBlocks s.hdrLenReg.toNat = 0 := by rw [hh]; rfl
  have h1 : payloadBlocks s.msgLenReg.toNat = 1 := by rw [hm]; rfl
  have hg : groupCount (latch 7 4 s) = 3 := by
    show 2 + (BitVec.ofNat 64 (aadBlocks s.hdrLenReg.toNat)).toNat + payloadBlocks s.msgLenReg.toNat = 3
    rw [h0, h1]; rfl
  have g2 := group_payload (c := Config.cipher) ha hk (i := 0) (by rw [h1]; decide)
  have g3 := group_tag (c := Config.cipher) ha hk rfl
  rw [h0] at g2 g3
  rw [h1] at g3
  rw [message, hc]
  simp only
  rw [runMessage, hg, runGroups, if_neg (by show ¬ Phase.b0 = .idle; decide), group_b0 ha hk, andThen_next, runGroups,
    if_neg (by show ¬ (if _ then _ else if _ then _ else _) = Phase.idle; rw [h0, h1]; decide), g2, andThen_next,
    runGroups, if_neg (by show ¬ (if _ then _ else if _ then _ else _) = Phase.idle; rw [h0, h1]; decide), g3,
    andThen_next, runGroups, if_pos rfl, andThen_next]
  refine ⟨_, rfl, ?_⟩
  rw [releaseAfter_tagOut]

theorem encrypted_eq : exec (.encryptMessage 7 4) (ready .enc 0 1) = .next encrypted := by
  obtain ⟨t, ht, -⟩ := one_completes .enc (ready .enc 0 1) (one_accepted .enc) rfl (by decide +kernel) rfl rfl
  rw [encrypted, after, show exec (.encryptMessage 7 4) (ready .enc 0 1) = .next t from ht]
  rfl

theorem witness_DecryptionUndoesEncryption :
    (ready .enc 0 1).keySchedule ≠ none ∧ Accepted .enc 7 4 (ready .enc 0 1) ∧
    Accepted .dec 7 4 (received encrypted.tagOut) ∧
    (received encrypted.tagOut).keySchedule = (ready .enc 0 1).keySchedule ∧
    (received encrypted.tagOut).nonce = (ready .enc 0 1).nonce ∧
    (received encrypted.tagOut).hdrLenReg = (ready .enc 0 1).hdrLenReg ∧
    (received encrypted.tagOut).hdr = (ready .enc 0 1).hdr ∧
    (received encrypted.tagOut).msgLenReg = (ready .enc 0 1).msgLenReg ∧
    exec (.encryptMessage 7 4) (ready .enc 0 1) = .next encrypted ∧
    (received encrypted.tagOut).msg = encrypted.msg ∧ (received encrypted.tagOut).tagIn = encrypted.tagOut :=
  ⟨nofun, one_accepted .enc, received_accepted _, rfl, rfl, rfl, rfl, rfl, encrypted_eq, rfl, rfl⟩

/-- The tag the engine computes for what it has received; no byte of `TAG_IN` goes into it. -/
def receivedTag : Block :=
  maskedTag (macAfter Config.cipher ⟨bytesFrom 0 16⟩ .dec 7 4 (received (zeroBytes 16)) 0 1)
    (Config.cipher.encryptBlock ⟨bytesFrom 0 16⟩ (ctrBlock ((received (zeroBytes 16)).nonce.toList.take 7) 0)) 4

theorem received_tag (x : Block) : ∃ t, exec (.decryptMessage 7 4) (received x) = .next t ∧ t.tagOut = receivedTag := by
  have hm : ∀ (s : State) (y : Block), macAfter Config.cipher ⟨bytesFrom 0 16⟩ .dec 7 4 { s with tagIn := y } 0 1 =
      macAfter Config.cipher ⟨bytesFrom 0 16⟩ .dec 7 4 s 0 1 := fun _ _ => rfl
  have hr : received x = { received (zeroBytes 16) with tagIn := x } := rfl
  obtain ⟨t, ht, h⟩ := one_completes .dec (received x) (received_accepted x) rfl
    (show checkMessage .dec 7 4 (ready .dec 0 1) = none by decide +kernel) rfl rfl
  refine ⟨t, ht, h.trans ?_⟩
  rw [receivedTag, hr, hm]

/-- A matching tag, and one that differs in its first byte. -/
theorem witness_DecryptStatusIsTheTagComparison :
    (received receivedTag).keySchedule ≠ none ∧
    (∃ t, exec (.decryptMessage 7 4) (received receivedTag) = .next t ∧
      t.tagOut.toList.take 4 = (received receivedTag).tagIn.toList.take 4) ∧
    (let x := putByte receivedTag 0 (receivedTag.toList.getD 0 0 ^^^ 1)
      ∃ t, exec (.decryptMessage 7 4) (received x) = .next t ∧
        t.tagOut.toList.take 4 ≠ (received x).tagIn.toList.take 4) := by
  refine ⟨nofun, ?_, ?_⟩
  · obtain ⟨t, ht, h⟩ := received_tag receivedTag
    exact ⟨t, ht, by rw [h]; rfl⟩
  · intro x
    obtain ⟨t, ht, h⟩ := received_tag x
    refine ⟨t, ht, fun e => ?_⟩
    have e0 := congrArg (fun l => l.getD 0 0) e
    simp only [take_getD (show 0 < 4 by decide), h] at e0
    have hx : (received x).tagIn.toList.getD 0 0 = receivedTag.toList.getD 0 0 ^^^ 1 := by
      show (putByte receivedTag 0 _).toList.getD 0 0 = _
      rw [putByte_getD, if_pos ⟨rfl, by decide⟩]
    rw [hx] at e0
    have hne : ∀ v : Byte, v ≠ v ^^^ 1 := by decide
    exact hne _ e0

theorem witness_BytesBeyondLengthsIgnored :
    let s := ready .enc 3 2
    let nonce := putByte s.nonce 7 0xEE
    let tagIn := putByte s.tagIn 4 0xEE
    nonce ≠ s.nonce ∧ tagIn ≠ s.tagIn ∧ nonce.toList.take 7 = s.nonce.toList.take 7 ∧
    tagIn.toList.take 4 = s.tagIn.toList.take 4 ∧
    (∀ a < s.hdrLenReg.toNat, Memory.byteAt? (Memory.put s.hdr 3 0xEE) a = Memory.byteAt? s.hdr a) := by decide +kernel

theorem witness_ErrorIsSticky :
    (raiseStatus .badNonceLength (ready .enc 3 2)).state = .error := rfl

/-- The rows of R190: an accepted and a refused key length, `UNKEYED` and not, `KEYED` with an accepted and with a
refused message, an illegal word. -/
theorem witness_StateTransitions :
    ((ready .dec 3 2).keySchedule = none ↔ (ready .dec 3 2).state = .unkeyed) ∧
    (State.reset.keySchedule = none ↔ State.reset.state = .unkeyed) ∧ (ready .dec 3 2).state = .keyed ∧
    24 ∈ (ready .dec 3 2).config.keySizes ∧ 25 ∉ (ready .dec 3 2).config.keySizes ∧
    Accepted .dec 13 16 (ready .dec 3 2) ∧ ¬ Accepted .dec 14 16 (ready .dec 3 2) ∧
    (∀ i, decodeCommand 0 ≠ .ok i) :=
  ⟨by constructor <;> nofun, by constructor <;> intro <;> rfl, rfl, by decide, by decide, (ready_accepted .dec).2,
    fun h => absurd h.nonce (by decide), fun _ => nofun⟩

theorem witness_B0FlagsFields :
    4 ∈ [4, 6, 8, 10, 12, 14, 16] ∧ 16 ∈ [4, 6, 8, 10, 12, 14, 16] ∧ 7 ≤ 7 ∧ 13 ≤ 13 := by decide

/-- A nonce of 7 bytes and the longest payload, and one of 13 bytes. -/
theorem witness_FmtB0Result :
    (∀ p ∈ [(7, 4, 0xFFFFFFFFFFFFFFFF), (13, 16, 0xFFFF)],
      let s := latch p.1 p.2.1 { ready .enc 3 2 with msgLenReg := BitVec.ofNat 64 p.2.2 };
      7 ≤ s.nonceLen.toNat ∧ s.nonceLen.toNat ≤ 13 ∧ s.tagLen.toNat ∈ [4, 6, 8, 10, 12, 14, 16] ∧
      s.msgLen.toNat < 2 ^ (8 * (15 - s.nonceLen.toNat))) := by decide +kernel

theorem witness_AadPrefixForms :
    (0 < 1 ∧ 1 < 65280) ∧ (0 < 65279 ∧ 65279 < 65280) ∧ (65280 ≤ 65280 ∧ 2 ^ 32 - 1 < 2 ^ 32) ∧
    (2 ^ 32 ≤ 2 ^ 32 ∧ 2 ^ 64 - 1 < 2 ^ 64) := by decide

/-- The first bytes of a stream, its last byte, and a header that needs the long prefix. -/
theorem witness_FmtAadResult :
    (∀ c ∈ [0, 16, 18], let s := atGroup .aad c 0;
      0 < s.headerLen.toNat ∧ s.cnt.toNat < plen s.headerLen.toNat + s.headerLen.toNat ∧
      (s.config.longMessages = true ∨ s.headerLen.toNat < 2 ^ 32)) ∧
    (let s := latch 13 8 { ready .enc 0 0 with hdrLenReg := 0x100000000 };
      0 < s.headerLen.toNat ∧ s.cnt.toNat < plen s.headerLen.toNat + s.headerLen.toNat ∧
      s.config.longMessages = true) := by decide +kernel

/-- A block of one byte and one of sixteen; `KsGenResult` asks for the key schedule only. -/
theorem witness_MacFoldResult : ∀ b ∈ [[0x55], bytesFrom 1 16],
    let s := { ready .enc 3 2 with blk := b }
    let x := xorBlock s.macAccumulator (pad16 b)
    s.keySchedule = some ⟨bytesFrom 0 16⟩ ∧ 1 ≤ s.blk.length ∧ s.blk.length ≤ 16 ∧
    ∀ i < 16, x.toList.getD i 0 =
      s.macAccumulator.toList.getD i 0 ^^^ (if i < s.blk.length then s.blk.getD i 0 else 0) := by decide +kernel

/-- The nonce lengths 7 and 13 of `CtrLoad0Result` and `CtrIncResult`, and the last counter block before the wrap and
the one at it. -/
theorem witness_CtrIncResult : ∀ n ∈ [7, 13],
    let s := latch n 8 (ready .enc 3 2);
    7 ≤ s.nonceLen.toNat ∧ s.nonceLen.toNat ≤ 13 ∧
    unbe ((toBytes 16 (List.replicate 15 0xFF ++ [0xFE])).toList.drop (16 - (15 - n))) + 1 < 2 ^ (8 * (15 - n)) ∧
    2 ^ (8 * (15 - n)) ≤ unbe ((toBytes 16 (List.replicate 16 0xFF)).toList.drop (16 - (15 - n))) + 1 := by
  decide +kernel

theorem witness_PayloadResults :
    (∀ t ∈ [0, 17], (atGroup .payload 19 t).textPosition.toNat < (atGroup .payload 19 t).msgLen.toNat) ∧
    (∀ b ∈ [[], bytesFrom 1 16],
      let s := { atGroup .payload 19 2 with blk := b }
      s.blk.length ≤ 16 ∧ s.textPosition.toNat + s.blk.length ≤ s.msgLen.toNat) := by decide +kernel

/-- `CountersNeverCollide` and `IncrementStepsTheIndex`, for the shortest and the longest nonce. -/
theorem witness_Counters : ∀ n ∈ [7, 13],
    7 ≤ (bytesFrom 0 n).length ∧ (bytesFrom 0 n).length ≤ 13 ∧
    (0 < 2 ^ (8 * (15 - n)) ∧ 2 ^ (8 * (15 - n)) - 1 < 2 ^ (8 * (15 - n)) ∧ 0 ≠ 2 ^ (8 * (15 - n)) - 1) ∧
    (2 ^ (8 * (15 - n)) - 2) + 1 < 2 ^ (8 * (15 - n)) ∧ (2 ^ (8 * (15 - n)) - 1) + 1 = 2 ^ (8 * (15 - n)) := by
  decide +kernel

/-- `TagMaskResult` and `TagCmpResult`, at both ends. -/
theorem witness_TagResults : ∀ t ∈ [0, 16], (latch 13 t (ready .dec 3 2)).tagLen.toNat ≤ 16 := by decide +kernel

/-- One state for each stop, at the boundary of the domain. -/
theorem witness_MicroOpsStopOutsideTheirDomain :
    (∀ n ∈ [6, 14], let s := latch n 8 (ready .enc 3 2); ¬ (7 ≤ s.nonceLen.toNat ∧ s.nonceLen.toNat ≤ 13)) ∧
    (∀ t ∈ [2, 5, 18], (latch 13 t (ready .enc 3 2)).tagLen.toNat ∉ [4, 6, 8, 10, 12, 14, 16]) ∧
    2 ^ (8 * (15 - 13)) ≤ (latch 13 8 longPayload).msgLen.toNat ∧
    (latch 13 8 (ready .enc 0 0)).headerLen.toNat = 0 ∧
    plen (atGroup .aad 19 0).headerLen.toNat + (atGroup .aad 19 0).headerLen.toNat ≤ (atGroup .aad 19 0).cnt.toNat ∧
    (let s := latch 7 8 longHeader;
      2 ^ 32 ≤ s.headerLen.toNat ∧ s.cnt.toNat < plen s.headerLen.toNat + s.headerLen.toNat ∧
      s.config.longMessages = false) ∧
    ([] : List Byte).length = 0 ∧ 16 < (bytesFrom 0 17).length ∧ State.reset.keySchedule = none ∧
    (atGroup .tag 19 18).msgLen.toNat ≤ (atGroup .tag 19 18).textPosition.toNat ∧
    (let s := { atGroup .payload 19 17 with blk := bytesFrom 0 2 };
      s.msgLen.toNat < s.textPosition.toNat + s.blk.length) ∧
    16 < (latch 13 17 (ready .enc 3 2)).tagLen.toNat := by decide +kernel

/-! ## Call forms (`30_encoding.md` R99) -/

theorem ready_no_host (d : Dir) : Inv (ready d 3 2) ∧ (ready d 3 2).state ≠ .processing :=
  ⟨ready_inv d, by cases d <;> nofun⟩

/-- Key lengths 0, accepted, and the longest a command word holds. -/
theorem witness_KeyAndResetCallsReturnStatus :
    (Inv (ready .enc 3 2) ∧ (ready .enc 3 2).state ≠ .processing) ∧ ∀ n ∈ [0, 16, 255], n ≤ 255 :=
  ⟨ready_no_host .enc, by decide⟩

/-- Buffers given and buffers already resident, the largest that fit among them. -/
theorem witness_MessageCallsReadBackByStatus :
    (∀ d, Inv (ready d 3 2) ∧ (ready d 3 2).state ≠ .processing) ∧ (7 ≤ 255 ∧ 16 ≤ 255 ∧ 255 ≤ 255) ∧
    (Buffer.given (bytesFrom 0 3)).Fits (spaceSize (ready .enc 3 2) .hdr) ∧
    (Buffer.given []).Fits (spaceSize (ready .enc 3 2) .msg) ∧
    (Buffer.resident 2).Fits (spaceSize (ready .enc 3 2) .msg) ∧
    (Buffer.resident 0xFFFFFFFFFFFFFFFF).Fits (spaceSize (ready .enc 3 2) .hdr) :=
  ⟨ready_no_host, by decide, ⟨by decide +kernel, by decide⟩, ⟨by decide +kernel, by decide⟩, by
    show _ ≤ _; decide +kernel, by show _ ≤ _; decide +kernel⟩

/-- What a call returns, if it ends. -/
def returnOf (o : Host.Outcome CallReturn Fault Refusal) : Option CallReturn :=
  match o with
  | .next r => some r
  | _ => none

/-- What a form reads back for a status, if the wrapper lets the call through. -/
def readBackOf (form : Except ErrorCode CallForm) (status : BitVec 32) : Option (List HostAction) :=
  match form with
  | .ok f => some (f.readBack status)
  | .error _ => none

/-- An encryption reads back on 0, a decryption on 0 and 1: the message, given or resident, then the tag. -/
theorem test_call_reads_back :
    let given := callEncryptMessage (bytesFrom 0 13) 13 (.given []) (.given [7]) 4
    let resident := callDecryptMessage (bytesFrom 0 13) 13 (.given []) (.resident 1) [] 4
    let all := [HostAction.byteRead .msg 0, .byteRead .tagOut 0, .byteRead .tagOut 1, .byteRead .tagOut 2,
      .byteRead .tagOut 3]
    readBackOf given 0 = some all ∧ readBackOf given 1 = some [] ∧ readBackOf given 0xFFFFFFFB = some [] ∧
    readBackOf resident 0 = some all ∧ readBackOf resident 1 = some all ∧ readBackOf resident 0xFFFFFFFB = some [] := by
  decide +kernel

/-- Without a key the operands are written, the command is refused with -5 and nothing is read back. -/
theorem test_call_refused_reads_nothing_back :
    ((returnOf (performCall (callDecryptMessage (bytesFrom 0 13) 13 (.given [9]) (.given [1]) (bytesFrom 0 8) 8)
      State.reset)).map fun r => (r.status, r.readBack, r.after.hdrByte 0, r.after.tagIn.toList.getD 7 0)) =
      some (0xFFFFFFFB, [], 9, 7) := by decide +kernel

theorem test_call_wide_length_returns_its_code :
    ((returnOf (performCall (callEncryptMessage [] 13 (.resident 0) (.resident 0) 256) State.reset)).map
      fun r => (r.status, r.readBack, decide (r.after = State.reset))) = some (0xFFFFFFFD, [], true) := by decide +kernel

end Sys2Proof.Tests
end

section
/-! Where a micro-operation stops: the counterpart of `Laws` on next states, one lemma per stop, and the statement
assembled from them. -/

namespace Sys2Proof.Machine

variable {s : State}

/-! ## The domain of `L` (`00_scope.md` R11) -/

theorem execCtrLoad0_fault_nonceLength (hn : ¬ nonceLenLegal s.nonceLen.toNat) :
    execCtrLoad0 s = .fault .nonceLength := by
  rw [execCtrLoad0, latchedL_of_not_legal hn]

theorem execCtrInc_fault_nonceLength (hn : ¬ nonceLenLegal s.nonceLen.toNat) :
    execCtrInc s = .fault .nonceLength := by
  rw [execCtrInc, latchedL_of_not_legal hn]

theorem execFmtB0_fault_nonceLength (hn : ¬ nonceLenLegal s.nonceLen.toNat) :
    execFmtB0 s = .fault .nonceLength := by
  rw [execFmtB0, latchedL_of_not_legal hn]

/-! ## The formatter (`41_formatter.md` R131, R134, R138) -/

/-- With a legal nonce length, `FMT_B0` is left with the checks on the tag length and the message length. -/
theorem execFmtB0_of_nonceLenLegal (hn : nonceLenLegal s.nonceLen.toNat) : execFmtB0 s =
    if ¬ tagLenLegal s.tagLen.toNat then .fault .tagLength
    else if 2 ^ (8 * (15 - s.nonceLen.toNat)) ≤ s.msgLen.toNat then .fault .lengthField
    else .next { s with blk := b0Bytes s.headerLen.toNat s.tagLen.toNat (nonceBytes s) s.msgLen.toNat } := by
  rw [execFmtB0, latchedL_of_legal hn]

theorem execFmtB0_fault_tagLength (hn : nonceLenLegal s.nonceLen.toNat) (ht : ¬ tagLenLegal s.tagLen.toNat) :
    execFmtB0 s = .fault .tagLength := by
  rw [execFmtB0_of_nonceLenLegal hn, if_pos ht]

theorem execFmtB0_fault_lengthField (hn : nonceLenLegal s.nonceLen.toNat) (ht : tagLenLegal s.tagLen.toNat)
    (hm : 2 ^ (8 * (15 - s.nonceLen.toNat)) ≤ s.msgLen.toNat) : execFmtB0 s = .fault .lengthField := by
  rw [execFmtB0_of_nonceLenLegal hn, if_neg (not_not.mpr ht), if_pos hm]

theorem execFmtAad_fault_aadExhausted
    (h : s.headerLen.toNat = 0 ∨ aadTotal s.headerLen.toNat ≤ s.cnt.toNat) :
    execFmtAad s = .fault .aadExhausted := if_pos h

/-- A header of `2^32` bytes is not empty, so of the two checks before the prefix form only the one on `cnt` is left
to assume. -/
theorem execFmtAad_fault_noPrefixForm (hh : 2 ^ 32 ≤ s.headerLen.toNat)
    (hc : s.cnt.toNat < aadTotal s.headerLen.toNat) (hl : s.config.longMessages = false) :
    execFmtAad s = .fault .noPrefixForm := by
  have unexhausted : ¬ (s.headerLen.toNat = 0 ∨ aadTotal s.headerLen.toNat ≤ s.cnt.toNat) := by omega
  exact (if_neg unexhausted).trans (if_pos ⟨hl, hh⟩)

/-! ## The cipher's key and the MAC accumulator (`40_block_cipher.md` R122, `42_mac_accumulator.md` R152) -/

theorem withE_fault_noKeySchedule {c : Cipher} {b : Block} {f : Block → State} (hk : s.keySchedule = none) :
    withE c s b f = .fault .noKeySchedule := by
  rw [withE, hk]

theorem macFold_fault_blockLength {c : Cipher} (hb : s.blk.length = 0 ∨ 16 < s.blk.length) :
    macFold c s = .fault .blockLength := if_pos hb

theorem macFold_fault_noKeySchedule {c : Cipher} (hb : 1 ≤ s.blk.length ∧ s.blk.length ≤ 16)
    (hk : s.keySchedule = none) : macFold c s = .fault .noKeySchedule := by
  have legal : ¬ (s.blk.length = 0 ∨ 16 < s.blk.length) := by omega
  rw [macFold, if_neg legal, withE_fault_noKeySchedule hk]

theorem ksGen_fault_noKeySchedule {c : Cipher} (hk : s.keySchedule = none) :
    ksGen c s = .fault .noKeySchedule := withE_fault_noKeySchedule hk

/-! ## The payload (`43_counter_cipher.md` R165, R166; `20_memory.md` R63) -/

theorem execPayLoad_fault_payloadExhausted (h : s.msgLen.toNat ≤ s.textPosition.toNat) :
    execPayLoad s = .fault .payloadExhausted := if_pos h

theorem execPayXor_fault_blockLength (hb : 16 < s.blk.length) : execPayXor s = .fault .blockLength := if_pos hb

theorem execPayStore_fault_storeOutside
    (h : 16 < s.blk.length ∨ s.msgLen.toNat < s.textPosition.toNat + s.blk.length) :
    execPayStore s = .fault .storeOutside := if_pos h

/-! ## The tag (`44_tag.md` R181, R183) -/

theorem execTagMask_fault_tagLength (ht : 16 < s.tagLen.toNat) : execTagMask s = .fault .tagLength := if_pos ht

theorem execTagCmp_fault_tagLength (ht : 16 < s.tagLen.toNat) : execTagCmp s = .fault .tagLength := if_pos ht

end Sys2Proof.Machine

namespace Sys2Proof

open Sys2Proof.Machine

/-- Settles O55: `exec` hands each micro-operation to its meaning, whose stops are the lemmas above. -/
theorem microOpsStopOutsideTheirDomain : Obligations.MicroOpsStopOutsideTheirDomain := fun _ =>
  ⟨fun hn => ⟨execFmtB0_fault_nonceLength hn, execCtrLoad0_fault_nonceLength hn, execCtrInc_fault_nonceLength hn⟩,
    execFmtB0_fault_tagLength,
    execFmtB0_fault_lengthField,
    execFmtAad_fault_aadExhausted,
    execFmtAad_fault_noPrefixForm,
    macFold_fault_blockLength,
    macFold_fault_noKeySchedule,
    ksGen_fault_noKeySchedule,
    execPayLoad_fault_payloadExhausted,
    execPayXor_fault_blockLength,
    execPayStore_fault_storeOutside,
    fun ht => ⟨execTagMask_fault_tagLength ht, execTagCmp_fault_tagLength ht⟩⟩

end Sys2Proof
end

section
/-! What a step can be: one inversion of `step`, with the commands a word can spell and what a host access leaves. Later
proofs about every step go through it instead of through `fetch` and the decoder. -/

namespace Sys2Proof

/-- A command word spells one of the five commands, never a micro-operation (`30_encoding.md` R92, R102). -/
theorem decodeCommand_ok_cases {w : BitVec 32} {i : Instr} (h : decodeCommand w = .ok i) :
    (∃ klen, i = .initEnkey klen) ∨ (∃ klen, i = .initDekey klen) ∨ (∃ nlen tlen, i = .encryptMessage nlen tlen) ∨
      (∃ nlen tlen, i = .decryptMessage nlen tlen) ∨ i = .msgReset := by
  unfold decodeCommand decodeK decodeM decodeZ at h
  split_ifs at h <;> cases h <;> simp

/-- A select code spells a micro-operation (R102). -/
theorem decode_micro_ok {c : BitVec 4} {i : Instr} (h : decode (.micro c) = .ok i) :
    ∃ m : MicroOp, decodeMicro c = .ok m ∧ i = m.toInstr := by
  rw [decode] at h
  cases hm : decodeMicro c with
  | error e => rw [hm] at h; cases h
  | ok m => rw [hm] at h; cases h; exact ⟨m, rfl, rfl⟩

end Sys2Proof

namespace Sys2Proof.Machine

variable {s t : State}

/-! ## Host accesses -/

/-- `t` differs from `s` in operand registers, buffers and the host's own fields only; `KEY` keeps its size and the
buffers their canonical form. -/
structure SameButOperands (s t : State) : Prop where
  engine : t = { s with
    msgLenReg := t.msgLenReg, hdrLenReg := t.hdrLenReg, key := t.key, nonce := t.nonce, tagIn := t.tagIn
    hdr := t.hdr, msg := t.msg, host := t.host, reads := t.reads }
  keySize : t.key.length = s.key.length
  hdrWf : Memory.wf s.hdr → Memory.wf t.hdr
  msgWf : Memory.wf s.msg → Memory.wf t.msg

theorem SameButOperands.config (h : SameButOperands s t) : t.config = s.config := by rw [h.engine]

theorem hostRegWrite_sameButOperands {k : Nat} {v : BitVec 64} (h : hostRegWrite s k v = some t) :
    SameButOperands s t := by
  unfold hostRegWrite at h
  split at h <;> cases h <;> exact ⟨rfl, rfl, id, id⟩

theorem hostSetByte_sameButOperands {sp : Space} {i : Nat} (v : Byte) (hi : i < spaceSize s sp) :
    SameButOperands s (hostSetByte s sp i v) := by
  cases sp with
  | key => exact ⟨rfl, List.length_set, id, id⟩
  | nonce | tagIn | tagOut => exact ⟨rfl, rfl, id, id⟩
  | hdr => exact ⟨rfl, rfl, Memory.put_wf v (lt_of_lt_of_le hi (Nat.min_le_right _ _)), id⟩
  | msg => exact ⟨rfl, rfl, id, Memory.put_wf v (lt_of_lt_of_le hi (Nat.min_le_right _ _))⟩

/-- A host access writes operands only, but for the reset (`20_memory.md` R61, `70_reset_and_hazards.md` R260). -/
theorem hostAction_next {a : HostAction} (h : hostAction a s = .next t) :
    t = applyReset s ∨ SameButOperands s t := by
  unfold hostAction at h
  split at h
  case h_1 k =>
    cases hr : hostRegRead s k with
    | none => rw [hr] at h; cases h
    | some v => rw [hr] at h; cases h; exact .inr ⟨rfl, rfl, id, id⟩
  case h_2 => cases h
  case h_3 k v _ =>
    cases hw : hostRegWrite s k v with
    | none => rw [hw] at h; cases h
    | some u => rw [hw] at h; cases h; exact .inr (hostRegWrite_sameButOperands hw)
  case h_4 sp i =>
    split at h <;> cases h
    exact .inr ⟨rfl, rfl, id, id⟩
  case h_5 sp i v =>
    split at h <;> cases h
    next hi => exact .inr (hostSetByte_sameButOperands v hi)
  case h_6 => cases h; exact .inl rfl

/-! ## Commands -/

/-- How a command can go on: a key setup, a message reset, or a message command. -/
inductive CommandTo (s : State) : State → Prop
  | keySetup (d : Dir) (klen : Nat) : CommandTo s (initKey Config.cipher d klen s)
  | msgReset {t : State} (h : execMsgReset s = .next t) : CommandTo s t
  | message {t : State} {d : Dir} {nlen tlen : Nat} (h : message Config.cipher d nlen tlen s = .next t) : CommandTo s t

theorem exec_command_cases {w : BitVec 32} {i : Instr} (hi : decodeCommand w = .ok i) (h : exec i s = .next t) :
    CommandTo s t := by
  obtain ⟨klen, rfl⟩ | ⟨klen, rfl⟩ | ⟨nlen, tlen, rfl⟩ | ⟨nlen, tlen, rfl⟩ | rfl := decodeCommand_ok_cases hi
  · cases h; exact .keySetup .enc klen
  · cases h; exact .keySetup .dec klen
  · exact .message h
  · exact .message h
  · exact .msgReset h

/-! ## Steps -/

/-- How a step can go on: a micro-operation of the running group, the rest of a `BUFFERED` decryption (R214), or, with
no message in progress and no group running, nothing, a host access, an illegal word or a command (R71, R261). -/
inductive StepTo (s : State) : State → Prop
  | micro {c : BitVec 4} {rest : List (BitVec 4)} {m : MicroOp} {u : State} (hc : pendingCodes s = c :: rest)
      (hw : ¬ (s.sel = [] ∧ wholeOnly s)) (hd : decodeMicro c = .ok m)
      (hm : microMeaning Config.cipher m { s with sel := rest } = .next u) : StepTo s (closeGroup u)
  | resume {t : State} (hp : s.state = .processing) (hsel : s.sel = []) (hw : wholeOnly s)
      (h : runMessage Config.cipher s = .next t) : StepTo s t
  | idle (hp : s.state ≠ .processing) (hsel : s.sel = []) (hhost : s.host = []) : StepTo s s
  | access {t : State} {a : HostAction} {rest : List HostAction} (hp : s.state ≠ .processing) (hsel : s.sel = [])
      (hhost : s.host = a :: rest) (ha : commandOf a = none) (h : hostAction a { s with host := rest } = .next t) :
      StepTo s t
  | illegal {a : HostAction} {rest : List HostAction} {w : BitVec 32} {e : DecodeError} (hp : s.state ≠ .processing)
      (hsel : s.sel = []) (hhost : s.host = a :: rest) (ha : commandOf a = some w) (hd : decodeCommand w = .error e) :
      StepTo s (illegalCommand { s with host := rest })
  | command {t : State} {a : HostAction} {rest : List HostAction} {w : BitVec 32} {i : Instr}
      (hp : s.state ≠ .processing) (hsel : s.sel = []) (hhost : s.host = a :: rest) (ha : commandOf a = some w)
      (hd : decodeCommand w = .ok i) (h : exec i { s with host := rest } = .next t) : StepTo s t

theorem pendingCodes_eq_nil (h : pendingCodes s = []) (hp : s.state ≠ .processing) : s.sel = [] := by
  unfold pendingCodes at h
  rwa [if_neg fun hs => hp hs.2] at h

/-- What the machine does next when no message is in progress: the host acts, or nobody does. -/
theorem stepTo_of_not_processing (hp : s.state ≠ .processing) (hsel : s.sel = []) (h : step s = .next t) :
    StepTo s t := by
  rw [step, fetch_idle hp hsel, fetchHost] at h
  cases hh : s.host with
  | nil => rw [hh] at h; cases h; exact .idle hp hsel hh
  | cons a rest =>
    rw [hh] at h
    cases hw : commandOf a with
    | none => simp only [hw] at h; exact .access hp hsel hh hw h
    | some w =>
      simp only [hw] at h
      cases hd : decode (.command w) with
      | ok i => simp only [hd] at h; exact .command hp hsel hh hw hd h
      | error e => simp only [hd] at h; cases h; exact .illegal hp hsel hh hw hd

/-- A step that issues a select code: its micro-operation, and the end of the group after the last one (R205). -/
theorem stepTo_of_pendingCodes {c : BitVec 4} {rest : List (BitVec 4)} (hc : pendingCodes s = c :: rest)
    (hw : ¬ (s.sel = [] ∧ wholeOnly s)) (h : step s = .next t) : StepTo s t := by
  rw [step, fetch, hc] at h
  simp only [if_neg hw] at h
  cases hd : decode (.micro c) with
  | error e => simp only [hd] at h; cases h
  | ok i =>
    simp only [hd] at h
    obtain ⟨m, hm, rfl⟩ := decode_micro_ok hd
    obtain ⟨u, hu, e⟩ := andThen_eq_next.mp h
    cases e
    rw [exec_toInstr] at hu
    exact .micro hc hw hm hu

/-- Everything a step that goes on can be. -/
theorem step_cases (h : step s = .next t) : StepTo s t := by
  cases hc : pendingCodes s with
  | nil =>
    by_cases hp : s.state = .processing
    · rw [step, fetch, hc] at h
      simp only [if_pos hp] at h
      cases h
    · exact stepTo_of_not_processing hp (pendingCodes_eq_nil hc hp) h
  | cons c rest =>
    by_cases hw : s.sel = [] ∧ wholeOnly s
    · have hp : s.state = .processing := by
        by_contra hp
        rw [pendingCodes, if_neg fun hs => hp hs.2, hw.1] at hc
        cases hc
      rw [step, fetch, hc] at h
      simp only [if_pos hw] at h
      exact .resume hp hw.1 hw.2 h
    · exact stepTo_of_pendingCodes hc hw h

end Sys2Proof.Machine
end

section
/-! What the end of a group and a run of groups can do (`45_controller.md` R205, R206, R211, R212), and when a message
command passes its checks (R196 to R198). -/

namespace Sys2Proof.Machine

variable {c : Cipher} {s t : State}

/-! ## The end of a group -/

theorem nextPhase_ne_idle (s : State) : nextPhase s ≠ .idle := by
  unfold nextPhase; split_ifs <;> decide

theorem endGroup_of_phase_ne_tag (h : s.phase ≠ .tag) :
    endGroup s = clearTemps { s with phase := nextPhase s } := by
  rw [endGroup, if_neg h]

theorem endGroup_of_phase_tag (h : s.phase = .tag) : endGroup s = clearTemps (finishMessage s) := by
  rw [endGroup, if_pos h]

theorem finishMessage_cases (s : State) :
    (s.dir = .dec ∧ finishMessage s = { s with state := .messageFailed, phase := .idle, status := .warn }) ∨
      finishMessage s = { s with state := .messageOk, phase := .idle, status := .good } := by
  unfold finishMessage
  split_ifs with h
  · exact .inl ⟨h.1, rfl⟩
  · exact .inr rfl

@[simp] theorem endGroup_sel (s : State) : (endGroup s).sel = s.sel := by
  unfold endGroup finishMessage; split_ifs <;> rfl

@[simp] theorem endGroup_config (s : State) : (endGroup s).config = s.config := by
  unfold endGroup finishMessage; split_ifs <;> rfl

@[simp] theorem closeGroup_config (s : State) : (closeGroup s).config = s.config := by
  unfold closeGroup; split_ifs <;> simp

/-! ## Runs of groups -/

theorem runGroup_next : runGroup c s = .next t ↔
    s.phase ≠ .idle ∧ ∃ u, runOps c (groupOps s.phase s.dir) s = .next u ∧ t = endGroup u := by
  unfold runGroup
  split_ifs with h
  · simp [h]
  · simp only [andThen_eq_next, Host.Outcome.next.injEq, ne_eq, h, not_false_eq_true, true_and, eq_comm (a := t)]

/-- What every group keeps, a run of groups keeps. -/
theorem runGroups_induction {P : State → Prop} (group : ∀ {s t}, runGroup c s = .next t → P s → P t) {n : Nat}
    (h : runGroups c n s = .next t) (hs : P s) : P t := by
  induction n generalizing s with
  | zero =>
    rw [runGroups] at h
    split at h <;> cases h
    exact hs
  | succ n ih =>
    rw [runGroups] at h
    split at h
    · cases h; exact hs
    · obtain ⟨u, hu, h⟩ := andThen_eq_next.mp h
      exact ih h (group hu hs)

/-- What is kept by every group and by the release policy, a whole message keeps. -/
theorem runMessage_induction {P : State → Prop} (group : ∀ {s t}, runGroup c s = .next t → P s → P t)
    (release : ∀ {u}, P u → P (releaseAfter s u)) (h : runMessage c s = .next t) (hs : P s) : P t := by
  obtain ⟨u, hu, h⟩ := andThen_eq_next.mp h
  cases h
  exact release (runGroups_induction group hu hs)

theorem releaseAfter_sameButOperands {before after : State} (h : Memory.wf before.msg) :
    SameButOperands after (releaseAfter before after) := by
  unfold releaseAfter
  split_ifs
  · exact ⟨rfl, rfl, id, fun _ => h⟩
  · exact ⟨rfl, rfl, id, id⟩

@[simp] theorem releaseAfter_config (before after : State) : (releaseAfter before after).config = after.config := by
  unfold releaseAfter; split_ifs <;> rfl

/-! ## The checks -/

theorem checkSequencing_eq_none {d : Dir} : checkSequencing d s = none ↔ s.state = .keyed ∧ s.dir = d := by
  unfold checkSequencing
  split_ifs with h <;> simp <;> tauto

theorem checkNonceAndTag_eq_none {nlen tlen : Nat} :
    checkNonceAndTag nlen tlen = none ↔ nonceLenLegal nlen ∧ tagLenLegal tlen := by
  unfold checkNonceAndTag
  split_ifs with hn ht <;> simp only [false_iff, true_iff] <;> tauto

theorem checkLengths_eq_none {nlen : Nat} : checkLengths nlen s = none ↔
    s.hdrLenReg.toNat ≤ s.config.lenMax ∧ s.msgLenReg.toNat < 2 ^ (8 * (15 - nlen)) ∧
      s.msgLenReg.toNat ≤ s.config.lenMax := by
  unfold checkLengths
  split_ifs with hh hm <;> simp only [false_iff, true_iff] <;> omega

/-- A message command passes its checks exactly under the conditions of R196 to R198. -/
theorem checkMessage_eq_none {d : Dir} {nlen tlen : Nat} :
    checkMessage d nlen tlen s = none ↔ Accepted d nlen tlen s := by
  rw [checkMessage, Option.or_eq_none_iff, Option.or_eq_none_iff, checkSequencing_eq_none, checkNonceAndTag_eq_none,
    checkLengths_eq_none]
  exact ⟨fun ⟨⟨hk, hd⟩, ⟨hn, ht⟩, hh, hf, hm⟩ => ⟨hk, hd, hn, ht, hh, hf, hm⟩,
    fun ⟨hk, hd, hn, ht, hh, hf, hm⟩ => ⟨⟨hk, hd⟩, ⟨hn, ht⟩, hh, hf, hm⟩⟩

/-- A message command either reports the first check that fails or runs the groups of the latched message (R195). -/
theorem message_next {d : Dir} {nlen tlen : Nat} (h : message c d nlen tlen s = .next t) :
    (∃ code, t = raiseStatus code s) ∨
      Accepted d nlen tlen s ∧ runMessage c (latch nlen tlen s) = .next t := by
  unfold message at h
  cases hc : checkMessage d nlen tlen s with
  | some code => rw [hc] at h; cases h; exact .inl ⟨code, rfl⟩
  | none => rw [hc] at h; exact .inr ⟨checkMessage_eq_none.mp hc, h⟩

/-- The number of associated-data blocks fits its field (R25). -/
theorem headerLimit_toNat (x : BitVec 64) : (BitVec.ofNat 64 (aadBlocks x.toNat)).toNat = aadBlocks x.toNat := by
  have hlt := aadTotal_lt x
  have hblocks : aadBlocks x.toNat < 2 ^ 64 := by
    unfold aadBlocks
    split_ifs
    · decide
    · rw [ceilDiv_eq]; omega
  exact Nat.mod_eq_of_lt hblocks

end Sys2Proof.Machine
end

section
/-! The invariant, kept by each kind of step (`10_state.md` R21, R27, R29, R31, R38). -/

namespace Sys2Proof.Machine

variable {s t : State}

/-! ## The invariant while a message is in progress -/

/-- What the invariant says of a message in progress, where the temporaries and the codes to issue are free. -/
structure InMessage (s : State) : Prop where
  processing : s.state = .processing
  phase : s.phase ≠ .idle
  keyed : s.keySchedule ≠ none
  keySize : s.key.length = s.config.keyMax
  lengths : LengthsLegal s
  cntInside : s.cnt.toNat ≤ aadTotal s.headerLen.toNat
  textInside : s.textPosition.toNat ≤ s.msgLen.toNat
  hdrWf : Memory.wf s.hdr
  msgWf : Memory.wf s.msg

theorem inv_iff_inMessage (hp : s.state = .processing) : Inv s ↔ InMessage s where
  mp h := {
    processing := hp
    phase := fun hi => h.phaseIdle.mp hi hp
    keyed := fun hk => by cases hp.symm.trans (h.keyNone.mp hk)
    keySize := h.keySize
    lengths := h.lengths (.inl hp)
    cntInside := h.cntInside
    textInside := h.textInside
    hdrWf := h.hdrWf
    msgWf := h.msgWf }
  mpr h := {
    phaseIdle := ⟨fun hi => absurd hi h.phase, fun hn => absurd hp hn⟩
    keyNone := ⟨fun hk => absurd hk h.keyed, fun hu => by cases hp.symm.trans hu⟩
    keySize := h.keySize
    lengths := fun _ => h.lengths
    clear := fun hn => absurd (.inl hp) hn
    cntInside := h.cntInside
    textInside := h.textInside
    errorCode := fun he => by cases hp.symm.trans he
    failedDec := fun hf => by cases hp.symm.trans hf
    hdrWf := h.hdrWf
    msgWf := h.msgWf
    selEmpty := fun hn => absurd hp hn
    tempsClear := fun hn => absurd hp hn }

theorem InMessage.inv (h : InMessage s) : Inv s := (inv_iff_inMessage h.processing).mpr h

theorem Inv.inMessage_of_phase (h : Inv s) (hp : s.phase ≠ .idle) : InMessage s :=
  (inv_iff_inMessage (by_contra fun hn => hp (h.phaseIdle.mpr hn))).mp h

theorem InMessage.withSel (h : InMessage s) (x : List (BitVec 4)) : InMessage { s with sel := x } :=
  have l := h.lengths
  { h with lengths := ⟨l.nonce, l.tag, l.fits, l.msgMax, l.hdrMax, l.limit⟩ }

theorem LengthsLegal.of_sameContext (hc : SameContext s t) (h : LengthsLegal s) : LengthsLegal t where
  nonce := by rw [hc.nonceLen]; exact h.nonce
  tag := by rw [hc.tagLen]; exact h.tag
  fits := by rw [hc.msgLen, hc.nonceLen]; exact h.fits
  msgMax := by rw [hc.msgLen, hc.config]; exact h.msgMax
  hdrMax := by rw [hc.headerLen, hc.config]; exact h.hdrMax
  limit := by rw [hc.headerLimit, hc.headerLen]; exact h.limit

/-- Micro-operations keep it, whichever are issued and in whatever order. -/
theorem InMessage.of_frame (hf : SameContext s t ∧ KeepsInside s t) (h : InMessage s) : InMessage t := by
  obtain ⟨hc, hi⟩ := hf
  exact {
    processing := hc.state.trans h.processing
    phase := ne_of_eq_of_ne hc.phase h.phase
    keyed := ne_of_eq_of_ne hc.keySchedule h.keyed
    keySize := by rw [hc.key, hc.config]; exact h.keySize
    lengths := h.lengths.of_sameContext hc
    cntInside := hi.cnt h.cntInside
    textInside := hi.text h.textInside
    hdrWf := by rw [hc.hdr]; exact h.hdrWf
    msgWf := hi.wf h.msgWf }

/-- The end of a message: the latched lengths stay legal, and nothing of the group stays. -/
theorem InMessage.ended (h : InMessage s) (hsel : s.sel = []) {st : CtxState} {x : Status}
    (hst : st = .messageOk ∨ st = .messageFailed ∧ s.dir = .dec) :
    Inv (clearTemps { s with state := st, phase := .idle, status := x }) := by
  have l := h.lengths
  have holds : st = .messageOk ∨ st = .messageFailed := hst.imp_right And.left
  have hne : st ≠ .processing ∧ st ≠ .unkeyed ∧ st ≠ .error := by
    rcases holds with rfl | rfl <;> decide
  exact {
    phaseIdle := ⟨fun _ => hne.1, fun _ => rfl⟩
    keyNone := ⟨fun hk => absurd hk h.keyed, fun hu => absurd hu hne.2.1⟩
    keySize := h.keySize
    lengths := fun _ => ⟨l.nonce, l.tag, l.fits, l.msgMax, l.hdrMax, l.limit⟩
    clear := fun hn => absurd (.inr holds) hn
    cntInside := h.cntInside
    textInside := h.textInside
    errorCode := fun he => absurd he hne.2.2
    failedDec := fun hf => hst.elim (fun ho => by cases hf.symm.trans ho) And.right
    hdrWf := h.hdrWf
    msgWf := h.msgWf
    selEmpty := fun _ => hsel
    tempsClear := fun _ => ⟨rfl, rfl, rfl⟩ }

/-- The end of a group: the next group, or the end of the message (R205). -/
theorem InMessage.inv_endGroup (h : InMessage s) (hsel : s.sel = []) : Inv (endGroup s) := by
  by_cases ht : s.phase = .tag
  · rw [endGroup_of_phase_tag ht]
    rcases finishMessage_cases s with ⟨hd, e⟩ | e <;> rw [e]
    · exact h.ended hsel (.inr ⟨rfl, hd⟩)
    · exact h.ended hsel (.inl rfl)
  · rw [endGroup_of_phase_ne_tag ht]
    have l := h.lengths
    have next : InMessage (clearTemps { s with phase := nextPhase s }) :=
      { h with
        phase := nextPhase_ne_idle s
        lengths := ⟨l.nonce, l.tag, l.fits, l.msgMax, l.hdrMax, l.limit⟩ }
    exact next.inv

theorem InMessage.inv_closeGroup (h : InMessage s) : Inv (closeGroup s) := by
  unfold closeGroup
  split_ifs with hs
  · exact h.inv_endGroup hs.1
  · exact h.inv

/-! ## Whole messages -/

/-- A group run whole keeps the invariant, no code being left to issue. -/
theorem Inv.runGroup {c : Cipher} (hg : runGroup c s = .next t) (h : Inv s ∧ s.sel = []) : Inv t ∧ t.sel = [] := by
  obtain ⟨hp, u, hu, rfl⟩ := runGroup_next.mp hg
  have frame := runOps_frame hu
  have hsel : u.sel = [] := frame.1.sel.trans h.2
  exact ⟨((h.1.inMessage_of_phase hp).of_frame frame).inv_endGroup hsel, (endGroup_sel u).trans hsel⟩

/-! ## Outside a message -/

theorem Inv.of_sameButOperands (ho : SameButOperands s t) (h : Inv s) : Inv t := by
  obtain ⟨engine, keySize, hdrWf, msgWf⟩ := ho
  rw [engine]
  exact { h with
    keySize := keySize.trans h.keySize
    lengths := fun hm =>
      have l := h.lengths hm
      ⟨l.nonce, l.tag, l.fits, l.msgMax, l.hdrMax, l.limit⟩
    clear := fun hn =>
      have f := h.clear hn
      ⟨f.counterBlock, f.macAccumulator, f.headerLen, f.headerLimit, f.msgLen, f.cnt, f.textPosition, f.nonceLen,
        f.tagLen⟩
    hdrWf := hdrWf h.hdrWf
    msgWf := msgWf h.msgWf }

theorem Inv.runMessage {c : Cipher} (hr : runMessage c s = .next t) (h : Inv s) (hsel : s.sel = []) : Inv t :=
  have kept := runMessage_induction (P := fun u => Inv u ∧ u.sel = []) Inv.runGroup
    (fun hu =>
      have released := releaseAfter_sameButOperands h.msgWf
      ⟨hu.1.of_sameButOperands released, by rw [released.engine]; exact hu.2⟩) hr ⟨h, hsel⟩
  kept.1

/-- The state after reset has the invariant, for every build (`10_state.md` R50). -/
theorem inv_resetOf (b : Build) : Inv (State.resetOf b) where
  phaseIdle := ⟨nofun, fun _ => rfl⟩
  keyNone := ⟨fun _ => rfl, fun _ => rfl⟩
  keySize := List.length_replicate
  lengths := by rintro (h | h | h) <;> cases h
  clear := fun _ => ⟨rfl, rfl, rfl, rfl, rfl, rfl, rfl, rfl, rfl⟩
  cntInside := Nat.zero_le _
  textInside := Nat.le_refl _
  errorCode := nofun
  failedDec := nofun
  hdrWf := ⟨List.Pairwise.nil, nofun⟩
  msgWf := ⟨List.Pairwise.nil, nofun⟩
  selEmpty := fun _ => rfl
  tempsClear := fun _ => ⟨rfl, rfl, rfl⟩

theorem Inv.applyReset (h : Inv s) : Inv (applyReset s) :=
  (inv_resetOf s.config).of_sameButOperands ⟨rfl, rfl, fun _ => h.hdrWf, fun _ => h.msgWf⟩

/-- A command that only reports: a status, its code, and `KEYED` perhaps becoming `ERROR` (R236, R238). -/
theorem Inv.reported (h : Inv s) {st : CtxState} (code : ErrorCode) (x : Status)
    (hst : st = s.state ∨ s.state = .keyed ∧ st = .error) :
    Inv { s with status := x, lastError := some code, state := st } := by
  rcases hst with rfl | ⟨hk, rfl⟩
  · exact { h with
      lengths := fun hm =>
        have l := h.lengths hm
        ⟨l.nonce, l.tag, l.fits, l.msgMax, l.hdrMax, l.limit⟩
      clear := fun hn =>
        have f := h.clear hn
        ⟨f.counterBlock, f.macAccumulator, f.headerLen, f.headerLimit, f.msgLen, f.cnt, f.textPosition, f.nonceLen,
          f.tagLen⟩
      errorCode := fun _ => nofun }
  · have hp : s.state ≠ .processing := by rw [hk]; decide
    have hm : ¬ holdsMessage s := by rw [holdsMessage, hk]; decide
    have f := h.clear hm
    exact { h with
      phaseIdle := ⟨fun _ => nofun, fun _ => h.phaseIdle.mpr hp⟩
      keyNone := ⟨fun hn => (by cases hk.symm.trans (h.keyNone.mp hn)), nofun⟩
      lengths := by rintro (h | h | h) <;> cases h
      clear := fun _ => ⟨f.counterBlock, f.macAccumulator, f.headerLen, f.headerLimit, f.msgLen, f.cnt,
        f.textPosition, f.nonceLen, f.tagLen⟩
      errorCode := fun _ => nofun
      failedDec := nofun
      selEmpty := fun _ => h.selEmpty hp
      tempsClear := fun _ => h.tempsClear hp }

/-- A command that ends in `KEYED` or `UNKEYED` with the per-message fields cleared (R33, R192, R194). -/
theorem Inv.cleared (h : Inv s) (hp : s.state ≠ .processing) {k : Option KeySchedule} {st : CtxState} (d : Dir)
    (tag : Block) (e : Option ErrorCode) (x : Status) (hst : st = .keyed ∧ k ≠ none ∨ st = .unkeyed ∧ k = none) :
    Inv { clearMessageFields s with
      keySchedule := k, dir := d, state := st, tagOut := tag, lastError := e, status := x } := by
  have hne : st = .keyed ∨ st = .unkeyed := hst.imp And.left And.left
  have noMessage : ¬ (st = .processing ∨ st = .messageOk ∨ st = .messageFailed) := by
    rcases hne with rfl | rfl <;> decide
  exact {
    phaseIdle := ⟨fun _ hpr => noMessage (.inl hpr), fun _ => h.phaseIdle.mpr hp⟩
    keyNone := by
      rcases hst with ⟨rfl, hk⟩ | ⟨rfl, hk⟩
      · exact ⟨fun hn => absurd hn hk, nofun⟩
      · exact ⟨fun _ => rfl, fun _ => hk⟩
    keySize := h.keySize
    lengths := fun hm => absurd hm noMessage
    clear := fun _ => ⟨rfl, rfl, rfl, rfl, rfl, rfl, rfl, rfl, rfl⟩
    cntInside := Nat.zero_le _
    textInside := Nat.le_refl _
    errorCode := fun he => by rcases hne with rfl | rfl <;> cases he
    failedDec := fun hf => absurd (.inr (.inr hf)) noMessage
    hdrWf := h.hdrWf
    msgWf := h.msgWf
    selEmpty := fun _ => h.selEmpty hp
    tempsClear := fun _ => h.tempsClear hp }

/-! ## Commands -/

theorem Inv.initKey (h : Inv s) (hp : s.state ≠ .processing) (c : Cipher) (d : Dir) (klen : Nat) :
    Inv (initKey c d klen s) := by
  unfold Machine.initKey
  split_ifs
  · exact h.cleared hp _ _ _ _ (.inl ⟨rfl, nofun⟩)
  · exact h.cleared hp _ _ _ _ (.inr ⟨rfl, rfl⟩)

theorem Inv.msgReset (hr : execMsgReset s = .next t) (h : Inv s) (hp : s.state ≠ .processing) : Inv t := by
  unfold execMsgReset at hr
  split_ifs at hr with hu <;> cases hr
  · exact h.reported .badAuthCall _ (.inl rfl)
  · exact h.cleared hp _ _ _ _ (.inl ⟨rfl, fun hk => hu (h.keyNone.mp hk)⟩)

theorem Inv.raiseStatus (h : Inv s) (code : ErrorCode) : Inv (raiseStatus code s) := by
  refine h.reported code _ ?_
  split_ifs with hk
  · exact .inr ⟨hk, rfl⟩
  · exact .inl rfl

/-- The latched state of an accepted message (R199): its lengths are the ones that were checked. -/
theorem Inv.latch (h : Inv s) {d : Dir} {nlen tlen : Nat} (ha : Accepted d nlen tlen s) : Inv (latch nlen tlen s) := by
  have hn : (BitVec.ofNat 8 nlen).toNat = nlen := nonceLenValue ha
  have ht : (BitVec.ofNat 8 tlen).toNat = tlen := (tagLenValue ha).1
  have latched : InMessage (Machine.latch nlen tlen s) := {
    processing := rfl
    phase := nofun
    keyed := fun hk => by cases ha.keyed.symm.trans (h.keyNone.mp hk)
    keySize := h.keySize
    lengths := {
      nonce := by rw [latch_nonceLen, hn]; exact ha.nonce
      tag := by rw [latch_tagLen, ht]; exact ha.tag
      fits := by rw [latch_msgLen, latch_nonceLen, hn]; exact ha.fits
      msgMax := ha.message
      hdrMax := ha.header
      limit := headerLimit_toNat _ }
    cntInside := Nat.zero_le _
    textInside := Nat.zero_le _
    hdrWf := h.hdrWf
    msgWf := h.msgWf }
  exact latched.inv

theorem Inv.message {c : Cipher} {d : Dir} {nlen tlen : Nat} (hm : message c d nlen tlen s = .next t) (h : Inv s)
    (hp : s.state ≠ .processing) : Inv t := by
  rcases message_next hm with ⟨code, rfl⟩ | ⟨ha, hr⟩
  · exact h.raiseStatus code
  · exact (h.latch ha).runMessage hr (h.selEmpty hp)

theorem Inv.command (hc : CommandTo s t) (h : Inv s) (hp : s.state ≠ .processing) : Inv t := by
  cases hc with
  | keySetup d klen => exact h.initKey hp _ d klen
  | msgReset hr => exact h.msgReset hr hp
  | message hm => exact h.message hm hp

/-! ## Steps -/

/-- The invariant does not look at what the host will do. -/
theorem Inv.withHost (h : Inv s) (rest : List HostAction) : Inv { s with host := rest } :=
  h.of_sameButOperands ⟨rfl, rfl, id, id⟩

/-- A code is issued only while a message is in progress (R206). -/
theorem Inv.processing_of_pendingCodes (h : Inv s) {c : BitVec 4} {rest : List (BitVec 4)}
    (hc : pendingCodes s = c :: rest) : s.state = .processing := by
  by_contra hp
  rw [pendingCodes, if_neg fun hs => hp hs.2, h.selEmpty hp] at hc
  cases hc

theorem Inv.step (hs : step s = .next t) (h : Inv s) : Inv t := by
  cases step_cases hs with
  | micro hc _ _ hm =>
    have inMessage := (inv_iff_inMessage (h.processing_of_pendingCodes hc)).mp h
    exact ((inMessage.withSel _).of_frame (microMeaning_frame hm)).inv_closeGroup
  | resume _ hsel _ hr => exact h.runMessage hr hsel
  | idle => exact h
  | @access _ _ rest _ _ _ _ ha =>
    rcases hostAction_next ha with rfl | same
    · exact (h.withHost rest).applyReset
    · exact (h.withHost rest).of_sameButOperands same
  | @illegal _ rest => exact (h.withHost rest).reported .badAuthCall _ (.inl rfl)
  | @command _ _ rest _ _ hp _ _ _ hd he => exact (h.withHost rest).command (exec_command_cases hd he) hp

end Sys2Proof.Machine

namespace Sys2Proof

open Sys2Proof.Machine

/-- Settles O24, by the kinds of step there are. -/
theorem stepKeepsInvariant : Obligations.StepKeepsInvariant := fun _ _ h hs => h.step hs

/-- Settles O23. -/
theorem resetHasInvariant : Obligations.ResetHasInvariant := ⟨inv_resetOf, inv_resetOf _⟩

end Sys2Proof
end

section
/-! The registers the host reads the build and the context from (`10_state.md` R37, R39), and that the build is
constant. -/

namespace Sys2Proof.Machine

variable {s t : State}

/-! ## The build -/

theorem runMessage_config {c : Cipher} (h : runMessage c s = .next t) : t.config = s.config := by
  refine runMessage_induction (P := fun u => u.config = s.config) (fun hg hu => ?_) (fun hu => ?_) h rfl
  · obtain ⟨-, v, hv, rfl⟩ := runGroup_next.mp hg
    rw [endGroup_config, (runOps_frame hv).1.config, hu]
  · rw [releaseAfter_config, hu]

theorem config_of_commandTo (h : CommandTo s t) : t.config = s.config := by
  cases h with
  | keySetup d klen => unfold initKey; split_ifs <;> rfl
  | msgReset h => unfold execMsgReset at h; split_ifs at h <;> cases h <;> rfl
  | message h =>
    rcases message_next h with ⟨code, rfl⟩ | ⟨-, hr⟩
    · rfl
    · exact (runMessage_config hr).trans (latch_config _ _ s)

theorem step_config (h : step s = .next t) : t.config = s.config := by
  cases step_cases h with
  | micro _ _ _ hm => rw [closeGroup_config, (microMeaning_frame hm).1.config]
  | resume _ _ _ hr => exact runMessage_config hr
  | idle => rfl
  | access _ _ _ _ ha =>
    rcases hostAction_next ha with rfl | same
    · rfl
    · exact same.config
  | illegal => rfl
  | command _ _ _ _ hd he => exact (config_of_commandTo (exec_command_cases hd he)).trans (rfl : _ = s.config)

/-! ## `CONFIG` (R39) -/

theorem configWord_bit0 (s : State) : (configWord s).extractLsb' 0 1 = longMessagesBit s.config := by
  unfold configWord
  rw [BitVec.extractLsb'_append_eq_right]

theorem configWord_bit1 (s : State) : (configWord s).extractLsb' 1 1 = releasePolicyBit s.config := by
  unfold configWord
  rw [BitVec.extractLsb'_append_eq_of_le (by decide), BitVec.extractLsb'_append_eq_right]

theorem configWord_reserved (s : State) : (configWord s).extractLsb' 2 30 = 0 := by
  unfold configWord
  iterate 2 rw [BitVec.extractLsb'_append_eq_of_le (by decide)]
  rw [BitVec.extractLsb'_eq_self]

theorem longMessagesBit_eq_one {b : Build} : longMessagesBit b = 1 ↔ b.longMessages = true := by
  unfold longMessagesBit
  cases b.longMessages <;> decide

theorem releasePolicyBit_eq_one {b : Build} : releasePolicyBit b = 1 ↔ b.releasePolicy = .buffered := by
  unfold releasePolicyBit
  cases b.releasePolicy <;> decide

/-! ## `CTX` (R37)

Each field is reached by leaving out the fields below it. -/

theorem ctxWord_state (s : State) : (ctxWord s).extractLsb' 0 3 = s.state.code := by
  unfold ctxWord
  rw [BitVec.extractLsb'_append_eq_right]

theorem ctxWord_dir (s : State) : (ctxWord s).extractLsb' 3 1 = s.dir.code := by
  unfold ctxWord
  rw [BitVec.extractLsb'_append_eq_of_le (by decide), BitVec.extractLsb'_append_eq_right]

theorem ctxWord_phase (s : State) : (ctxWord s).extractLsb' 4 3 = s.phase.code := by
  unfold ctxWord
  iterate 2 rw [BitVec.extractLsb'_append_eq_of_le (by decide)]
  rw [BitVec.extractLsb'_append_eq_right]

theorem ctxWord_bit7 (s : State) : (ctxWord s).extractLsb' 7 1 = 0 := by
  unfold ctxWord
  iterate 3 rw [BitVec.extractLsb'_append_eq_of_le (by decide)]
  rw [BitVec.extractLsb'_append_eq_right]

theorem ctxWord_lastError (s : State) : (ctxWord s).extractLsb' 8 8 = lastErrorByte s := by
  unfold ctxWord
  iterate 4 rw [BitVec.extractLsb'_append_eq_of_le (by decide)]
  rw [BitVec.extractLsb'_append_eq_right]

theorem ctxWord_reserved (s : State) : (ctxWord s).extractLsb' 16 16 = 0 := by
  unfold ctxWord
  iterate 5 rw [BitVec.extractLsb'_append_eq_of_le (by decide)]
  rw [BitVec.extractLsb'_eq_self]

theorem CtxState.code_toNat (x : CtxState) : x.code.toNat =
    match x with
    | .unkeyed => 0 | .keyed => 1 | .processing => 2 | .messageOk => 3 | .messageFailed => 4 | .error => 5 := by
  cases x <;> rfl

theorem Dir.code_toNat (d : Dir) : d.code.toNat = match d with | .enc => 0 | .dec => 1 := by
  cases d <;> rfl

theorem Phase.code_toNat (p : Phase) : p.code.toNat =
    match p with | .idle => 0 | .b0 => 1 | .aad => 2 | .payload => 3 | .tag => 4 := by
  cases p <;> rfl

theorem CtxState.code_eq_two {x : CtxState} : x.code = 2 ↔ x = .processing := by
  cases x <;> decide

theorem lastErrorByte_of_none (h : s.lastError = none) : lastErrorByte s = 0 := by
  rw [lastErrorByte, h]

/-- `last_error mod 256` (R37). -/
theorem lastErrorByte_of_some {e : ErrorCode} (h : s.lastError = some e) :
    ((lastErrorByte s).toNat : Int) = e.value % 256 := by
  rw [lastErrorByte, h]
  cases e <;> rfl

end Sys2Proof.Machine

namespace Sys2Proof

open Sys2Proof.Machine

/-- Settles O18: the bits of `CONFIG` are those of the build, which no kind of step writes. -/
theorem configIsConstant : Obligations.ConfigIsConstant := fun s =>
  ⟨by rw [configWord_bit0, longMessagesBit_eq_one],
    by rw [configWord_bit1, releasePolicyBit_eq_one],
    configWord_reserved s,
    fun t h => ⟨step_config h, by rw [configWord, configWord, step_config h]⟩⟩

/-- Settles O17. -/
theorem ctxShowsTheContext : Obligations.CtxShowsTheContext := by
  intro s
  rw [ctxWord_state, ctxWord_dir, ctxWord_phase, ctxWord_lastError]
  refine ⟨s.state.code_toNat, s.dir.code_toNat, s.phase.code_toNat, ctxWord_bit7 s, lastErrorByte_of_none,
    fun _ => lastErrorByte_of_some, ctxWord_reserved s, fun inv hp => ⟨mt CtxState.code_eq_two.mp hp, ?_⟩⟩
  rw [inv.phaseIdle.mpr hp]
  rfl

/-- Settles O6: the host's next action is the command, and nothing is added after it. -/
theorem stepRunsDecodedCommand : Obligations.StepRunsDecodedCommand := by
  intro s v rest i hp hsel hhost hv hi
  have hcmd : commandOf (.regWrite 0 v) = some (v.setWidth 32) := if_pos hv
  have hfetch : fetch s = .code (.command (v.setWidth 32)) { s with host := rest } := by
    rw [fetch_idle hp hsel, fetchHost, hhost]
    simp only [hcmd]
  rw [step, hfetch]
  simp only [hi, afterCode]

/-- Settles O21: each register of `State.resetOf` as it is written there. -/
theorem resetValues : Obligations.ResetValues := by
  have zeroed (n : Nat) : (zeroBytes n).toList = List.replicate n 0 := zeroBytes_toList n
  exact ⟨rfl, fun b => ⟨rfl, rfl, rfl, rfl, rfl, zeroed 16, zeroed 16, rfl, rfl, rfl, rfl, rfl, rfl, rfl, rfl, rfl, rfl,
    rfl, zeroed 13, zeroed 16, zeroed 16, rfl, fun _ => ⟨rfl, rfl⟩⟩⟩

end Sys2Proof
end

section
/-! An accepted message command runs to the closed form of R203: its groups one after the other, then the release policy
(`45_controller.md` R205, R213, R214). What the closed form reads of the operands is what R42, R43 and R65 let it. -/

namespace Sys2Proof.Machine

variable {c : Cipher} {k : KeySchedule} {d : Dir} {nlen tlen : Nat} {s t : State}

/-! ## Runs of groups -/

theorem runGroups_of_idle (n : Nat) (h : s.phase = .idle) : runGroups c n s = .next s := by
  cases n <;> exact if_pos h

theorem runGroups_succ (n : Nat) (hg : runGroup c s = .next t) : runGroups c (n + 1) s = runGroups c n t := by
  have running : s.phase ≠ .idle := (runGroup_next.mp hg).1
  rw [runGroups, if_neg running, hg, andThen_next]

/-- The associated-data groups still to run, from block `j` on. -/
theorem runGroups_aad (ha : Accepted d nlen tlen s) (hk : s.keySchedule = some k) (n : Nat) {i j : Nat}
    (h : j + i = aadBlocks s.hdrLenReg.toNat) :
    runGroups c (n + i) (between c k d nlen tlen s j 0) =
      runGroups c n (between c k d nlen tlen s (aadBlocks s.hdrLenReg.toNat) 0) := by
  induction i generalizing j with
  | zero => rw [← h]; rfl
  | succ i ih => rw [← add_assoc, runGroups_succ _ (group_aad ha hk (by omega)), ih (by omega)]

/-- The payload groups still to run, from block `j` on. -/
theorem runGroups_payload (ha : Accepted d nlen tlen s) (hk : s.keySchedule = some k) (n : Nat) {i j : Nat}
    (h : j + i = payloadBlocks s.msgLenReg.toNat) :
    runGroups c (n + i) (between c k d nlen tlen s (aadBlocks s.hdrLenReg.toNat) j) =
      runGroups c n (between c k d nlen tlen s (aadBlocks s.hdrLenReg.toNat) (payloadBlocks s.msgLenReg.toNat)) := by
  induction i generalizing j with
  | zero => rw [← h]; rfl
  | succ i ih => rw [← add_assoc, runGroups_succ _ (group_payload ha hk (by omega)), ih (by omega)]

theorem groupCount_latch (nlen tlen : Nat) (s : State) : groupCount (latch nlen tlen s) =
    1 + payloadBlocks s.msgLenReg.toNat + aadBlocks s.hdrLenReg.toNat + 1 := by
  rw [groupCount, latch_headerLimit, headerLimit_toNat, latch_msgLen]
  omega

/-! ## The state before and after the tag group -/

/-- With every block done, the counters are at the end of their streams and `MSG` holds the whole output. -/
theorem between_end (c : Cipher) (k : KeySchedule) (d : Dir) (nlen tlen : Nat) (s : State) :
    between c k d nlen tlen s (aadBlocks s.hdrLenReg.toNat) (payloadBlocks s.msgLenReg.toNat) =
      { latch nlen tlen s with
        phase := .tag
        counterBlock := ctrBlock (s.nonce.toList.take nlen) (payloadBlocks s.msgLenReg.toNat)
        macAccumulator := (messageDataOf c k d nlen tlen s).mac
        cnt := BitVec.ofNat 65 (aadTotal s.hdrLenReg.toNat)
        textPosition := s.msgLenReg
        msg := Memory.write s.msg 0 (messageDataOf c k d nlen tlen s).output
        blk := [], ks := zeroBytes 16, tagMatch := false } := by
  have aadDone : min (16 * aadBlocks s.hdrLenReg.toNat) (aadTotal s.hdrLenReg.toNat) = aadTotal s.hdrLenReg.toNat :=
    Nat.min_eq_right (Nat.le_of_not_lt (mt lt_aadBlocks.mpr (Nat.lt_irrefl _)))
  have payloadDone : min (16 * payloadBlocks s.msgLenReg.toNat) s.msgLenReg.toNat = s.msgLenReg.toNat :=
    Nat.min_eq_right (Nat.le_of_not_lt (mt lt_payloadBlocks.mpr (Nat.lt_irrefl _)))
  unfold between
  rw [if_neg (Nat.lt_irrefl _), if_neg (Nat.lt_irrefl _), aadDone, payloadDone, BitVec.ofNat_toNat, BitVec.setWidth_eq]
  rfl

/-- The state the last group leaves, before the release policy. -/
def messageDone (c : Cipher) (k : KeySchedule) (d : Dir) (nlen tlen : Nat) (s : State) : State :=
  { messageResult c k d nlen tlen s with msg := Memory.write s.msg 0 (messageDataOf c k d nlen tlen s).output }

theorem group_tag_messageDone (ha : Accepted d nlen tlen s) (hk : s.keySchedule = some k) :
    runGroup c (between c k d nlen tlen s (aadBlocks s.hdrLenReg.toNat) (payloadBlocks s.msgLenReg.toNat)) =
      .next (messageDone c k d nlen tlen s) := by
  rw [group_tag (tag := (messageDataOf c k d nlen tlen s).tag) ha hk rfl, between_end]
  rfl

/-- All the groups of an accepted message (R205). -/
theorem runGroups_accepted (ha : Accepted d nlen tlen s) (hk : s.keySchedule = some k) :
    runGroups c (groupCount (latch nlen tlen s)) (latch nlen tlen s) = .next (messageDone c k d nlen tlen s) := by
  rw [groupCount_latch, runGroups_succ _ (group_b0 ha hk), runGroups_aad ha hk _ (Nat.zero_add _),
    runGroups_payload ha hk _ (Nat.zero_add _), ← Nat.zero_add 1, runGroups_succ _ (group_tag_messageDone ha hk)]
  exact runGroups_of_idle 0 rfl

theorem messageDone_failed : (messageDone c k d nlen tlen s).state = .messageFailed ↔
    ¬ tagAccepted d tlen (messageDataOf c k d nlen tlen s).tag s.tagIn := by
  show (if _ then CtxState.messageOk else .messageFailed) = _ ↔ _
  split_ifs with h <;> simp [h]

theorem releasePolicy_ne_buffered {p : ReleasePolicy} : p ≠ .buffered ↔ p = .streaming := by
  cases p <;> decide

/-- The release policy puts `MSG` back exactly where the closed form does (R214). -/
theorem releaseAfter_messageDone (c : Cipher) (k : KeySchedule) (d : Dir) (nlen tlen : Nat) (s : State) :
    releaseAfter (latch nlen tlen s) (messageDone c k d nlen tlen s) = messageResult c k d nlen tlen s := by
  unfold releaseAfter
  split_ifs with h
  · obtain ⟨hbuffered, hfailed⟩ := h
    have hstreaming : s.config.releasePolicy ≠ .streaming := fun hs => by cases hs.symm.trans hbuffered
    have kept : (messageResult c k d nlen tlen s).msg = s.msg :=
      if_neg (not_or.mpr ⟨messageDone_failed.mp hfailed, hstreaming⟩)
    show { messageResult c k d nlen tlen s with msg := s.msg } = _
    rw [← kept]
  · have released : tagAccepted d tlen (messageDataOf c k d nlen tlen s).tag s.tagIn ∨
        s.config.releasePolicy = .streaming := by
      rw [messageDone_failed, not_and_or, not_not] at h
      exact h.symm.imp_right releasePolicy_ne_buffered.mp
    have written : (messageResult c k d nlen tlen s).msg =
        Memory.write s.msg 0 (messageDataOf c k d nlen tlen s).output := if_pos released
    rw [messageDone, ← written]

/-- An accepted message command gives the closed form of R203. -/
theorem message_accepted (ha : Accepted d nlen tlen s) (hk : s.keySchedule = some k) :
    message c d nlen tlen s = .next (messageResult c k d nlen tlen s) := by
  rw [message, checkMessage_eq_none.mpr ha]
  simp only
  rw [runMessage, runGroups_accepted ha hk, andThen_next, releaseAfter_messageDone]

/-! ## What the closed form reads -/

/-- The padded stream reads the header below its length only (R136). -/
theorem aadByte_congr {h : Nat} {hdr hdr' : Nat → Byte} (same : ∀ a < h, hdr' a = hdr a) (q : Nat) :
    aadByte h hdr' q = aadByte h hdr q := by
  unfold aadByte
  split_ifs with hplen hheader
  · rfl
  · exact same _ (by unfold aadTotal at hheader; omega)
  · rfl

theorem messageData_congr {e : Block → Block} {nonce : List Byte} {h n : Nat} {hdr hdr' payload : Nat → Byte}
    (same : ∀ a < h, hdr' a = hdr a) :
    messageData e d tlen nonce h hdr' n payload = messageData e d tlen nonce h hdr n payload := by
  have blocks : aadBlock h hdr' = aadBlock h hdr := by
    funext j
    simp only [aadBlock, aadBytesFrom, aadByte_congr same]
  simp only [messageData, macBlocks, blocks]

/-- Other operand bytes in `NONCE`, `TAG_IN` and `HDR`. -/
def withOperandBytes (nonce : Bytes 13) (tagIn : Bytes 16) (hdr : Memory) (s : State) : State :=
  { s with nonce := nonce, tagIn := tagIn, hdr := hdr }

/-- The closed form reads `NONCE[0..nlen)`, `TAG_IN[0..tlen)` and `HDR[0..HDR_LEN)`, and hands the rest on
(`10_state.md` R42, R43, `20_memory.md` R65). -/
theorem messageResult_withOperandBytes {nonce : Bytes 13} {tagIn : Bytes 16} {hdr : Memory}
    (hnonce : nonce.toList.take nlen = s.nonce.toList.take nlen)
    (htag : tagIn.toList.take tlen = s.tagIn.toList.take tlen)
    (hhdr : ∀ a < s.hdrLenReg.toNat, Memory.byteAt hdr Config.hdrLaunch a = s.hdrByte a) :
    messageResult c k d nlen tlen (withOperandBytes nonce tagIn hdr s) =
      withOperandBytes nonce tagIn hdr (messageResult c k d nlen tlen s) := by
  have data : messageDataOf c k d nlen tlen (withOperandBytes nonce tagIn hdr s) = messageDataOf c k d nlen tlen s := by
    unfold messageDataOf
    rw [show (withOperandBytes nonce tagIn hdr s).nonce = nonce from rfl, hnonce]
    exact messageData_congr hhdr
  unfold messageResult
  simp only [data]
  simp only [withOperandBytes, tagAccepted, htag, hnonce]

theorem Accepted.withOperandBytes (h : Accepted d nlen tlen s) (nonce : Bytes 13) (tagIn : Bytes 16) (hdr : Memory) :
    Accepted d nlen tlen (withOperandBytes nonce tagIn hdr s) :=
  ⟨h.keyed, h.direction, h.nonce, h.tag, h.header, h.fits, h.message⟩

/-- Changing the bytes beyond the lengths changes nothing else in the next state of an accepted command. -/
theorem message_withOperandBytes {nonce : Bytes 13} {tagIn : Bytes 16} {hdr : Memory} (hk : s.keySchedule ≠ none)
    (hnonce : nonce.toList.take nlen = s.nonce.toList.take nlen)
    (htag : tagIn.toList.take tlen = s.tagIn.toList.take tlen)
    (hhdr : ∀ a < s.hdrLenReg.toNat, Memory.byteAt hdr Config.hdrLaunch a = s.hdrByte a)
    (ha : Accepted d nlen tlen s) :
    ∃ t, message c d nlen tlen s = .next t ∧
      message c d nlen tlen (withOperandBytes nonce tagIn hdr s) = .next (withOperandBytes nonce tagIn hdr t) := by
  obtain ⟨k, hk⟩ := Option.ne_none_iff_exists'.mp hk
  refine ⟨_, message_accepted ha hk, ?_⟩
  rw [message_accepted (k := k) (ha.withOperandBytes nonce tagIn hdr) hk,
    messageResult_withOperandBytes hnonce htag hhdr]

end Sys2Proof.Machine

namespace Sys2Proof

open Sys2Proof.Machine

/-- Settles O35, for both commands by the closed form of the accepted message. -/
theorem bytesBeyondLengthsIgnored : Obligations.BytesBeyondLengthsIgnored :=
  fun _ _ _ _ _ _ hk hnonce htag hhdr =>
    ⟨message_withOperandBytes hk hnonce htag hhdr, message_withOperandBytes hk hnonce htag hhdr⟩

end Sys2Proof
end

section
/-! What a message leaves alone (`20_memory.md` R65, R71): the host's fields, the operand registers, `HDR` and the bytes
of `MSG` from `msg_len` on, whether the message runs one micro-operation a step or as a command. -/

namespace Sys2Proof.Machine

variable {c : Cipher} {k : KeySchedule} {d : Dir} {nlen tlen : Nat} {s t u : State}

/-! ## The frame of a message in progress -/

/-- What no part of a message in progress writes. -/
structure MessageFrame (s t : State) : Prop where
  host : t.host = s.host
  reads : t.reads = s.reads
  key : t.key = s.key
  nonce : t.nonce = s.nonce
  tagIn : t.tagIn = s.tagIn
  msgLenReg : t.msgLenReg = s.msgLenReg
  hdrLenReg : t.hdrLenReg = s.hdrLenReg
  hdr : t.hdr = s.hdr
  config : t.config = s.config
  msgLen : t.msgLen = s.msgLen
  beyond : ∀ a, s.msgLen.toNat ≤ a → t.msgByte a = s.msgByte a

theorem MessageFrame.refl (s : State) : MessageFrame s s :=
  ⟨rfl, rfl, rfl, rfl, rfl, rfl, rfl, rfl, rfl, rfl, fun _ _ => rfl⟩

theorem MessageFrame.trans (h : MessageFrame s t) (g : MessageFrame t u) : MessageFrame s u where
  host := g.host.trans h.host
  reads := g.reads.trans h.reads
  key := g.key.trans h.key
  nonce := g.nonce.trans h.nonce
  tagIn := g.tagIn.trans h.tagIn
  msgLenReg := g.msgLenReg.trans h.msgLenReg
  hdrLenReg := g.hdrLenReg.trans h.hdrLenReg
  hdr := g.hdr.trans h.hdr
  config := g.config.trans h.config
  msgLen := g.msgLen.trans h.msgLen
  beyond := fun a ha => (g.beyond a (by rwa [h.msgLen])).trans (h.beyond a ha)

/-- Micro-operations leave more than a message does. -/
theorem MessageFrame.of_frame (h : SameContext s t ∧ KeepsInside s t) : MessageFrame s t :=
  have ⟨same, inside⟩ := h
  { host := same.host
    reads := same.reads
    key := same.key
    nonce := same.nonce
    tagIn := same.tagIn
    msgLenReg := same.msgLenReg
    hdrLenReg := same.hdrLenReg
    hdr := same.hdr
    config := same.config
    msgLen := same.msgLen
    beyond := inside.beyond }

/-- The end of a group writes `state`, `phase`, `STATUS` and the temporaries (R205, R211, R212). -/
theorem endGroup_eq_clearTemps (s : State) :
    ∃ st p x, endGroup s = clearTemps { s with state := st, phase := p, status := x } := by
  by_cases h : s.phase = .tag
  · rw [endGroup_of_phase_tag h]
    rcases finishMessage_cases s with ⟨-, e⟩ | e <;> exact ⟨_, _, _, congrArg clearTemps e⟩
  · exact ⟨s.state, nextPhase s, s.status, endGroup_of_phase_ne_tag h⟩

theorem messageFrame_endGroup (s : State) : MessageFrame s (endGroup s) := by
  obtain ⟨st, p, x, e⟩ := endGroup_eq_clearTemps s
  rw [e]
  exact ⟨rfl, rfl, rfl, rfl, rfl, rfl, rfl, rfl, rfl, rfl, fun _ _ => rfl⟩

theorem messageFrame_closeGroup (s : State) : MessageFrame s (closeGroup s) := by
  unfold closeGroup
  split_ifs
  · exact messageFrame_endGroup s
  · exact .refl s

theorem messageFrame_runGroup (h : runGroup c s = .next t) : MessageFrame s t := by
  obtain ⟨-, u, hu, rfl⟩ := runGroup_next.mp h
  exact (MessageFrame.of_frame (runOps_frame hu)).trans (messageFrame_endGroup u)

/-- Putting `MSG` back as it was at the start keeps the frame seen from there (R214). -/
theorem MessageFrame.releaseAfter (h : MessageFrame s t) : MessageFrame s (releaseAfter s t) := by
  unfold Machine.releaseAfter
  split_ifs
  · exact { h with beyond := fun _ _ => rfl }
  · exact h

theorem messageFrame_runMessage (h : runMessage c s = .next t) : MessageFrame s t :=
  runMessage_induction (P := MessageFrame s) (fun hg hs => hs.trans (messageFrame_runGroup hg))
    MessageFrame.releaseAfter h (.refl s)

/-- A step taken while a message is in progress is a step of the sequencer (R71, R206). -/
theorem messageFrame_step (hp : s.state = .processing) (h : step s = .next t) : MessageFrame s t := by
  cases step_cases h with
  | @micro _ rest _ u _ _ _ hm =>
    have issued : MessageFrame s { s with sel := rest } :=
      ⟨rfl, rfl, rfl, rfl, rfl, rfl, rfl, rfl, rfl, rfl, fun _ _ => rfl⟩
    exact (issued.trans (.of_frame (microMeaning_frame hm))).trans (messageFrame_closeGroup u)
  | resume _ _ _ hr => exact messageFrame_runMessage hr
  | idle hn => exact absurd hp hn
  | access hn => exact absurd hp hn
  | illegal hn => exact absurd hp hn
  | command hn => exact absurd hp hn

/-! ## `MSG` after an accepted message -/

theorem messageDataOf_output_length (c : Cipher) (k : KeySchedule) (d : Dir) (nlen tlen : Nat) (s : State) :
    (messageDataOf c k d nlen tlen s).output.length = s.msgLenReg.toNat := by
  simp [messageDataOf, messageData]

/-- Each byte of the output is the payload byte xor its keystream byte (R169). -/
theorem messageDataOf_output_getD {a : Nat} (ha : a < s.msgLenReg.toNat) :
    (messageDataOf c k d nlen tlen s).output.getD a 0 =
      s.msgByte a ^^^ keystreamByte (c.encryptBlock k) (s.nonce.toList.take nlen) a := by
  simp [messageDataOf, messageData, ha]

/-- The closed form writes `MSG` below `MSG_LEN`, if at all (R65). -/
theorem messageResult_msgByte_beyond {a : Nat} (ha : s.msgLenReg.toNat ≤ a) :
    (messageResult c k d nlen tlen s).msgByte a = s.msgByte a := by
  have outside : ¬ (0 ≤ a ∧ a < 0 + (messageDataOf c k d nlen tlen s).output.length) := by
    rw [messageDataOf_output_length]; omega
  simp only [State.msgByte, messageResult]
  split_ifs
  · rw [Memory.byteAt_write, if_neg outside]
  · rfl

/-- Where the output is released, `MSG` holds it below `MSG_LEN` (R169, R214). -/
theorem messageResult_msgByte_below {a : Nat} (ha : a < s.msgLenReg.toNat)
    (released : tagAccepted d tlen (messageDataOf c k d nlen tlen s).tag s.tagIn ∨
      s.config.releasePolicy = .streaming) :
    (messageResult c k d nlen tlen s).msgByte a =
      s.msgByte a ^^^ keystreamByte (c.encryptBlock k) (s.nonce.toList.take nlen) a := by
  have inside : 0 ≤ a ∧ a < 0 + (messageDataOf c k d nlen tlen s).output.length := by
    rw [messageDataOf_output_length]; omega
  simp only [State.msgByte, messageResult]
  rw [if_pos released, Memory.byteAt_write, if_pos inside]
  exact messageDataOf_output_getD ha

end Sys2Proof.Machine

namespace Sys2Proof

open Sys2Proof.Machine

/-- Settles O9: of the kinds of step there are, only those of the sequencer are taken in a message. -/
theorem hostHasNoStepInMessage : Obligations.HostHasNoStepInMessage := fun _ _ hp h =>
  have f := messageFrame_step hp h
  ⟨f.host, f.reads, f.key, f.nonce, f.tagIn, f.msgLenReg, f.hdrLenReg, f.hdr, f.config, f.beyond⟩

/-- Settles O36, by the closed form of the accepted message, which an encryption always releases. -/
theorem messageFootprint : Obligations.MessageFootprint := fun _ _ _ _ hk =>
  ⟨fun ha => ⟨_, message_accepted ha hk, rfl, rfl, rfl, rfl, rfl, rfl, rfl, rfl,
      fun _ => messageResult_msgByte_beyond, fun _ hlt => messageResult_msgByte_below hlt (.inl (.inl rfl))⟩,
    fun ha => ⟨_, message_accepted ha hk, rfl, rfl, rfl, rfl, rfl, rfl, rfl, rfl,
      fun _ => messageResult_msgByte_beyond⟩⟩

end Sys2Proof
end

section
/-! The host port, access by access (`20_memory.md` R61, R69, `10_state.md` R34): the step each primitive is with no
message in progress, and where it is refused. -/

namespace Sys2Proof

/-! ## `KEY_MAX` (`00_scope.md` R6) -/

theorem Build.le_keyMax {b : Build} {n : Nat} (hn : n ∈ b.keySizes) : n ≤ b.keyMax :=
  List.le_max_of_le' 0 hn (le_refl n)

/-- `KEY_MAX` is the largest element of `KEY_SIZES`. -/
theorem Build.keyMax_mem {b : Build} (h : b.keySizes ≠ []) : b.keyMax ∈ b.keySizes :=
  List.maximum_mem (List.foldr_max_of_ne_nil h).symm

end Sys2Proof

namespace Sys2Proof.Machine

variable {s t : State} {k : Nat} {v : BitVec 64} {sp : Space} {i : Nat} {rest : List HostAction}

/-! ## Registers -/

theorem hostRegRead_of_six_le (s : State) (hk : 6 ≤ k) : hostRegRead s k = none := by
  obtain ⟨n, rfl⟩ := Nat.exists_eq_add_of_le' hk
  rfl

theorem hostRegWrite_of_six_le (s : State) (v : BitVec 64) (hk : 6 ≤ k) : hostRegWrite s k v = none := by
  obtain ⟨n, rfl⟩ := Nat.exists_eq_add_of_le' hk
  rfl

/-- `STATUS`, `CTX` and `CONFIG` ignore a write (R34). -/
theorem hostRegWrite_readOnly (s : State) (v : BitVec 64) (hk : 1 ≤ k ∧ k ≤ 3) : hostRegWrite s k v = some s := by
  obtain ⟨h1, h3⟩ := hk
  interval_cases k <;> rfl

/-- Only a write to `CMD` issues a command (R35). -/
theorem commandOf_regWrite_of_ne_zero (v : BitVec 64) (hk : k ≠ 0) : commandOf (.regWrite k v) = none := by
  obtain ⟨n, rfl⟩ := Nat.exists_eq_succ_of_ne_zero hk
  rfl

/-- A value wider than `CMD` issues no command. -/
theorem commandOf_regWrite_zero_of_wide (hv : 2 ^ 32 ≤ v.toNat) : commandOf (.regWrite 0 v) = none :=
  if_neg (Nat.not_lt.mpr hv)

theorem hostAction_regWrite_some (hk : k ≠ 0) (h : hostRegWrite s k v = some t) :
    hostAction (.regWrite k v) s = .next t := by
  obtain ⟨n, rfl⟩ := Nat.exists_eq_succ_of_ne_zero hk
  simp only [hostAction, h]

theorem hostAction_regWrite_none (hk : k ≠ 0) (h : hostRegWrite s k v = none) :
    hostAction (.regWrite k v) s = .refused .noSuchRegister := by
  obtain ⟨n, rfl⟩ := Nat.exists_eq_succ_of_ne_zero hk
  simp only [hostAction, h]

/-! ## Bytes -/

/-- A byte write to `HDR` changes that byte and no other. -/
theorem hostSetByte_hdrByte (s : State) (i a : Nat) (v : Byte) :
    (hostSetByte s .hdr i v).hdrByte a = if a = i then v else s.hdrByte a := by
  simp only [State.hdrByte, hostSetByte, Memory.byteAt_put, eq_comm (a := i)]

/-- A byte write to `MSG` changes that byte and no other. -/
theorem hostSetByte_msgByte (s : State) (i a : Nat) (v : Byte) :
    (hostSetByte s .msg i v).msgByte a = if a = i then v else s.msgByte a := by
  simp only [State.msgByte, hostSetByte, Memory.byteAt_put, eq_comm (a := i)]

/-- A write inside a register of bytes changes that byte and no other. -/
theorem putByte_getD_of_lt {n : Nat} (b : Bytes n) {i : Nat} (hi : i < n) (v : Byte) (j : Nat) :
    (putByte b i v).toList.getD j 0 = if j = i then v else b.toList.getD j 0 := by
  simp only [putByte_getD, hi, and_true]

/-- A write to `KEY` changes that byte and no other. -/
theorem set_getD_of_lt (l : List Byte) (i : Nat) (v : Byte) {j : Nat} (hj : j < l.length) :
    (l.set i v).getD j 0 = if j = i then v else l.getD j 0 := by
  rw [List.getD_eq_getElem _ _ (by simpa using hj), List.getElem_set, List.getD_eq_getElem _ _ hj]
  simp only [eq_comm (a := i)]

/-! ## Steps of the host -/

section
variable (hp : s.state ≠ .processing) (hsel : s.sel = [])
include hp hsel

theorem step_regRead_some (hhost : s.host = .regRead k :: rest) (h : hostRegRead { s with host := rest } k = some v) :
    step s = .next { s with host := rest, reads := s.reads ++ [v] } := by
  rw [step_hostAction hp hsel hhost rfl]
  simp only [hostAction, h]
  rfl

theorem step_regRead_none (hhost : s.host = .regRead k :: rest) (h : hostRegRead { s with host := rest } k = none) :
    step s = .refused .noSuchRegister := by
  rw [step_hostAction hp hsel hhost rfl]
  simp only [hostAction, h]

theorem step_regWrite_some (hhost : s.host = .regWrite k v :: rest) (hk : k ≠ 0)
    (h : hostRegWrite { s with host := rest } k v = some t) : step s = .next t := by
  rw [step_hostAction hp hsel hhost (commandOf_regWrite_of_ne_zero v hk), hostAction_regWrite_some hk h]

theorem step_regWrite_none (hhost : s.host = .regWrite k v :: rest) (hk : k ≠ 0)
    (h : hostRegWrite { s with host := rest } k v = none) : step s = .refused .noSuchRegister := by
  rw [step_hostAction hp hsel hhost (commandOf_regWrite_of_ne_zero v hk), hostAction_regWrite_none hk h]

theorem step_regWrite_wide (hhost : s.host = .regWrite 0 v :: rest) (hv : 2 ^ 32 ≤ v.toNat) :
    step s = .refused .valueTooWide :=
  step_hostAction hp hsel hhost (commandOf_regWrite_zero_of_wide hv)

theorem step_byteRead_inside (hhost : s.host = .byteRead sp i :: rest) (hi : i < spaceSize { s with host := rest } sp) :
    step s = .next { s with
      host := rest, reads := s.reads ++ [(hostByte { s with host := rest } sp i).setWidth 64] } :=
  (step_hostAction hp hsel hhost rfl).trans (if_pos hi)

theorem step_byteRead_outside (hhost : s.host = .byteRead sp i :: rest)
    (hi : spaceSize { s with host := rest } sp ≤ i) : step s = .refused .noSuchLocation :=
  (step_hostAction hp hsel hhost rfl).trans (if_neg (Nat.not_lt.mpr hi))

theorem step_byteWrite_inside {v : Byte} (hhost : s.host = .byteWrite sp i v :: rest)
    (hi : i < spaceSize { s with host := rest } sp) : step s = .next (hostSetByte { s with host := rest } sp i v) :=
  (step_hostAction hp hsel hhost rfl).trans (if_pos hi)

theorem step_byteWrite_outside {v : Byte} (hhost : s.host = .byteWrite sp i v :: rest)
    (hi : spaceSize { s with host := rest } sp ≤ i) : step s = .refused .noSuchLocation :=
  (step_hostAction hp hsel hhost rfl).trans (if_neg (Nat.not_lt.mpr hi))

end

end Sys2Proof.Machine

namespace Sys2Proof

open Sys2Proof.Machine

/-- Settles O12, register by register. -/
theorem hostReadsRegisters : Obligations.HostReadsRegisters := by
  intro s k rest hp hsel hhost
  have read {v : BitVec 64} (h : hostRegRead { s with host := rest } k = some v) :=
    step_regRead_some hp hsel hhost h
  refine ⟨fun h => read ?_, fun h => read ?_, fun h => read ?_, fun h => read ?_, fun h => read ?_, fun h => read ?_,
    fun hk => step_regRead_none hp hsel hhost (hostRegRead_of_six_le _ hk)⟩
  all_goals subst h; rfl

/-- Settles O13: the registers other than `CMD`, then a value that is no command word. -/
theorem hostWritesRegisters : Obligations.HostWritesRegisters := by
  intro s k v rest hp hsel hhost
  refine ⟨fun hk => ?_, fun hk => ?_, fun hk => ?_, fun hk => ?_, fun hk hv => ?_⟩
  · exact step_regWrite_some hp hsel hhost (by omega) (hostRegWrite_readOnly _ v hk)
  · subst hk; exact step_regWrite_some hp hsel hhost (by decide) rfl
  · subst hk; exact step_regWrite_some hp hsel hhost (by decide) rfl
  · exact step_regWrite_none hp hsel hhost (by omega) (hostRegWrite_of_six_le _ v hk)
  · subst hk; exact step_regWrite_wide hp hsel hhost hv

/-- Settles O14: the byte of each space is the one `hostByte` names. -/
theorem hostReadsBytes : Obligations.HostReadsBytes := by
  intro s sp i rest hp hsel hhost size
  have hsize : spaceSize { s with host := rest } sp = size := by cases sp <;> rfl
  refine ⟨fun hne => ⟨Build.keyMax_mem hne, fun _ => Build.le_keyMax⟩,
    fun hi => step_byteRead_outside hp hsel hhost (hsize ▸ hi),
    fun hi => ⟨hostByte { s with host := rest } sp i, step_byteRead_inside hp hsel hhost (hsize ▸ hi), ?_⟩⟩
  refine ⟨fun h => ?_, fun h => ?_, fun h => ?_, fun h => ?_, fun h => ?_, fun h => ?_⟩
  all_goals subst h; rfl

/-- Settles O15: the space written decides which register or buffer is the one that changes. -/
theorem hostWritesBytes : Obligations.HostWritesBytes := by
  intro s sp i v rest hp hsel hhost size
  have hsize : spaceSize { s with host := rest } sp = size := by cases sp <;> rfl
  refine ⟨fun hi => step_byteWrite_outside hp hsel hhost (hsize ▸ hi), fun hi => ?_⟩
  have written : step s = .next (hostSetByte { s with host := rest } sp i v) :=
    step_byteWrite_inside hp hsel hhost (hsize ▸ hi)
  refine ⟨fun h => ?_, fun h => ?_, fun h => ?_, fun h => ?_, fun h => ?_, fun h => ?_⟩ <;> subst h
  · exact ⟨_, written, List.length_set, fun _ => set_getD_of_lt s.key i v⟩
  · exact ⟨_, written, putByte_getD_of_lt s.nonce hi v⟩
  · exact ⟨_, written, putByte_getD_of_lt s.tagIn hi v⟩
  · exact written
  · exact ⟨_, written, rfl, fun a => hostSetByte_hdrByte _ i a v⟩
  · exact ⟨_, written, rfl, fun a => hostSetByte_msgByte _ i a v⟩

end Sys2Proof
end

section
/-! The decoder and the encoder are inverse (`30_encoding.md` R90 to R95, R102). Which words spell an instruction is said
once, by the fields of the word; the statements about words go through that. -/

namespace Sys2Proof

open Sys2Proof.Machine

variable {w : BitVec 32} {i : Instr}

/-! ## The formats (R91) -/

theorem decodeK_eq_ok {mk : Nat → Instr} : decodeK mk w = .ok i ↔ fieldB w = 0 ∧ i = mk (fieldA w).toNat := by
  unfold decodeK
  split_ifs with hb
  · simp [hb, eq_comm]
  · exact ⟨nofun, fun h => absurd h.1 hb⟩

theorem decodeM_eq_ok {mk : Nat → Nat → Instr} :
    decodeM mk w = .ok i ↔ i = mk (fieldA w).toNat (fieldB w).toNat := by
  simp [decodeM, eq_comm]

theorem decodeZ_eq_ok {j : Instr} : decodeZ j w = .ok i ↔ fieldA w = 0 ∧ fieldB w = 0 ∧ i = j := by
  unfold decodeZ
  split_ifs with ha hb
  · exact ⟨nofun, fun h => absurd h.1 ha⟩
  · exact ⟨nofun, fun h => absurd h.2.1 hb⟩
  · simp [not_not.mp ha, not_not.mp hb, eq_comm]

/-! ## Command words -/

/-- The fields of `w` below `RSV` are those of the command `i` (R92, R93). -/
def Instr.MatchesFields (w : BitVec 32) : Instr → Prop
  | .initEnkey klen => fieldOp w = 1 ∧ fieldB w = 0 ∧ klen = (fieldA w).toNat
  | .initDekey klen => fieldOp w = 2 ∧ fieldB w = 0 ∧ klen = (fieldA w).toNat
  | .encryptMessage nlen tlen => fieldOp w = 3 ∧ nlen = (fieldA w).toNat ∧ tlen = (fieldB w).toNat
  | .decryptMessage nlen tlen => fieldOp w = 4 ∧ nlen = (fieldA w).toNat ∧ tlen = (fieldB w).toNat
  | .msgReset => fieldOp w = 5 ∧ fieldA w = 0 ∧ fieldB w = 0
  | .macInit | .fmtB0 | .fmtAad | .macFold | .ctrLoad0 | .ctrInc | .ksGen | .payLoad | .payXor | .payStore | .tagMask
  | .tagCmp => False

/-- A word spells an instruction exactly when `RSV` is zero and the other fields are the instruction's. -/
theorem decodeCommand_eq_ok : decodeCommand w = .ok i ↔ fieldRsv w = 0 ∧ i.MatchesFields w := by
  constructor
  · intro h
    unfold decodeCommand at h
    split_ifs at h with hrsv h1 h2 h3 h4 h5
    · obtain ⟨hb, rfl⟩ := decodeK_eq_ok.mp h
      exact ⟨not_not.mp hrsv, h1, hb, rfl⟩
    · obtain ⟨hb, rfl⟩ := decodeK_eq_ok.mp h
      exact ⟨not_not.mp hrsv, h2, hb, rfl⟩
    · obtain rfl := decodeM_eq_ok.mp h
      exact ⟨not_not.mp hrsv, h3, rfl, rfl⟩
    · obtain rfl := decodeM_eq_ok.mp h
      exact ⟨not_not.mp hrsv, h4, rfl, rfl⟩
    · obtain ⟨ha, hb, rfl⟩ := decodeZ_eq_ok.mp h
      exact ⟨not_not.mp hrsv, h5, ha, hb⟩
  · rintro ⟨hrsv, h⟩
    match i, h with
    | .initEnkey _, ⟨hop, hb, ha⟩ => simp [decodeCommand, hrsv, hop, decodeK_eq_ok, hb, ha]
    | .initDekey _, ⟨hop, hb, ha⟩ => simp [decodeCommand, hrsv, hop, decodeK_eq_ok, hb, ha]
    | .encryptMessage _ _, ⟨hop, ha, hb⟩ => simp [decodeCommand, hrsv, hop, decodeM_eq_ok, ha, hb]
    | .decryptMessage _ _, ⟨hop, ha, hb⟩ => simp [decodeCommand, hrsv, hop, decodeM_eq_ok, ha, hb]
    | .msgReset, ⟨hop, ha, hb⟩ => simp [decodeCommand, hrsv, hop, decodeZ_eq_ok, ha, hb]

/-- The words that spell an instruction, over all instructions (R95). -/
theorem exists_decodeCommand_ok : (∃ i, decodeCommand w = .ok i) ↔
    fieldRsv w = 0 ∧ ((fieldOp w = 1 ∨ fieldOp w = 2) ∧ fieldB w = 0 ∨ (fieldOp w = 3 ∨ fieldOp w = 4) ∨
      fieldOp w = 5 ∧ fieldA w = 0 ∧ fieldB w = 0) := by
  simp only [decodeCommand_eq_ok, exists_and_left]
  refine and_congr_right fun _ => ⟨fun ⟨i, h⟩ => ?_, ?_⟩
  · match i, h with
    | .initEnkey _, ⟨hop, hb, _⟩ => exact .inl ⟨.inl hop, hb⟩
    | .initDekey _, ⟨hop, hb, _⟩ => exact .inl ⟨.inr hop, hb⟩
    | .encryptMessage _ _, ⟨hop, _⟩ => exact .inr (.inl (.inl hop))
    | .decryptMessage _ _, ⟨hop, _⟩ => exact .inr (.inl (.inr hop))
    | .msgReset, h => exact .inr (.inr h)
  · rintro (⟨hop | hop, hb⟩ | (hop | hop) | h)
    · exact ⟨.initEnkey _, hop, hb, rfl⟩
    · exact ⟨.initDekey _, hop, hb, rfl⟩
    · exact ⟨.encryptMessage _ _, hop, rfl, rfl⟩
    · exact ⟨.decryptMessage _ _, hop, rfl, rfl⟩
    · exact ⟨.msgReset, h⟩

/-- A byte-wide operand comes back from its field (R91). -/
theorem toNat_ofNat_of_operandFits {n : Nat} (h : operandFits n) : n = (BitVec.ofNat 8 n).toNat :=
  (Nat.mod_eq_of_lt h).symm

/-- A word whose `RSV` is zero is assembled from any numbers its other fields hold. -/
theorem commandWord_eq {op a b : Nat} (hrsv : fieldRsv w = 0) (hop : fieldOp w = BitVec.ofNat 8 op)
    (ha : fieldA w = BitVec.ofNat 8 a) (hb : fieldB w = BitVec.ofNat 8 b) : commandWord op a b = w := by
  simp only [word_ext, fieldRsv_commandWord, fieldB_commandWord, fieldA_commandWord, fieldOp_commandWord, hrsv, hop, ha,
    hb, and_self]

/-! ## Select codes -/

theorem encode_toInstr (m : MicroOp) : encode m.toInstr = .micro m.code := by cases m <;> rfl

/-- A select code that names a micro-operation is that operation's own (R102). -/
theorem code_of_decodeMicro {c : BitVec 4} {m : MicroOp} (h : decodeMicro c = .ok m) : m.code = c := by
  unfold decodeMicro at h
  split at h <;> cases h
  all_goals exact BitVec.eq_of_toNat_eq (Eq.symm ‹_›)

/-! ## Match and mask (R94) -/

/-- The mask of format K fixes `RSV`, `OP` and `B`. -/
theorem and_maskK (op : Nat) : w &&& 0xFFFF00FF = commandWord op 0 0 ↔
    fieldRsv w = 0 ∧ fieldOp w = BitVec.ofNat 8 op ∧ fieldB w = 0 := by
  have hrsv : fieldRsv 0xFFFF00FF = 0xFF := by decide
  have hb : fieldB 0xFFFF00FF = 0xFF := by decide
  have ha : fieldA 0xFFFF00FF = 0x00 := by decide
  have hop : fieldOp 0xFFFF00FF = 0xFF := by decide
  simp only [word_ext, fieldRsv_and, fieldB_and, fieldA_and, fieldOp_and, hrsv, hb, ha, hop, byte_and_full,
    byte_and_none]
  simp [and_comm (a := fieldB w = 0#8)]

/-- The mask of format M fixes `RSV` and `OP`. -/
theorem and_maskM (op : Nat) : w &&& 0xFF0000FF = commandWord op 0 0 ↔
    fieldRsv w = 0 ∧ fieldOp w = BitVec.ofNat 8 op := by
  have hrsv : fieldRsv 0xFF0000FF = 0xFF := by decide
  have hb : fieldB 0xFF0000FF = 0x00 := by decide
  have ha : fieldA 0xFF0000FF = 0x00 := by decide
  have hop : fieldOp 0xFF0000FF = 0xFF := by decide
  simp only [word_ext, fieldRsv_and, fieldB_and, fieldA_and, fieldOp_and, hrsv, hb, ha, hop, byte_and_full,
    byte_and_none]
  simp

/-- The mask of format Z fixes every field. -/
theorem and_maskZ (op : Nat) : w &&& 0xFFFFFFFF = commandWord op 0 0 ↔
    fieldRsv w = 0 ∧ fieldOp w = BitVec.ofNat 8 op ∧ fieldA w = 0 ∧ fieldB w = 0 := by
  rw [show (0xFFFFFFFF : BitVec 32) = BitVec.allOnes 32 by decide, BitVec.and_allOnes, word_ext]
  simp only [fieldRsv_commandWord, fieldB_commandWord, fieldA_commandWord, fieldOp_commandWord]
  exact ⟨fun ⟨hrsv, hb, ha, hop⟩ => ⟨hrsv, hop, ha, hb⟩, fun ⟨hrsv, hop, ha, hb⟩ => ⟨hrsv, hb, ha, hop⟩⟩

/-! ## The statements -/

/-- Settles O2: each command by the fields of the word it assembles, each micro-operation by its select code. -/
theorem encodeThenDecode : Obligations.EncodeThenDecode := by
  intro i hwf
  match i, hwf with
  | .initEnkey klen, h =>
    exact decodeCommand_eq_ok.mpr ⟨by simp, by simp, by simp, by simpa using toNat_ofNat_of_operandFits h⟩
  | .initDekey klen, h =>
    exact decodeCommand_eq_ok.mpr ⟨by simp, by simp, by simp, by simpa using toNat_ofNat_of_operandFits h⟩
  | .encryptMessage nlen tlen, ⟨hn, ht⟩ =>
    exact decodeCommand_eq_ok.mpr ⟨by simp, by simp, by simpa using toNat_ofNat_of_operandFits hn,
      by simpa using toNat_ofNat_of_operandFits ht⟩
  | .decryptMessage nlen tlen, ⟨hn, ht⟩ =>
    exact decodeCommand_eq_ok.mpr ⟨by simp, by simp, by simpa using toNat_ofNat_of_operandFits hn,
      by simpa using toNat_ofNat_of_operandFits ht⟩
  | .msgReset, _ => exact decodeCommand_eq_ok.mpr ⟨by simp, by simp, by simp, by simp⟩
  | .macInit, _ => exact decode_code .macInit
  | .fmtB0, _ => exact decode_code .fmtB0
  | .fmtAad, _ => exact decode_code .fmtAad
  | .macFold, _ => exact decode_code .macFold
  | .ctrLoad0, _ => exact decode_code .ctrLoad0
  | .ctrInc, _ => exact decode_code .ctrInc
  | .ksGen, _ => exact decode_code .ksGen
  | .payLoad, _ => exact decode_code .payLoad
  | .payXor, _ => exact decode_code .payXor
  | .payStore, _ => exact decode_code .payStore
  | .tagMask, _ => exact decode_code .tagMask
  | .tagCmp, _ => exact decode_code .tagCmp

/-- What a command word decodes to is well-formed and assembles that word. -/
theorem encode_of_decodeCommand (h : decodeCommand w = .ok i) : i.WellFormed ∧ encode i = .command w := by
  obtain ⟨hrsv, h⟩ := decodeCommand_eq_ok.mp h
  match i, h with
  | .initEnkey _, ⟨hop, hb, rfl⟩ =>
    exact ⟨(fieldA w).isLt, congrArg Code.command (commandWord_eq hrsv hop (by simp) hb)⟩
  | .initDekey _, ⟨hop, hb, rfl⟩ =>
    exact ⟨(fieldA w).isLt, congrArg Code.command (commandWord_eq hrsv hop (by simp) hb)⟩
  | .encryptMessage _ _, ⟨hop, rfl, rfl⟩ =>
    exact ⟨⟨(fieldA w).isLt, (fieldB w).isLt⟩, congrArg Code.command (commandWord_eq hrsv hop (by simp) (by simp))⟩
  | .decryptMessage _ _, ⟨hop, rfl, rfl⟩ =>
    exact ⟨⟨(fieldA w).isLt, (fieldB w).isLt⟩, congrArg Code.command (commandWord_eq hrsv hop (by simp) (by simp))⟩
  | .msgReset, ⟨hop, ha, hb⟩ => exact ⟨trivial, congrArg Code.command (commandWord_eq hrsv hop ha hb)⟩

/-- Settles O3, in each of the two spaces of codes. -/
theorem decodeThenEncode : Obligations.DecodeThenEncode := by
  intro k i h
  match k with
  | .command w => exact encode_of_decodeCommand h
  | .micro c =>
    obtain ⟨m, hm, rfl⟩ := decode_micro_ok h
    refine ⟨by cases m <;> trivial, ?_⟩
    rw [encode_toInstr, code_of_decodeMicro hm]

/-- Settles O4: each mask fixes the fields that its format's decoder looks at. -/
theorem commandRowsByMask : Obligations.CommandRowsByMask := by
  intro w
  refine ⟨fun klen => ?_, fun klen => ?_, fun nlen tlen => ?_, fun nlen tlen => ?_, ?_, by decide, by decide,
    by decide, by decide, by decide⟩
  all_goals rw [decodeCommand_eq_ok]
  · rw [show (0x00000001 : BitVec 32) = commandWord 1 0 0 by decide, and_maskK, and_assoc, and_assoc]; rfl
  · rw [show (0x00000002 : BitVec 32) = commandWord 2 0 0 by decide, and_maskK, and_assoc, and_assoc]; rfl
  · rw [show (0x00000003 : BitVec 32) = commandWord 3 0 0 by decide, and_maskM, and_assoc]; rfl
  · rw [show (0x00000004 : BitVec 32) = commandWord 4 0 0 by decide, and_maskM, and_assoc]; rfl
  · rw [show (0x00000005 : BitVec 32) = commandWord 5 0 0 by decide, and_maskZ]; rfl

/-- Settles O1, word by word. -/
theorem specWordsDecode : Obligations.SpecWordsDecode :=
  ⟨by decide, by decide, by decide, by decide, by decide, by decide, by decide, by decide⟩

end Sys2Proof
end

section
/-! What issuing a code does (`30_encoding.md` R95, R98, R102, `60_exceptions.md` R238): a command word that spells a
command, one that spells none, and a select code. -/

namespace Sys2Proof.Machine

variable {s t : State} {a : HostAction} {rest : List HostAction} {w : BitVec 32} {i : Instr}

/-! ## Command words -/

/-- A write to `CMD` of a 32-bit word issues that word (R35, R61). -/
theorem commandOf_word (w : BitVec 32) : commandOf (.regWrite 0 (w.setWidth 64)) = some w := by
  have hv : (w.setWidth 64).toNat < 2 ^ 32 := by
    rw [BitVec.toNat_setWidth]
    exact lt_of_le_of_lt (Nat.mod_le _ _) w.isLt
  refine (if_pos hv).trans (congrArg some ?_)
  rw [BitVec.setWidth_setWidth_of_le _ (by decide), BitVec.setWidth_eq]

section
variable (hp : s.state ≠ .processing) (hsel : s.sel = []) (hhost : s.host = a :: rest) (ha : commandOf a = some w)
include hp hsel hhost ha

theorem step_command (hd : decodeCommand w = .ok i) : step s = exec i { s with host := rest } := by
  rw [step, fetch_idle hp hsel, fetchHost, hhost]
  simp only [ha, decode, hd, afterCode]

theorem step_illegal {e : DecodeError} (hd : decodeCommand w = .error e) :
    step s = .next (illegalCommand { s with host := rest }) := by
  rw [step, fetch_idle hp hsel, fetchHost, hhost]
  simp only [ha, decode, hd, undecoded]

end

/-! ## Select codes -/

theorem step_sel {c : BitVec 4} {codes : List (BitVec 4)} (hsel : s.sel = c :: codes) (hd : decode (.micro c) = .ok i) :
    step s = andThen (exec i { s with sel := codes }) fun t => .next (closeGroup t) := by
  rw [step, fetch_sel hsel]
  simp only [hd, afterCode]

/-! ## `STATUS` (R100) -/

theorem statusWord_eq_zero : statusWord s = 0 ↔ s.status = .good := by
  unfold statusWord
  cases s.status with
  | good | warn => decide
  | error e => cases e <;> decide

theorem statusWord_eq_one : statusWord s = 1 ↔ s.status = .warn := by
  unfold statusWord
  cases s.status with
  | good | warn => decide
  | error e => cases e <;> decide

end Sys2Proof.Machine

namespace Sys2Proof

open Sys2Proof.Machine

/-- Settles O5: the illegal words are those no instruction's fields fit. -/
theorem illegalWordsReportBadCall : Obligations.IllegalWordsReportBadCall := by
  intro w op a b rsv illegal
  have legal : (∃ i, decodeCommand w = .ok i) ↔
      rsv = 0 ∧ ((op = 1 ∨ op = 2) ∧ b = 0 ∨ (op = 3 ∨ op = 4) ∨ op = 5 ∧ a = 0 ∧ b = 0) := by
    simp only [exists_decodeCommand_ok, ← BitVec.toNat_inj]
    rfl
  have illegal_iff : illegal ↔ ∀ i, decodeCommand w ≠ .ok i := by
    rw [← not_exists, legal]
    omega
  refine ⟨illegal_iff, fun s rest hill hp hsel hhost => ?_⟩
  cases hd : decodeCommand w with
  | ok i => exact absurd hd (illegal_iff.mp hill i)
  | error e => exact step_illegal hp hsel hhost (commandOf_word w) hd

/-- Settles O7: `closeGroup` is the end of the group where there is one. -/
theorem stepRunsSelectedMicroOp : Obligations.StepRunsSelectedMicroOp := fun _ _ _ _ hsel hd => step_sel hsel hd

/-- Settles O16, status by status. -/
theorem statusReadsItsCode : Obligations.StatusReadsItsCode := by
  intro s
  unfold statusWord
  cases hs : s.status with
  | good => decide
  | warn => decide
  | error e => cases e <;> decide

/-- Settles O19: the wrapper looks at the lengths alone. -/
theorem callFormsRefuseWideLengths : Obligations.CallFormsRefuseWideLengths := by
  intro b key nonce tagIn hdr msg n t
  refine ⟨fun _ _ => rfl, fun hn => ?_, fun hn ht => ?_⟩
  · have wide : wideLength n t = some .badNonceLength := if_pos hn
    refine ⟨if_pos hn, if_pos hn, ?_, ?_⟩
    · simp only [callEncryptMessage, wide]
    · simp only [callDecryptMessage, wide]
  · have wide : wideLength n t = some .badAuthFieldLength := (if_neg (Nat.not_lt.mpr hn)).trans (if_pos ht)
    constructor
    · simp only [callEncryptMessage, wide]
    · simp only [callDecryptMessage, wide]

end Sys2Proof
end

section
/-! The commands end (`45_controller.md` R191, `60_exceptions.md` R233): each answers a next state from every state
with the invariant, and leaves no message in progress. -/

namespace Sys2Proof.Machine

variable {s t : State} {i : Instr} {w : BitVec 32} {c : Cipher} {d : Dir} {nlen tlen : Nat}

/-- A command ends, between messages, with the host's reads as they were (R191, R206). -/
structure CommandDone (s t : State) : Prop where
  inv : Inv t
  settled : t.state ≠ .processing
  reads : t.reads = s.reads
  config : t.config = s.config

theorem Inv.keySchedule_of_accepted (h : Inv s) (ha : Accepted d nlen tlen s) : ∃ k, s.keySchedule = some k :=
  Option.ne_none_iff_exists'.mp fun hn => by cases ha.keyed.symm.trans (h.keyNone.mp hn)

/-- A message command that passes its checks runs to its end, one that does not reports (R195, R233). -/
theorem exists_message_next (h : Inv s) (c : Cipher) (d : Dir) (nlen tlen : Nat) :
    ∃ t, message c d nlen tlen s = .next t := by
  cases hc : checkMessage d nlen tlen s with
  | some code => exact ⟨raiseStatus code s, by rw [message, hc]⟩
  | none =>
    have ha : Accepted d nlen tlen s := checkMessage_eq_none.mp hc
    obtain ⟨k, hk⟩ := h.keySchedule_of_accepted ha
    exact ⟨_, message_accepted ha hk⟩

theorem messageResult_settled (c : Cipher) (k : KeySchedule) (d : Dir) (nlen tlen : Nat) (s : State) :
    (messageResult c k d nlen tlen s).state ≠ .processing := by
  show (if _ then CtxState.messageOk else .messageFailed) ≠ .processing
  split_ifs <;> nofun

theorem message_settled (hm : message c d nlen tlen s = .next t) (h : Inv s) (hp : s.state ≠ .processing) :
    t.state ≠ .processing := by
  rcases message_next hm with ⟨code, rfl⟩ | ⟨ha, -⟩
  · rw [raiseStatus_state]
    split_ifs
    · nofun
    · exact hp
  · obtain ⟨k, hk⟩ := h.keySchedule_of_accepted ha
    rw [message_accepted ha hk] at hm
    cases hm
    exact messageResult_settled c k d nlen tlen s

/-- `STATUS` is an error unless the message command passed its checks (R195). -/
theorem accepted_of_status (hm : message c d nlen tlen s = .next t) (hs : t.status = .good ∨ t.status = .warn) :
    Accepted d nlen tlen s := by
  rcases message_next hm with ⟨code, rfl⟩ | ⟨ha, -⟩
  · rcases hs with hs | hs <;> cases hs
  · exact ha

theorem initKey_settled (c : Cipher) (d : Dir) (klen : Nat) (s : State) : (initKey c d klen s).state ≠ .processing := by
  unfold initKey
  split_ifs <;> nofun

theorem initKey_reads (c : Cipher) (d : Dir) (klen : Nat) (s : State) : (initKey c d klen s).reads = s.reads := by
  unfold initKey
  split_ifs <;> rfl

theorem execMsgReset_next (h : execMsgReset s = .next t) :
    t.reads = s.reads ∧ (t.state = s.state ∨ t.state = .keyed) := by
  unfold execMsgReset at h
  split_ifs at h <;> cases h
  · exact ⟨rfl, .inl rfl⟩
  · exact ⟨rfl, .inr rfl⟩

theorem CommandTo.done (hc : CommandTo s t) (h : Inv s) (hp : s.state ≠ .processing) : CommandDone s t where
  inv := h.command hc hp
  config := config_of_commandTo hc
  settled := by
    cases hc with
    | keySetup d klen => exact initKey_settled _ d klen s
    | message hm => exact message_settled hm h hp
    | msgReset hr =>
      obtain ⟨-, hst | hst⟩ := execMsgReset_next hr <;> rw [hst]
      · exact hp
      · nofun
  reads := by
    cases hc with
    | keySetup d klen => exact initKey_reads _ d klen s
    | message hm =>
      rcases message_next hm with ⟨code, rfl⟩ | ⟨-, hr⟩
      · rfl
      · exact (messageFrame_runMessage hr).reads
    | msgReset hr => exact (execMsgReset_next hr).1

/-- The five commands answer a next state in every state with the invariant. -/
theorem Inv.exists_exec (h : Inv s) (hp : s.state ≠ .processing) (hd : decodeCommand w = .ok i) :
    ∃ t, exec i s = .next t ∧ CommandDone s t := by
  have ends : ∃ t, exec i s = .next t := by
    obtain ⟨klen, rfl⟩ | ⟨klen, rfl⟩ | ⟨nlen, tlen, rfl⟩ | ⟨nlen, tlen, rfl⟩ | rfl := decodeCommand_ok_cases hd
    · exact ⟨_, rfl⟩
    · exact ⟨_, rfl⟩
    · exact exists_message_next h _ .enc nlen tlen
    · exact exists_message_next h _ .dec nlen tlen
    · exact ⟨_, rfl⟩
  obtain ⟨t, ht⟩ := ends
  exact ⟨t, ht, (exec_command_cases hd ht).done h hp⟩

end Sys2Proof.Machine
end

section
/-! The accesses of a call (`30_encoding.md` R98): what is written to the operands, and the command issued. -/

namespace Sys2Proof.Machine

variable {s t u : State} {sp : Space} {bytes : List Byte} {rest : List HostAction} {i : Instr} {w : BitVec 32}

/-! ## Accesses -/

theorem Inv.of_hostActs {as : List HostAction} (hs : hostActs as s = .next t) (h : Inv s) : Inv t := by
  induction as generalizing s with
  | nil => cases hs; exact h
  | cons a as ih =>
    obtain ⟨u, hu, hs⟩ := andThen_eq_next.mp hs
    exact ih hs ((h.withHost _).step hu)

theorem hostActs_append_next {as bs : List HostAction} (ha : hostActs as s = .next t)
    (hb : hostActs bs t = .next u) : hostActs (as ++ bs) s = .next u := by
  rw [hostActs_append, ha, andThen_next, hb]

theorem hostActs_regWrite {k : Nat} {x : BitVec 64} (hp : s.state ≠ .processing) (hsel : s.sel = []) (hk : k ≠ 0)
    (h : hostRegWrite s k x = some t) : hostActs [.regWrite k x] s = .next t := by
  rw [hostActs_action hp hsel (commandOf_regWrite_of_ne_zero x hk), hostAction_regWrite_some hk h]

theorem hostActs_writeLengths (hp : s.state ≠ .processing) (hsel : s.sel = []) (x y : BitVec 64) :
    hostActs [.regWrite 5 x, .regWrite 4 y] s = .next { s with hdrLenReg := x, msgLenReg := y } :=
  have first : hostActs [.regWrite 5 x] s = .next { s with hdrLenReg := x } :=
    hostActs_regWrite hp hsel (by decide) rfl
  hostActs_append_next first (hostActs_regWrite (s := { s with hdrLenReg := x }) hp hsel (by decide) rfl)

/-- A well-formed command is issued by a write of a word that spells it (R98). -/
theorem issue_eq (hwf : i.WellFormed) (hi : encode i = .command w) :
    issue i = [.regWrite 0 (w.setWidth 64)] ∧ decodeCommand w = .ok i := by
  have hd : decode (encode i) = .ok i := encodeThenDecode i hwf
  rw [hi] at hd
  refine ⟨?_, hd⟩
  simp only [issue, hi]

theorem hostActs_issue (h : Inv s) (hp : s.state ≠ .processing) (hwf : i.WellFormed) (hi : encode i = .command w)
    (ht : exec i s = .next t) : hostActs (issue i) s = .next t := by
  obtain ⟨hissue, hd⟩ := issue_eq hwf hi
  rw [hissue, hostActs, step_command (s := { s with host := _ :: s.host }) hp (h.selEmpty hp) rfl (commandOf_word w) hd]
  show andThen (exec i s) _ = _
  rw [ht]
  rfl

theorem hostActs_regRead_status (h : Inv s) (hp : s.state ≠ .processing) :
    hostActs [.regRead 1] s = .next (giveHost s ((statusWord s).setWidth 64)) :=
  hostActs_action hp (h.selEmpty hp) rfl

/-! ## A space filled -/

@[simp] theorem fillSpace_state (s : State) (sp : Space) (bytes : List Byte) :
    (fillSpace s sp bytes).state = s.state := by cases sp <;> rfl

@[simp] theorem fillSpace_sel (s : State) (sp : Space) (bytes : List Byte) : (fillSpace s sp bytes).sel = s.sel := by
  cases sp <;> rfl

@[simp] theorem fillSpace_config (s : State) (sp : Space) (bytes : List Byte) :
    (fillSpace s sp bytes).config = s.config := by cases sp <;> rfl

@[simp] theorem fillSpace_host (s : State) (sp : Space) (bytes : List Byte) :
    (fillSpace s sp bytes).host = s.host := by cases sp <;> rfl

@[simp] theorem fillSpace_reads (s : State) (sp : Space) (bytes : List Byte) :
    (fillSpace s sp bytes).reads = s.reads := by cases sp <;> rfl

/-- The size of a space is a matter of the build. -/
theorem spaceSize_congr (hc : t.config = s.config) (sp : Space) : spaceSize t sp = spaceSize s sp := by
  unfold spaceSize
  rw [hc]

theorem fillSpace_withHost (s : State) (sp : Space) (bytes : List Byte) (x : List HostAction) :
    { fillSpace s sp bytes with host := x } = fillSpace { s with host := x } sp bytes := by cases sp <;> rfl

theorem fillSpace_nil (s : State) (sp : Space) : fillSpace s sp [] = s := by
  cases sp <;> simp [fillSpace, Memory.write]

/-! ## Bytes written by a run of steps -/

theorem run_one (s : State) : core.run 1 s = step s := by
  rw [run_succ]
  cases step s <;> rfl

/-- One more byte of a space, by the access that writes it. -/
theorem hostSetByte_fillSpace (hp : s.state ≠ .processing) (hsel : s.sel = []) (hk : s.key.length = s.config.keyMax)
    (hn : bytes.length < spaceSize s sp) (b : Byte) :
    hostSetByte (fillSpace s sp bytes) sp bytes.length b = fillSpace s sp (bytes ++ [b]) := by
  have all := hostActs_writeBytes (bytes := bytes ++ [b]) hp hsel hk (by simpa using hn)
  rw [writeBytes_succ, hostActs_append, hostActs_writeBytes hp hsel hk (Nat.le_of_lt hn), andThen_next,
    hostActs_action (by simpa using hp) (by simpa using hsel) rfl] at all
  have inside : bytes.length < spaceSize (fillSpace s sp bytes) sp := hn.trans_eq (spaceSize_congr (by simp) sp).symm
  exact Host.Outcome.next.inj ((if_pos inside).symm.trans all)

/-- Byte writes taken one a step, the host's later actions standing behind them (R61, R98). -/
theorem run_writeBytes (hp : s.state ≠ .processing) (hsel : s.sel = []) (hk : s.key.length = s.config.keyMax)
    (hn : bytes.length ≤ spaceSize s sp) (hhost : s.host = writeBytes sp bytes ++ rest) :
    core.run bytes.length s = .next (fillSpace { s with host := rest } sp bytes) := by
  induction bytes using List.reverseRecOn generalizing rest with
  | nil =>
    obtain rfl : s.host = rest := hhost
    rw [fillSpace_nil]
    rfl
  | append_singleton bytes b ih =>
    rw [List.length_append, List.length_singleton] at hn ⊢
    rw [writeBytes_succ, List.append_assoc] at hhost
    have inside : bytes.length < spaceSize (fillSpace { s with host := rest } sp bytes) sp := by
      rw [spaceSize_congr (s := s) (by simp)]
      exact hn
    rw [run_add (ih (by omega) hhost), run_one, step_byteWrite_inside (sp := sp) (v := b) (rest := rest)
        (by simpa using hp) (by simpa using hsel) (fillSpace_host _ _ _) (by rwa [fillSpace_withHost]),
      fillSpace_withHost]
    exact congrArg _ (hostSetByte_fillSpace (s := { s with host := rest }) hp hsel hk hn b)

end Sys2Proof.Machine
end

section
/-! A call from beginning to end (`30_encoding.md` R99): the operand writes, the command, the read of `STATUS` and what that
status has read back. -/

namespace Sys2Proof.Machine

variable {s u v : State} {sp : Space} {bytes : List Byte} {acts : List HostAction} {i : Instr} {w : BitVec 32} {c : Cipher}
  {d : Dir} {n nlen tlen : Nat}

/-! ## Calls -/

/-- What a call gives that ends in `v` before it reads, and reads `bytes` after `STATUS`. -/
def callReturn (v : State) (bytes : List Byte) : CallReturn :=
  { status := statusWord v
    readBack := bytes
    after := { v with reads := v.reads ++ (statusWord v).setWidth 64 :: bytes.map fun b => b.setWidth 64 } }

/-- A call that is let through and reads back what `hback` says (R99). -/
theorem performCall_ok {f : CallForm} (hacts : hostActs f.accesses s = .next (callReturn v []).after)
    (hback : hostActs (f.readBack (statusWord v)) (callReturn v []).after = .next (callReturn v bytes).after) :
    performCall (.ok f) s = .next (callReturn v bytes) := by
  have status : ((callReturn v []).after.reads.getLastD 0).setWidth 32 = statusWord v := by
    simp [callReturn, BitVec.setWidth_setWidth_of_le]
  have readBack : ((callReturn v bytes).after.reads.drop (callReturn v []).after.reads.length).map
      (fun x => x.setWidth 8) = bytes := by
    simp [callReturn, Function.comp_def]
  simp only [performCall, hacts, andThen_next, status, hback, readBack]
  rfl

/-- After the operand writes of a call: its command ends, and so does the call, `STATUS` deciding what is read. -/
theorem performCall_command (h : Inv s) (hacts : hostActs acts s = .next u) (hp : u.state ≠ .processing)
    (hwf : i.WellFormed) (hi : encode i = .command w) :
    ∃ v, exec i u = .next v ∧ CommandDone u v ∧ ∀ (f : CallForm) (bytes : List Byte),
      f.accesses = acts ++ issue i ++ [.regRead 1] →
      hostActs (f.readBack (statusWord v)) (callReturn v []).after = .next (callReturn v bytes).after →
      performCall (.ok f) s = .next (callReturn v bytes) := by
  have hu : Inv u := h.of_hostActs hacts
  obtain ⟨v, hv, done⟩ := hu.exists_exec hp (issue_eq hwf hi).2
  refine ⟨v, hv, done, fun f bytes hf hback => performCall_ok ?_ hback⟩
  rw [hf, hostActs_append, hostActs_append, hacts, andThen_next, hostActs_issue hu hp hwf hi hv, andThen_next,
    hostActs_regRead_status done.inv done.settled]
  rfl

/-! ## Key calls -/

/-- The wrapper lets a key length of at most 255 through (R99). -/
theorem keyCall_ok {b : Build} {key : List Byte} {keyLen : Nat} {command : Instr} (h : keyLen ≤ 255) :
    keyCall b key keyLen command = .ok
      { accesses := writeBytes .key (key.take (min keyLen b.keyMax)) ++ issue command ++ [.regRead 1]
        readBack := fun _ => [] } := if_neg (Nat.not_lt.mpr h)

/-- A call with no read back, after writes of one space. -/
theorem performCall_silent (h : Inv s) (hp : s.state ≠ .processing) (hn : bytes.length ≤ spaceSize s sp)
    (hwf : i.WellFormed) (hi : encode i = .command w) :
    ∃ v, exec i (fillSpace s sp bytes) = .next v ∧
      performCall (.ok { accesses := writeBytes sp bytes ++ issue i ++ [.regRead 1], readBack := fun _ => [] }) s =
        .next { status := statusWord v, readBack := [], after := { v with
          reads := s.reads ++ [(statusWord v).setWidth 64] } } := by
  have hacts := hostActs_writeBytes hp (h.selEmpty hp) h.keySize hn
  obtain ⟨v, hv, done, returns⟩ := performCall_command h hacts (by simpa using hp) hwf hi
  refine ⟨v, hv, ?_⟩
  rw [← fillSpace_reads s sp bytes, ← done.reads]
  exact returns _ [] rfl rfl

/-! ## Message calls -/

theorem Buffer.Fits.bytes_length {b : Buffer} {size : Nat} (h : b.Fits size) : b.bytes.length ≤ size := by
  cases b with
  | given bytes => exact h.1
  | resident len => exact Nat.zero_le _

theorem Buffer.Fits.length_toNat {b : Buffer} {size : Nat} (h : b.Fits size) : b.length.toNat ≤ size := by
  cases b with
  | given bytes =>
    have hlen : (BitVec.ofNat 64 bytes.length).toNat = bytes.length := Nat.mod_eq_of_lt h.2
    exact hlen.trans_le h.1
  | resident len => exact h

/-- The message command of a direction. -/
def messageInstr (d : Dir) (n t : Nat) : Instr :=
  if d = .enc then .encryptMessage n t else .decryptMessage n t

theorem exec_messageInstr (d : Dir) (n t : Nat) (s : State) :
    exec (messageInstr d n t) s = message Config.cipher d n t s := by
  cases d <;> rfl

theorem encode_messageInstr (d : Dir) (n t : Nat) :
    encode (messageInstr d n t) = .command (commandWord (if d = .enc then 0x03 else 0x04) n t) := by
  cases d <;> rfl

theorem messageInstr_wellFormed {t : Nat} (d : Dir) (hn : operandFits n) (ht : operandFits t) :
    (messageInstr d n t).WellFormed := by
  cases d <;> exact ⟨hn, ht⟩

/-- The message call of a direction. -/
def messageCall (d : Dir) (nonce : List Byte) (n : Nat) (hdr msg : Buffer) (tagIn : List Byte) (t : Nat) :
    Except ErrorCode CallForm :=
  if d = .enc then callEncryptMessage nonce n hdr msg t else callDecryptMessage nonce n hdr msg tagIn t

/-- The bytes a message call writes to `TAG_IN`: none for an encryption (R99). -/
def tagOperand (d : Dir) (tagIn : List Byte) (t : Nat) : List Byte :=
  match d with
  | .enc => []
  | .dec => tagIn.take (min t 16)

/-- The wrapper lets lengths of at most 255 through, in both directions (R99). -/
theorem messageCall_ok {nonce tagIn : List Byte} {n t : Nat} {hdr msg : Buffer} (d : Dir) (hn : n ≤ 255)
    (ht : t ≤ 255) :
    messageCall d nonce n hdr msg tagIn t = .ok
      { accesses := messageOperands nonce n hdr msg ++ writeBytes .tagIn (tagOperand d tagIn t) ++
          issue (messageInstr d n t) ++ [.regRead 1]
        readBack := fun status => if status = 0 ∨ (d = .dec ∧ status = 1) then messageReadBack msg t else [] } := by
  have narrow : wideLength n t = none := (if_neg (Nat.not_lt.mpr hn)).trans (if_neg (Nat.not_lt.mpr ht))
  cases d with
  | enc => simp [messageCall, messageInstr, callEncryptMessage, narrow, tagOperand, writeBytes]
  | dec => simp [messageCall, messageInstr, callDecryptMessage, narrow, tagOperand]

/-- `s` with the operands of a message call in their places. -/
def withOperands (nonce : List Byte) (hdr msg : Buffer) (tag : List Byte) (s : State) : State :=
  { s with
    nonce := toBytes 13 (nonce ++ s.nonce.toList.drop nonce.length)
    hdr := Memory.write s.hdr 0 hdr.bytes
    msg := Memory.write s.msg 0 msg.bytes
    hdrLenReg := hdr.length
    msgLenReg := msg.length
    tagIn := toBytes 16 (tag ++ s.tagIn.toList.drop tag.length) }

/-- The bytes of a register of which the first `n` were given, seen one by one. -/
theorem filled_take_getD {size n i : Nat} {old : Bytes size} {bytes : List Byte} (h : i < size) :
    (toBytes size (bytes.take (min n size) ++ old.toList.drop (bytes.take (min n size)).length)).toList.getD i 0 =
      if i < n ∧ i < bytes.length then bytes.getD i 0 else old.toList.getD i 0 := by
  have hlen : i < (bytes.take (min n size)).length ↔ i < n ∧ i < bytes.length := by
    rw [List.length_take]; omega
  simp only [filled_getD h, hlen]
  split_ifs with hi
  · exact take_getD (by omega)
  · rfl

/-- The first bytes of a space, seen one by one. -/
theorem byteAt_write_zero (m : Memory) (launch : Nat → Byte) (bytes : List Byte) (a : Nat) :
    Memory.byteAt (Memory.write m 0 bytes) launch a =
      if a < bytes.length then bytes.getD a 0 else Memory.byteAt m launch a := by
  simp [Memory.byteAt_write]

theorem hostActs_messageOperands {nonce tag : List Byte} {n : Nat} {hdr msg : Buffer} (h : Inv s)
    (hp : s.state ≠ .processing) (hhdr : hdr.bytes.length ≤ spaceSize s .hdr)
    (hmsg : msg.bytes.length ≤ spaceSize s .msg) (htag : tag.length ≤ 16) :
    hostActs (messageOperands nonce n hdr msg ++ writeBytes .tagIn tag) s =
      .next (withOperands (nonce.take (min n 13)) hdr msg tag s) := by
  have hsel := h.selEmpty hp
  have hnonce : (nonce.take (min n 13)).length ≤ 13 := by simp
  let withNonce := fillSpace s .nonce (nonce.take (min n 13))
  let withHdr := fillSpace withNonce .hdr hdr.bytes
  let withMsg := fillSpace withHdr .msg msg.bytes
  let withLengths := { withMsg with hdrLenReg := hdr.length, msgLenReg := msg.length }
  have nonceWritten : hostActs (writeBytes .nonce (nonce.take (min n 13))) s = .next withNonce :=
    hostActs_writeBytes hp hsel h.keySize hnonce
  have hdrWritten : hostActs (writeBytes .hdr hdr.bytes) withNonce = .next withHdr :=
    hostActs_writeBytes hp hsel h.keySize hhdr
  have msgWritten : hostActs (writeBytes .msg msg.bytes) withHdr = .next withMsg :=
    hostActs_writeBytes hp hsel h.keySize hmsg
  have lengthsWritten : hostActs [.regWrite 5 hdr.length, .regWrite 4 msg.length] withMsg = .next withLengths :=
    hostActs_writeLengths (s := withMsg) hp hsel _ _
  have tagWritten : hostActs (writeBytes .tagIn tag) withLengths = .next (fillSpace withLengths .tagIn tag) :=
    hostActs_writeBytes hp hsel h.keySize htag
  exact hostActs_append_next (hostActs_append_next (hostActs_append_next (hostActs_append_next nonceWritten hdrWritten)
    msgWritten) lengthsWritten) tagWritten

theorem hostByte_tagOut (s : State) {n : Nat} (hn : n ≤ 16) :
    (List.range n).map (hostByte s .tagOut) = s.tagOut.toList.take n := by
  apply List.ext_getElem (by simpa using hn)
  intro i h1 h2
  have : i < 16 := by simp at h1; omega
  simp [hostByte, this]

/-- What a message call reads back: the message, then the tag (R99). -/
theorem hostActs_messageReadBack {msg : Buffer} {n : Nat} (hp : s.state ≠ .processing) (hsel : s.sel = [])
    (hmsg : msg.length.toNat ≤ spaceSize s .msg) (hn : n ≤ 16) :
    hostActs (messageReadBack msg n) s = .next { s with reads := s.reads ++
      ((List.range msg.length.toNat).map s.msgByte ++ s.tagOut.toList.take n).map fun b => b.setWidth 64 } := by
  let withMsg := { s with
    reads := s.reads ++ (List.range msg.length.toNat).map fun i => (hostByte s .msg i).setWidth 64 }
  have msgRead : hostActs (readBytes .msg msg.length.toNat) s = .next withMsg := hostActs_readBytes hp hsel hmsg
  have tagRead := hostActs_readBytes (s := withMsg) (sp := .tagOut) hp hsel hn
  rw [messageReadBack, hostActs_append_next msgRead tagRead, ← hostByte_tagOut s hn, List.map_append, List.map_map,
    List.map_map, ← List.append_assoc]
  rfl

/-- What a message call has read back when its command ends in `v` (R99). -/
def messageBytes (d : Dir) (msg : Buffer) (n : Nat) (v : State) : List Byte :=
  if v.status = .good ∨ (d = .dec ∧ v.status = .warn) then
    (List.range msg.length.toNat).map v.msgByte ++ v.tagOut.toList.take n
  else []

/-- `STATUS` calls for a read back only after a command that passed its checks, whose tag lies in `TAG_OUT`. -/
theorem hostActs_readBack {msg : Buffer} (hp : v.state ≠ .processing) (hsel : v.sel = [])
    (hmsg : msg.length.toNat ≤ spaceSize v .msg) (hm : message c d nlen tlen u = .next v) :
    hostActs (if statusWord v = 0 ∨ (d = .dec ∧ statusWord v = 1) then messageReadBack msg tlen else [])
      (callReturn v []).after = .next (callReturn v (messageBytes d msg tlen v)).after := by
  simp only [statusWord_eq_zero, statusWord_eq_one, messageBytes]
  split_ifs with hs
  · have ha : Accepted d nlen tlen u := accepted_of_status hm (hs.imp_right And.right)
    rw [hostActs_messageReadBack (s := (callReturn v []).after) hp hsel hmsg (tagLenValue ha).2]
    simp only [callReturn, List.map_nil, List.append_assoc, List.singleton_append]
    rfl
  · rfl

/-- A message call from beginning to end: both directions make the same accesses but for `TAG_IN`. -/
theorem performCall_message {t : Nat} {hdr msg : Buffer} (d : Dir) (nonce tagIn : List Byte) (h : Inv s)
    (hp : s.state ≠ .processing) (hn : n ≤ 255) (ht : t ≤ 255) (hhdr : hdr.Fits (spaceSize s .hdr))
    (hmsg : msg.Fits (spaceSize s .msg)) :
    ∃ v, exec (messageInstr d n t) (withOperands (nonce.take (min n 13)) hdr msg (tagOperand d tagIn t) s) = .next v ∧
      v.reads = s.reads ∧
      performCall (messageCall d nonce n hdr msg tagIn t) s = .next (callReturn v (messageBytes d msg t v)) := by
  have htag : (tagOperand d tagIn t).length ≤ 16 := by cases d <;> simp [tagOperand]
  have hacts := hostActs_messageOperands (nonce := nonce) (n := n) h hp hhdr.bytes_length hmsg.bytes_length htag
  obtain ⟨v, hv, done, returns⟩ := performCall_command h hacts hp
    (messageInstr_wellFormed d (Nat.lt_succ_of_le hn) (Nat.lt_succ_of_le ht)) (encode_messageInstr d n t)
  refine ⟨v, hv, done.reads, ?_⟩
  rw [messageCall_ok d hn ht]
  refine returns _ _ rfl (hostActs_readBack done.settled (done.inv.selEmpty done.settled) ?_
    ((exec_messageInstr d n t _).symm.trans hv))
  rw [spaceSize_congr done.config]
  exact hmsg.length_toNat

end Sys2Proof.Machine

namespace Sys2Proof

open Sys2Proof.Machine

/-- Settles O20: the byte writes one a step, then the command on the filled register. -/
theorem keyCallFillsKeyAndRuns : Obligations.KeyCallFillsKeyAndRuns := by
  intro s key rest h hp hfits hn hhost
  have hwf : operandFits key.length := Nat.lt_succ_of_le hn
  obtain ⟨hissue, hd⟩ := issue_eq (i := .initEnkey key.length) hwf rfl
  rw [hissue, List.append_assoc] at hhost
  rw [run_add (run_writeBytes hp (h.selEmpty hp) h.keySize hfits hhost), run_one]
  exact step_command hp (h.selEmpty hp) rfl (commandOf_word _) hd

/-- Settles O56: the two key calls fill `KEY` first, `reset_message()` writes no operand. -/
theorem keyAndResetCallsReturnStatus : Obligations.KeyAndResetCallsReturnStatus := by
  intro s key n h hp hn given filled returned
  have fits : given.length ≤ spaceSize s .key := by
    simp only [given, List.length_take, spaceSize]; omega
  have hwf : operandFits n := Nat.lt_succ_of_le hn
  refine ⟨?_, ?_, ?_⟩
  · rw [callInitAndEnkey, keyCall_ok hn]
    exact performCall_silent h hp fits (i := .initEnkey n) hwf rfl
  · rw [callInitAndDekey, keyCall_ok hn]
    exact performCall_silent h hp fits (i := .initDekey n) hwf rfl
  · exact performCall_silent h hp (sp := .tagOut) (bytes := []) (Nat.zero_le _) (i := .msgReset) trivial rfl

/-- Settles O57: the operands stand where `withOperands` puts them, and the call goes on from there. -/
theorem messageCallsReadBackByStatus : Obligations.MessageCallsReadBackByStatus := by
  intro d nonce tagIn n t hdr msg s h hp hn ht hhdr hmsg stored
  obtain ⟨v, hv, hreads, hcall⟩ := performCall_message d nonce tagIn h hp hn ht hhdr hmsg
  refine ⟨withOperands (nonce.take (min n 13)) hdr msg (tagOperand d tagIn t) s, v, _, hcall, hv, rfl,
    fun i hi => filled_take_getD hi, fun a => ?_, fun a => ?_, ?_, ?_, rfl, rfl, ?_⟩
  · simp only [stored, and_self]
    exact byteAt_write_zero s.hdr _ hdr.bytes a
  · simp only [stored, and_self]
    exact byteAt_write_zero s.msg _ msg.bytes a
  · rintro rfl
    exact toBytes_of_toList s.tagIn
  · rintro rfl i hi
    exact filled_take_getD hi
  · rw [← hreads]
    rfl

end Sys2Proof
end

section
/-! The block formatter (`41_formatter.md`): the fields of the flags byte, the three forms of the length prefix, and
which bytes `FMT_B0` and `FMT_AAD` put into `blk`. -/

namespace Sys2Proof.Machine

variable {h tagLen l msgLen q : Nat} {nonce : List Byte} {hdr : Nat → Byte} {s : State}

/-! ## The flags byte (R132, R140) -/

theorem adataBit_le_one (h : Nat) : adataBit h ≤ 1 := by
  unfold adataBit; split <;> decide

theorem adataBit_eq_one : adataBit h = 1 ↔ 0 < h := by
  simp [adataBit]

/-- The tag lengths that have a code (R132), as the bounds the arithmetic uses. -/
theorem tagLenLegal.bounds (ht : tagLenLegal tagLen) : 4 ≤ tagLen ∧ tagLen ≤ 16 := by
  simp only [tagLenLegal, List.mem_cons, List.not_mem_nil, or_false] at ht
  omega

/-- The sum of R132 fits a byte, so nothing of it is cut off. -/
theorem b0Flags_toNat (ht : tagLen ≤ 16) (hl : l ≤ 8) :
    (b0Flags h tagLen l).toNat = adataBit h * 64 + (tagLen - 2) / 2 * 8 + (l - 1) := by
  have := adataBit_le_one h
  rw [b0Flags, BitVec.toNat_ofNat]
  omega

/-- A field of a byte, by division. -/
theorem extractLsb'_toNat_eq_div (f : Byte) (start len : Nat) :
    (f.extractLsb' start len).toNat = f.toNat / 2 ^ start % 2 ^ len := by
  rw [BitVec.extractLsb'_toNat, Nat.shiftRight_eq_div_pow]

theorem b0Flags_bit7 (ht : tagLen ≤ 16) (hl : l ≤ 8) : (b0Flags h tagLen l).extractLsb' 7 1 = 0 := by
  have := adataBit_le_one h
  apply BitVec.eq_of_toNat_eq
  rw [extractLsb'_toNat_eq_div, b0Flags_toNat ht hl]
  show _ = 0
  omega

theorem b0Flags_bit6_toNat (ht : tagLen ≤ 16) (hl : l ≤ 8) :
    ((b0Flags h tagLen l).extractLsb' 6 1).toNat = adataBit h := by
  have := adataBit_le_one h
  rw [extractLsb'_toNat_eq_div, b0Flags_toNat ht hl]
  omega

theorem b0Flags_tagField_toNat (ht : tagLen ≤ 16) (hl : l ≤ 8) :
    ((b0Flags h tagLen l).extractLsb' 3 3).toNat = (tagLen - 2) / 2 := by
  rw [extractLsb'_toNat_eq_div, b0Flags_toNat ht hl]
  omega

theorem b0Flags_lengthField_toNat (ht : tagLen ≤ 16) (hl : l ≤ 8) :
    ((b0Flags h tagLen l).extractLsb' 0 3).toNat = l - 1 := by
  rw [extractLsb'_toNat_eq_div, b0Flags_toNat ht hl]
  omega

/-! ## The block `B0` (R131, R133) -/

theorem b0Bytes_getD_flags :
    (b0Bytes h tagLen nonce msgLen).getD 0 0 = b0Flags h tagLen (15 - nonce.length) := rfl

theorem b0Bytes_getD_nonce {i : Nat} (hi : i < nonce.length) :
    (b0Bytes h tagLen nonce msgLen).getD (1 + i) 0 = nonce.getD i 0 := by
  rw [b0Bytes, Nat.add_comm, List.getD_cons_succ, List.getD_append _ _ _ _ hi]

theorem b0Bytes_drop_nonce :
    (b0Bytes h tagLen nonce msgLen).drop (1 + nonce.length) = be msgLen (15 - nonce.length) := by
  rw [b0Bytes, Nat.add_comm, List.drop_succ_cons, List.drop_left]

/-! ## The length prefix (R134) -/

theorem aadPrefix_length (h : Nat) : (aadPrefix h).length = plen h := by
  unfold aadPrefix plen
  split_ifs <;> simp

theorem aadPrefix_of_short (h0 : 0 < h) (hh : h < 65280) : aadPrefix h = be h 2 := by
  rw [aadPrefix, if_neg h0.ne', if_pos hh]

theorem aadPrefix_of_medium (h0 : 65280 ≤ h) (hh : h < 2 ^ 32) : aadPrefix h = [0xFF, 0xFE] ++ be h 4 := by
  rw [aadPrefix, if_neg (by omega), if_neg (by omega), if_pos hh]

theorem aadPrefix_of_long (hh : 2 ^ 32 ≤ h) : aadPrefix h = [0xFF, 0xFF] ++ be h 8 := by
  rw [aadPrefix, if_neg (by omega), if_neg (by omega), if_neg (by omega)]

/-- Below 65280 = `0xFF00` the first of the two bytes is at most `0xFE`, so it is not the mark of a longer form. -/
theorem be_two_first_ne_mark (hh : h < 65280) : (be h 2).getD 0 0 ≠ 0xFF := by
  rw [be_getD h (by decide)]
  intro mark
  have : h / 256 % 256 = 255 := congrArg BitVec.toNat mark
  omega

/-! ## The padded stream (R136) -/

theorem aadBytesFrom_getD {k : Nat} (hk : k < 16) : (aadBytesFrom h hdr q).getD k 0 = aadByte h hdr (q + k) := by
  rw [aadBytesFrom, List.getD_eq_getElem _ _ (by simpa), List.getElem_map, List.getElem_range]

/-- The stream is shorter than `2^65` bytes (`aadTotal_lt`), so `cnt` counts it without a wrap. -/
theorem advancedCnt_toNat (hc : s.cnt.toNat < aadTotal s.headerLen.toNat) :
    (BitVec.ofNat 65 (s.cnt.toNat + min 16 (aadTotal s.headerLen.toNat - s.cnt.toNat))).toNat =
      s.cnt.toNat + min 16 (aadTotal s.headerLen.toNat - s.cnt.toNat) := by
  have := aadTotal_lt s.headerLen
  rw [BitVec.toNat_ofNat, Nat.mod_eq_of_lt (by omega)]

end Sys2Proof.Machine

namespace Sys2Proof

open Sys2Proof.Machine

/-- Settles O40: `execFmtB0_of` gives the next state, and `b0Bytes` is read part by part. -/
theorem fmtB0Result : Obligations.FmtB0Result := by
  intro s h7 h13 ht hm
  have hlen : (nonceBytes s).length = s.nonceLen.toNat := nonceBytes_length h13
  refine ⟨_, execFmtB0_of ⟨h7, h13⟩ ht hm, b0Bytes_length (by omega), ?_, fun i hi => ?_, ?_⟩
  · rw [b0Bytes_getD_flags, hlen]
    rfl
  · rw [b0Bytes_getD_nonce (hlen.symm ▸ hi)]
    exact take_getD hi
  · rw [← hlen, b0Bytes_drop_nonce, hlen, unbe_be hm]

/-- Settles O41, form by form; each length read back is one that fits its field. -/
theorem aadPrefixForms : Obligations.AadPrefixForms := by
  intro h
  refine ⟨aadPrefix_length h, ?_, fun h0 hh => ?_, fun h0 hh => ?_, fun h0 hh => ?_⟩
  · rintro rfl
    rfl
  · rw [aadPrefix_of_short h0 hh]
    exact ⟨be_length h 2, unbe_be (by omega), be_two_first_ne_mark hh⟩
  · rw [aadPrefix_of_medium h0 hh]
    exact ⟨by simp, rfl, unbe_be hh⟩
  · rw [aadPrefix_of_long h0]
    exact ⟨by simp, rfl, unbe_be hh⟩

/-- Settles O42: `execFmtAad_of` gives the next state, whose bytes are those of `aadByte`. -/
theorem fmtAadResult : Obligations.FmtAadResult := by
  intro s h0 hc hform h n
  have hasForm : ¬ (s.config.longMessages = false ∧ 2 ^ 32 ≤ s.headerLen.toNat) := by
    rintro ⟨short, long⟩
    rcases hform with hlong | hsmall
    · cases short.symm.trans hlong
    · omega
  exact ⟨_, _, execFmtAad_of h0.ne' hc hasForm, advancedCnt_toNat hc, aadBytesFrom_length _ _ _,
    fun _ hk => aadBytesFrom_getD hk⟩

/-- Settles O39: `tagLen` is at most 16 and `L` at most 8, so each term of R132 has its own bits. -/
theorem b0FlagsFields : Obligations.B0FlagsFields := by
  intro h tagLen nonceLen ht h7 h13 f
  obtain ⟨tagMin, tagMax⟩ := tagLenLegal.bounds ht
  have hl : 15 - nonceLen ≤ 8 := by omega
  have tagField : (f.extractLsb' 3 3).toNat = (tagLen - 2) / 2 := b0Flags_tagField_toNat tagMax hl
  have lengthField : (f.extractLsb' 0 3).toNat = 15 - nonceLen - 1 := b0Flags_lengthField_toNat tagMax hl
  refine ⟨b0Flags_bit7 tagMax hl, ?_, tagField, lengthField, fun zero => ?_, fun zero => ?_⟩
  · rw [← adataBit_eq_one, ← b0Flags_bit6_toNat tagMax hl, ← BitVec.toNat_inj]
    rfl
  · have : (f.extractLsb' 3 3).toNat = 0 := congrArg BitVec.toNat zero
    omega
  · have : (f.extractLsb' 0 3).toNat = 0 := congrArg BitVec.toNat zero
    omega

end Sys2Proof
end

section
/-! The MAC accumulator (`42_mac_accumulator.md`): the bytes `MAC_INIT` clears it to, and the block `MAC_FOLD` gives
the cipher. -/

namespace Sys2Proof.Machine

theorem zeroBytes_getD (n i : Nat) : (zeroBytes n).toList.getD i 0 = 0 := by
  rw [zeroBytes_toList, zeros, List.getD_eq_getElem?_getD, List.getElem?_getD_replicate_default_eq]

/-- `pad16` keeps the bytes of a string and follows them with zero bytes (R8). -/
theorem pad16_getD (s : List Byte) {i : Nat} (hi : i < 16) :
    (pad16 s).toList.getD i 0 = if i < s.length then s.getD i 0 else 0 := by
  rw [pad16, toBytes_getD, if_pos hi]
  split
  case isTrue => rfl
  case isFalse beyond => exact List.getD_eq_default _ _ (Nat.le_of_not_lt beyond)

/-- A block is the accumulator xor the padded `blk` (R152) as soon as its sixteen bytes are. -/
theorem eq_xorBlock_pad16 {x a : Block} {s : List Byte}
    (hx : ∀ i < 16, x.toList.getD i 0 = a.toList.getD i 0 ^^^ (if i < s.length then s.getD i 0 else 0)) :
    x = xorBlock a (pad16 s) :=
  bytes_ext fun i hi => by rw [hx i hi, xorBlock_getD a _ hi, pad16_getD s hi]

end Sys2Proof.Machine

namespace Sys2Proof

open Sys2Proof.Machine

/-- Settles O44: byte by byte `x` is what the model gives the cipher, and `macFold_of` gives the next state. -/
theorem macFoldResult : Obligations.MacFoldResult := by
  intro s k x hk nonempty short hx
  obtain rfl : x = xorBlock s.macAccumulator (pad16 s.blk) := eq_xorBlock_pad16 hx
  exact macFold_of hk (Nat.ne_of_gt nonempty) short

/-- Settles O43: `execMacInit_of` gives the next state, whose accumulator is `zeroBytes 16`. -/
theorem macInitResult : Obligations.MacInitResult := fun _ =>
  ⟨zeroBytes 16, execMacInit_of, fun i _ => zeroBytes_getD 16 i⟩

end Sys2Proof
end

section
/-! The counter cipher (`43_counter_cipher.md`): the three parts of a counter block and its suffix read as a number,
what `increment` does to that number, and the payload block read, xor-ed and stored byte by byte. -/

namespace Sys2Proof.Machine

variable {s : State} {nonce : List Byte} {cb : Block} {l : Nat}

/-! ## The counter block (R160) -/

theorem ctrBlock_getD_flags (hn : nonce.length ≤ 15) (j : Nat) :
    (ctrBlock nonce j).toList.getD 0 0 = ctrFlags (15 - nonce.length) := by
  rw [ctrBlock_toList hn]
  rfl

theorem ctrBlock_getD_nonce (hn : nonce.length ≤ 15) (j : Nat) {i : Nat} (hi : i < nonce.length) :
    (ctrBlock nonce j).toList.getD (1 + i) 0 = nonce.getD i 0 := by
  rw [ctrBlock_toList hn, Nat.add_comm, List.getD_cons_succ, List.getD_append _ _ _ _ hi]

theorem ctrBlock_getD_counter (hn : nonce.length ≤ 15) (j i : Nat) :
    (ctrBlock nonce j).toList.getD (1 + nonce.length + i) 0 = (be j (15 - nonce.length)).getD i 0 := by
  rw [ctrBlock_toList hn, Nat.add_assoc, Nat.add_comm 1, List.getD_cons_succ,
    List.getD_append_right _ _ _ _ (by omega), Nat.add_sub_cancel_left]

/-- The last `L` bytes of a counter block hold its index. -/
theorem ctrBlock_suffix (hn : nonce.length ≤ 15) (j : Nat) :
    (ctrBlock nonce j).toList.drop (16 - (15 - nonce.length)) = be j (15 - nonce.length) := by
  rw [ctrBlock_toList hn, show 16 - (15 - nonce.length) = nonce.length + 1 by omega, List.drop_succ_cons,
    List.drop_left]

/-- The index can be read back from the block, so blocks with distinct indices are distinct (R171). -/
theorem ctrBlock_injective (hn : nonce.length ≤ 15) {i j : Nat} (hi : i < 2 ^ (8 * (15 - nonce.length)))
    (hj : j < 2 ^ (8 * (15 - nonce.length))) (h : ctrBlock nonce i = ctrBlock nonce j) : i = j := by
  apply be_injective hi hj
  rw [← ctrBlock_suffix hn i, h, ctrBlock_suffix hn j]

/-! ## `increment` (R163) -/

/-- The number in the last `l` bytes of a block is one of `l` bytes. -/
theorem unbe_suffix_lt (cb : Block) (hl : l ≤ 16) : unbe (cb.toList.drop (16 - l)) < 2 ^ (8 * l) := by
  have length : (cb.toList.drop (16 - l)).length = l := by
    rw [List.length_drop, Vector.length_toList]
    omega
  have bound := unbe_lt (cb.toList.drop (16 - l))
  rwa [length] at bound

/-- At the wrap `increment` has no value (U3). -/
theorem increment_eq_none (h : unbe (cb.toList.drop (16 - l)) + 1 = 2 ^ (8 * l)) : increment cb l = none := if_pos h

/-- Away from the wrap the number in the last `l` bytes goes up by 1 and the bytes before it stay. -/
theorem increment_of_lt (hl : l ≤ 16) (h : unbe (cb.toList.drop (16 - l)) + 1 < 2 ^ (8 * l)) :
    ∃ cb', increment cb l = some cb' ∧ cb'.toList.take (16 - l) = cb.toList.take (16 - l) ∧
      unbe (cb'.toList.drop (16 - l)) = unbe (cb.toList.drop (16 - l)) + 1 := by
  have kept : (cb.toList.take (16 - l)).length = 16 - l := by
    rw [List.length_take, Vector.length_toList]
    omega
  refine ⟨_, if_neg (Nat.ne_of_lt h), ?_, ?_⟩ <;>
    rw [toBytes_toList_of_length (by rw [List.length_append, kept, be_length]; omega)]
  · exact List.take_left' kept
  · rw [List.drop_left' kept, unbe_be h]

theorem execCtrInc_fault_counterWrap (hn : nonceLenLegal s.nonceLen.toNat)
    (h : increment s.counterBlock (15 - s.nonceLen.toNat) = none) : execCtrInc s = .fault .counterWrap := by
  rw [execCtrInc, latchedL_of_legal hn]
  simp only [h]

/-! ## The payload block (R165 to R167) -/

theorem memReadMsg_length (s : State) (a n : Nat) : (s.memReadMsg a n).length = n := by
  rw [State.memReadMsg, List.length_map, List.length_range]

theorem memReadMsg_getD (s : State) (a : Nat) {n i : Nat} (hi : i < n) :
    (s.memReadMsg a n).getD i 0 = s.msgByte (a + i) := by
  rw [State.memReadMsg, List.getD_eq_getElem _ _ (by simpa), List.getElem_map, List.getElem_range]

/-- `xor` with the same string twice gives the string back, as far as that string reaches (R166). -/
theorem xorBytes_xorBytes_cancel {x k : List Byte} (h : x.length ≤ k.length) : xorBytes (xorBytes x k) k = x := by
  apply List.ext_getElem
  · simp [h]
  · intro i _ _
    simp [xorBytes]

/-- A payload that ends within `MSG_LEN` ends below `2^64`, so `text_position` does not wrap. -/
theorem advancedPosition_toNat {n : Nat} (h : s.textPosition.toNat + n ≤ s.msgLen.toNat) :
    (BitVec.ofNat 64 (s.textPosition.toNat + n)).toNat = s.textPosition.toNat + n :=
  Nat.mod_eq_of_lt (Nat.lt_of_le_of_lt h s.msgLen.isLt)

end Sys2Proof.Machine

namespace Sys2Proof

open Sys2Proof.Machine

/-- Settles O45: `execCtrLoad0_of` gives the block of index 0, whose counter bytes are those of `be 0 L`. -/
theorem ctrLoad0Result : Obligations.CtrLoad0Result := by
  intro s h7 h13
  have hlen : (nonceBytes s).length = s.nonceLen.toNat := nonceBytes_length h13
  have short : (nonceBytes s).length ≤ 15 := by omega
  refine ⟨_, execCtrLoad0_of ⟨h7, h13⟩, ?_, fun i hi => ?_, fun i hi _ => ?_⟩
  · rw [ctrBlock_getD_flags short, hlen]
    rfl
  · rw [ctrBlock_getD_nonce short 0 (hlen.symm ▸ hi)]
    exact take_getD hi
  · obtain ⟨k, rfl⟩ : ∃ k, i = 1 + (nonceBytes s).length + k := Nat.exists_eq_add_of_le (by omega)
    rw [ctrBlock_getD_counter short, be_zero_left, ← zeroBytes_toList, zeroBytes_getD]

/-- Settles O46: the suffix is below `2^(8L)`, so either `increment` adds 1 to it or it is at the wrap. -/
theorem ctrIncResult : Obligations.CtrIncResult := by
  intro s h7 h13 l v
  have hl : l ≤ 16 := by omega
  have below : v < 2 ^ (8 * l) := unbe_suffix_lt s.counterBlock hl
  refine ⟨fun room => ?_, fun full => ?_, below⟩
  · obtain ⟨cb, hcb, kept, up⟩ := increment_of_lt hl room
    exact ⟨cb, execCtrInc_of ⟨h7, h13⟩ hcb, kept, up⟩
  · exact execCtrInc_fault_counterWrap ⟨h7, h13⟩ (increment_eq_none (Nat.le_antisymm below full))

/-- Settles O48: `execPayLoad_of` gives the next state, whose `blk` is the read of `payloadCount` bytes. -/
theorem payLoadResult : Obligations.PayLoadResult := fun s h =>
  have hlen := memReadMsg_length s s.textPosition.toNat (payloadCount s)
  ⟨_, execPayLoad_of h, hlen, fun _ hi => memReadMsg_getD s _ (hlen ▸ hi)⟩

/-- Settles O49: the keystream reaches over the whole block, so every byte is xor-ed and the second time undoes the
first. -/
theorem payXorResult : Obligations.PayXorResult := by
  intro s short
  have cover : (s.ks.toList.take s.blk.length).length = s.blk.length := by
    rw [List.length_take, Vector.length_toList, Nat.min_eq_left short]
  have hlen : (xorBytes s.blk (s.ks.toList.take s.blk.length)).length = s.blk.length := by
    rw [xorBytes_length, cover, Nat.min_self]
  refine ⟨_, execPayXor_of short, hlen, fun i hi => ?_, ?_⟩
  · rw [xorBytes_getD hi (cover.symm ▸ hi), take_getD hi]
  · refine (execPayXor_of (hlen.symm ▸ short)).trans ?_
    rw [hlen, xorBytes_xorBytes_cancel cover.ge]

/-- Settles O50: `execPayStore_of` gives the next state, and `Memory.byteAt_write` each byte of its `MSG`. -/
theorem payStoreResult : Obligations.PayStoreResult := by
  intro s short inside
  refine ⟨_, execPayStore_of short inside, rfl, advancedPosition_toNat inside, fun i hi => ?_, fun a outside => ?_⟩
  · rw [State.msgByte, Memory.byteAt_write, if_pos (by omega), Nat.add_sub_cancel_left]
  · rw [State.msgByte, Memory.byteAt_write, if_neg (by omega)]
    rfl

/-- Settles O51: a block holds its index, and as `L` is at least 2 the last index of a message, its number of
payload blocks, is in range. -/
theorem countersNeverCollide : Obligations.CountersNeverCollide := fun _ _ h13 =>
  ⟨fun _ _ hi hj distinct same => distinct (ctrBlock_injective (by omega) hi hj same),
    fun _ hm => payloadBlocks_lt (by omega) hm⟩

/-- Settles O52: away from the wrap by `increment_ctrBlock`; at the last index the suffix of the block is at the
wrap. -/
theorem incrementStepsTheIndex : Obligations.IncrementStepsTheIndex := by
  intro nonce j _ h13
  refine ⟨increment_ctrBlock rfl h13, fun last => increment_eq_none ?_⟩
  rw [ctrBlock_suffix (by omega), unbe_be (last ▸ Nat.lt_succ_self j), last]

/-- Settles O47: `KS_GEN` with the bound cipher is `ksGen`, whose next state is `ksGen_of`. -/
theorem ksGenResult : Obligations.KsGenResult := fun _ _ hk => ksGen_of hk

end Sys2Proof
end

section
/-! The tag (`44_tag.md`): the bytes `TAG_MASK` gives, the byte-wise reading of a comparison, and how the comparison ends
an accepted message. -/

namespace Sys2Proof.Machine

/-! ## The masked MAC (R181) -/

theorem maskedTag_getD_of_lt (mac ks : Block) {tagLen i : Nat} (ht : tagLen ≤ 16) (hi : i < tagLen) :
    (maskedTag mac ks tagLen).toList.getD i 0 = mac.toList.getD i 0 ^^^ ks.toList.getD i 0 := by
  have inside : i < ((xorBlock mac ks).toList.take tagLen).length := by
    rw [List.length_take, Vector.length_toList]
    omega
  rw [maskedTag, toBytes_getD, if_pos (by omega), List.getD_append _ _ _ _ inside, take_getD hi,
    xorBlock_getD mac ks (by omega)]

theorem maskedTag_getD_of_ge (mac ks : Block) {tagLen i : Nat} (hi : tagLen ≤ i) :
    (maskedTag mac ks tagLen).toList.getD i 0 = 0 := by
  have outside : ((xorBlock mac ks).toList.take tagLen).length ≤ i := by
    rw [List.length_take]
    omega
  rw [maskedTag, toBytes_getD, List.getD_append_right _ _ _ _ outside, ← zeroBytes_toList, zeroBytes_getD, ite_self]

/-! ## The comparison (R183) -/

/-- Two registers agree on their first `m` bytes exactly when they agree byte by byte there. -/
theorem take_eq_take_iff_getD {n m : Nat} (a b : Bytes n) :
    a.toList.take m = b.toList.take m ↔ ∀ i < m, a.toList.getD i 0 = b.toList.getD i 0 := by
  constructor
  case mp =>
    intro same i hi
    rw [← take_getD hi, same, take_getD hi]
  case mpr =>
    intro same
    apply List.ext_getElem (by simp)
    intro i ha hb
    have hi : i < m := Nat.lt_of_lt_of_le ha (List.length_take_le _ _)
    have byte := same i hi
    rwa [← take_getD hi, ← take_getD (s := b.toList) hi, List.getD_eq_getElem _ _ ha,
      List.getD_eq_getElem _ _ hb] at byte

/-! ## The outcome of a message (R184, `45_controller.md` R212) -/

section

variable (c : Cipher) (k : KeySchedule) {d : Dir} {nlen tlen : Nat} {s : State}

theorem messageResult_of_tagAccepted (h : tagAccepted d tlen (messageResult c k d nlen tlen s).tagOut s.tagIn) :
    (messageResult c k d nlen tlen s).status = .good ∧ (messageResult c k d nlen tlen s).state = .messageOk :=
  ⟨if_pos h, if_pos h⟩

theorem messageResult_of_not_tagAccepted
    (h : ¬ tagAccepted d tlen (messageResult c k d nlen tlen s).tagOut s.tagIn) :
    (messageResult c k d nlen tlen s).status = .warn ∧ (messageResult c k d nlen tlen s).state = .messageFailed :=
  ⟨if_neg h, if_neg h⟩

theorem tagAccepted_dec {tag tagIn : Block} :
    tagAccepted .dec tlen tag tagIn ↔ tag.toList.take tlen = tagIn.toList.take tlen :=
  or_iff_right nofun

end

end Sys2Proof.Machine

namespace Sys2Proof

open Sys2Proof.Machine

/-- Settles O34: the next state is the closed form, whose `status` and `state` are decided by `tagAccepted`. -/
theorem decryptStatusIsTheTagComparison : Obligations.DecryptStatusIsTheTagComparison := by
  intro nlen tlen s keyed ha
  obtain ⟨k, hk⟩ := Option.ne_none_iff_exists'.mp keyed
  refine ⟨_, message_accepted ha hk, rfl, fun agree => ?_, fun differ => ?_⟩
  · exact messageResult_of_tagAccepted _ _ (tagAccepted_dec.mpr agree)
  · exact messageResult_of_not_tagAccepted _ _ (mt tagAccepted_dec.mp differ)

/-- Settles O53: `execTagMask_of` gives the next state, whose `TAG_OUT` is `maskedTag`. -/
theorem tagMaskResult : Obligations.TagMaskResult := fun _ ht =>
  ⟨_, execTagMask_of ht, fun _ hi => maskedTag_getD_of_lt _ _ ht hi, fun _ hi _ => maskedTag_getD_of_ge _ _ hi⟩

/-- Settles O54: `execTagCmp_of` gives the next state, whose `match` is the equality of the two prefixes. -/
theorem tagCmpResult : Obligations.TagCmpResult := fun s ht =>
  ⟨_, execTagCmp_of ht, decide_eq_true_iff.trans (take_eq_take_iff_getD s.tagOut s.tagIn)⟩

end Sys2Proof
end

section
/-! A group of an accepted message always ends (`45_controller.md` R205, R206, `60_exceptions.md` R233): at its start
nothing that a micro-operation asks for is missing, and it ends at a block boundary or with the message. -/

namespace Sys2Proof.Machine

variable {c : Cipher} {k : KeySchedule} {s t : State}

/-! ## Block boundaries -/

/-- Whole blocks are done (R137, R168), the associated data before the payload, and at a full payload block the counter
block is that of this block (R161). -/
structure WholeBlocks (s : State) : Prop where
  aad : s.cnt.toNat % 16 = 0 ∨ s.cnt.toNat = aadTotal s.headerLen.toNat
  order : s.textPosition = 0 ∨ s.cnt.toNat = aadTotal s.headerLen.toNat
  payload : s.textPosition.toNat % 16 = 0 ∨ s.textPosition = s.msgLen
  counter : s.textPosition.toNat % 16 = 0 →
    s.counterBlock = ctrBlock (nonceBytes s) (s.textPosition.toNat / 16)

/-- With whole blocks done and `NextPhase()` taken, the sequencer stands at the start of a group (R205). -/
theorem WholeBlocks.atBoundary (h : WholeBlocks s) (hcnt : s.cnt.toNat ≤ aadTotal s.headerLen.toNat)
    (htext : s.textPosition.toNat ≤ s.msgLen.toNat) (hp : s.phase = nextPhase s) : AtBoundary s := by
  unfold AtBoundary
  rw [hp, nextPhase]
  split_ifs with haad hpayload
  · have notStarted : s.textPosition = 0 := h.order.resolve_right haad.ne
    have counter := h.counter (by rw [notStarted]; rfl)
    rw [notStarted] at counter
    exact ⟨h.aad.resolve_right haad.ne, haad, notStarted, counter⟩
  · have full : s.textPosition.toNat % 16 = 0 := h.payload.resolve_right fun e => hpayload.ne (congrArg _ e)
    exact ⟨le_antisymm hcnt (not_lt.mp haad), full, hpayload, h.counter full⟩
  · exact ⟨le_antisymm hcnt (not_lt.mp haad), BitVec.eq_of_toNat_eq (le_antisymm htext (not_lt.mp hpayload))⟩

/-- A group that leaves a message in progress with whole blocks done leads to the start of a group. -/
theorem GroupReady.of_runGroup (h : GroupReady s) (hg : runGroup c s = .next t) (hstate : t.state = .processing)
    (hp : t.phase = nextPhase t) (hw : WholeBlocks t) : GroupReady t :=
  have ⟨inv, sel⟩ := Inv.runGroup hg ⟨h.inv, h.noneRunning⟩
  ⟨inv, hstate, sel, hw.atBoundary inv.cntInside inv.textInside hp⟩

/-! ## The groups -/

theorem GroupReady.boundary_of_phase (h : GroupReady s) {p : Phase} (hp : s.phase = p) :
    AtBoundary { s with phase := p } := by
  rw [← hp]; exact h.boundary

/-- The accumulator starts and no block is done (R207). -/
theorem GroupReady.b0_group (h : GroupReady s) (hk : s.keySchedule = some k) (hp : s.phase = .b0) :
    ∃ t, runGroup c s = .next t ∧ GroupReady t := by
  have lengths := h.inv.lengths (.inl h.processing)
  obtain ⟨hcnt, htext⟩ : s.cnt = 0 ∧ s.textPosition = 0 := h.boundary_of_phase hp
  have hg := b0Group (c := c) hp hk lengths.nonce lengths.tag lengths.fits
  refine ⟨_, hg, h.of_runGroup hg h.processing rfl
    { aad := .inl ?_, order := .inl htext, payload := .inl ?_, counter := fun _ => ?_ }⟩
  · simp only [hcnt]; rfl
  · simp only [htext]; rfl
  · simp only [htext]; rfl

/-- A header that was accepted has a length form in this build (R134, R198). -/
theorem LengthsLegal.longForm_exists (h : LengthsLegal s) :
    ¬ (s.config.longMessages = false ∧ 2 ^ 32 ≤ s.headerLen.toNat) := by
  rintro ⟨short, long⟩
  have bound := h.hdrMax
  rw [Build.lenMax, short] at bound
  exact absurd (long.trans bound) (by decide)

/-- One more block of associated data (R208). -/
theorem GroupReady.aad_group (h : GroupReady s) (hk : s.keySchedule = some k) (hp : s.phase = .aad) :
    ∃ t, runGroup c s = .next t ∧ GroupReady t := by
  have lengths := h.inv.lengths (.inl h.processing)
  obtain ⟨hfull, hmore, htext, hcounter⟩ : s.cnt.toNat % 16 = 0 ∧ s.cnt.toNat < aadTotal s.headerLen.toNat ∧
    s.textPosition = 0 ∧ s.counterBlock = ctrBlock (nonceBytes s) 0 := h.boundary_of_phase hp
  have header : s.headerLen.toNat ≠ 0 := by
    intro empty
    rw [empty] at hmore
    exact absurd hmore (Nat.not_lt_zero _)
  have hg := aadGroup (c := c) hp hk header hmore lengths.longForm_exists rfl
  refine ⟨_, hg, h.of_runGroup hg h.processing rfl
    { aad := ?_, order := .inl htext, payload := .inl ?_, counter := fun _ => ?_ }⟩
  · simp only [advancedCnt_toNat hmore]
    omega
  · simp only [htext]; rfl
  · simp only [htext, hcounter]; rfl

/-- A payload block that is still to do has a counter block below the wrap (R161, R163). -/
theorem LengthsLegal.increment_exists (h : LengthsLegal s) {i : Nat} (hi : 16 * i < s.msgLen.toNat) :
    increment (ctrBlock (nonceBytes s) i) (15 - s.nonceLen.toNat) = some (ctrBlock (nonceBytes s) (i + 1)) := by
  obtain ⟨-, h13⟩ := h.nonce
  have hlen : (nonceBytes s).length = s.nonceLen.toNat := nonceBytes_length h13
  have fits := payloadBlocks_lt (by omega) h.fits
  have block : i < payloadBlocks s.msgLen.toNat := lt_payloadBlocks.mpr hi
  exact increment_ctrBlock (by rw [hlen]) (by omega) (by omega)

/-- One more block of payload (R209, R210). -/
theorem GroupReady.payload_group (h : GroupReady s) (hk : s.keySchedule = some k) (hp : s.phase = .payload) :
    ∃ t, runGroup c s = .next t ∧ GroupReady t := by
  have lengths := h.inv.lengths (.inl h.processing)
  obtain ⟨hcnt, hfull, hmore, hcounter⟩ : s.cnt.toNat = aadTotal s.headerLen.toNat ∧ s.textPosition.toNat % 16 = 0 ∧
    s.textPosition.toNat < s.msgLen.toNat ∧
    s.counterBlock = ctrBlock (nonceBytes s) (s.textPosition.toNat / 16) := h.boundary_of_phase hp
  have hcb := lengths.increment_exists (i := s.textPosition.toNat / 16) (by omega)
  rw [← hcounter] at hcb
  have hg := payloadGroup (c := c) hp hk lengths.nonce hmore hcb rfl rfl rfl
  have count : payloadCount s = min 16 (s.msgLen.toNat - s.textPosition.toNat) := rfl
  have moved : (BitVec.ofNat 64 (s.textPosition.toNat +
      (s.memReadMsg s.textPosition.toNat (payloadCount s)).length)).toNat =
      s.textPosition.toNat + payloadCount s := by
    rw [memReadMsg_length, advancedPosition_toNat (by omega)]
  refine ⟨_, hg, h.of_runGroup hg h.processing rfl
    { aad := .inr hcnt, order := .inr hcnt, payload := ?_, counter := fun full => ?_ }⟩
  · rw [← BitVec.toNat_inj]
    simp only [moved]
    omega
  · simp only [moved] at full ⊢
    rw [show (s.textPosition.toNat + payloadCount s) / 16 = s.textPosition.toNat / 16 + 1 by omega]
    rfl

/-- The tag group ends the message (R211, R212). -/
theorem GroupReady.tag_group (h : GroupReady s) (hk : s.keySchedule = some k) (hp : s.phase = .tag) :
    ∃ t, runGroup c s = .next t ∧ Inv t ∧ (t.state = .messageOk ∨ t.state = .messageFailed) := by
  have lengths := h.inv.lengths (.inl h.processing)
  have hg := tagGroup (c := c) hp hk lengths.nonce (tagLenLegal.bounds lengths.tag).2 rfl
  refine ⟨_, hg, (Inv.runGroup hg ⟨h.inv, h.noneRunning⟩).1, ?_⟩
  simp only
  split_ifs
  · exact .inl rfl
  · exact .inr rfl

end Sys2Proof.Machine

namespace Sys2Proof

open Sys2Proof.Machine

/-- Settles O27, group by group. -/
theorem groupsNeverFault : Obligations.GroupsNeverFault := by
  intro s h
  have keyed := ((inv_iff_inMessage h.processing).mp h.inv).keyed
  obtain ⟨k, hk⟩ := Option.ne_none_iff_exists'.mp keyed
  cases hp : s.phase with
  | idle => exact (h.boundary_of_phase hp).elim
  | b0 => exact (h.b0_group hk hp).imp fun _ => And.imp_right .inl
  | aad => exact (h.aad_group hk hp).imp fun _ => And.imp_right .inl
  | payload => exact (h.payload_group hk hp).imp fun _ => And.imp_right .inl
  | tag => exact (h.tag_group hk hp).imp fun _ => And.imp_right .inr

end Sys2Proof
end

section
/-! The fine-grained run (`45_controller.md` R191, R205, R206): the micro-operations of a group, one a step, are the
group, and those of all the groups of a message are the message command. -/

namespace Sys2Proof.Machine

variable {k : KeySchedule} {d : Dir} {nlen tlen : Nat} {s t u : State}

/-! ## One micro-operation a step -/

/-- The codes of these micro-operations as the ones still to issue. -/
def issuing (ms : List MicroOp) (s : State) : State := { s with sel := ms.map MicroOp.code }

/-- A step that issues the next of them: its meaning does not look at the others. -/
theorem step_issuing (m : MicroOp) (ms : List MicroOp) (s : State) :
    step (issuing (m :: ms) s) =
      andThen (microMeaning Config.cipher m s) fun u => .next (closeGroup (issuing ms u)) := by
  rw [step_sel (s := issuing (m :: ms) s) rfl (decode_code m), exec_toInstr]
  refine (congrArg (andThen · _) (microMeaning_sel _ m s (ms.map MicroOp.code))).trans ?_
  cases microMeaning Config.cipher m s <;> rfl

/-- The group ends with its last micro-operation (R205). -/
theorem closeGroup_issuing_nil (hp : s.state = .processing) (hsel : s.sel = []) :
    closeGroup (issuing [] s) = endGroup s := by
  have nothing : issuing [] s = s := by rw [issuing, List.map_nil, ← hsel]
  rw [nothing]
  exact if_pos ⟨hsel, hp⟩

theorem closeGroup_issuing_cons (m : MicroOp) (ms : List MicroOp) (s : State) :
    closeGroup (issuing (m :: ms) s) = issuing (m :: ms) s :=
  if_neg fun h => List.cons_ne_nil _ _ h.1

/-- Micro-operations issued one a step run back to back and end the group. -/
theorem run_issuing (m : MicroOp) (ms : List MicroOp) (hp : s.state = .processing) (hsel : s.sel = []) :
    core.run (m :: ms).length (issuing (m :: ms) s) =
      andThen (runOps Config.cipher (m :: ms) s) fun t => .next (endGroup t) := by
  induction ms generalizing m s with
  | nil =>
    rw [List.length_singleton, run_one, step_issuing, runOps]
    cases hm : microMeaning Config.cipher m s with
    | fault f => rfl
    | refused r => rfl
    | next u =>
      have same := (microMeaning_frame hm).1
      exact congrArg Host.Outcome.next (closeGroup_issuing_nil (same.state.trans hp) (same.sel.trans hsel))
  | cons m' ms ih =>
    rw [List.length_cons, run_succ, step_issuing, runOps]
    cases hm : microMeaning Config.cipher m s with
    | fault f => rfl
    | refused r => rfl
    | next u =>
      have same := (microMeaning_frame hm).1
      exact (congrArg (core.run _) (closeGroup_issuing_cons m' ms u)).trans
        (ih m' (same.state.trans hp) (same.sel.trans hsel))

/-- A group has a first micro-operation. -/
theorem groupOps_eq_cons {p : Phase} (hp : p ≠ .idle) (d : Dir) : ∃ m ms, groupOps p d = m :: ms := by
  cases p
  case idle => exact absurd rfl hp
  case b0 | aad => exact ⟨_, _, rfl⟩
  case payload | tag => cases d <;> exact ⟨_, _, rfl⟩

/-- Between two groups the sequencer issues the codes of the group that `phase` names (R205). -/
theorem step_startGroup {m : MicroOp} {ms : List MicroOp} (hp : s.state = .processing) (hsel : s.sel = [])
    (hw : ¬ wholeOnly s) (hops : groupOps s.phase s.dir = m :: ms) : step s = step (issuing (m :: ms) s) := by
  have pending : pendingCodes s = (m :: ms).map MicroOp.code := by rw [pendingCodes, if_pos ⟨hsel, hp⟩, hops]
  have first : fetch s = .code (.micro m.code) { s with sel := ms.map MicroOp.code } := by
    rw [fetch, pending]
    exact if_neg fun h => hw h.2
  have issued : fetch (issuing (m :: ms) s) = .code (.micro m.code) { s with sel := ms.map MicroOp.code } :=
    fetch_sel rfl
  rw [step, step, first, issued]

/-- The micro-operations of a group, one a step, are the group (R205). -/
theorem run_groupOps (hp : s.state = .processing) (hsel : s.sel = []) (hphase : s.phase ≠ .idle)
    (hw : ¬ wholeOnly s) : core.run (groupOps s.phase s.dir).length s = runGroup Config.cipher s := by
  obtain ⟨m, ms, hops⟩ := groupOps_eq_cons hphase s.dir
  rw [runGroup, if_neg hphase, hops, ← run_issuing m ms hp hsel, List.length_cons, run_succ, run_succ,
    step_startGroup hp hsel hw hops]

/-! ## All the groups of a message -/

theorem run_trans {i j : Nat} (h : core.run i s = .next t) (g : core.run j t = .next u) :
    core.run (i + j) s = .next u := (run_add h).trans g

/-- Runs of the same length, one after the other. -/
theorem run_mul {f : Nat → State} {len n : Nat} (h : ∀ i < n, core.run len (f i) = .next (f (i + 1))) :
    core.run (len * n) (f 0) = .next (f n) := by
  induction n with
  | zero => rfl
  | succ n ih => exact run_trans (ih fun i hi => h i (Nat.lt_succ_of_lt hi)) (h n n.lt_succ_self)

/-- A group that goes on is its micro-operations, one a step. -/
theorem run_group {p : Phase} (hg : runGroup Config.cipher s = .next t) (hp : s.state = .processing)
    (hsel : s.sel = []) (hw : ¬ wholeOnly s) (hphase : s.phase = p) :
    core.run (groupOps p s.dir).length s = .next t := by
  rw [← hphase]
  exact (run_groupOps hp hsel (runGroup_next.mp hg).1 hw).trans hg

theorem groupOps_payload_length (d : Dir) : (groupOps .payload d).length = 6 := by cases d <;> rfl

/-- The micro-operations of all the groups of an accepted message, one a step (R191, R206). -/
theorem run_message (ha : Accepted d nlen tlen s) (hk : s.keySchedule = some k) (hsel : s.sel = [])
    (hw : ¬ (s.config.releasePolicy = .buffered ∧ d = .dec)) :
    core.run (4 + 2 * aadBlocks s.hdrLenReg.toNat + 6 * payloadBlocks s.msgLenReg.toNat + (groupOps .tag d).length)
      (latch nlen tlen s) = .next (messageDone Config.cipher k d nlen tlen s) := by
  have hd : s.dir = d := ha.direction
  have hwhole : ¬ (s.config.releasePolicy = .buffered ∧ s.dir = .dec) := hd ▸ hw
  have b0 : core.run 4 (latch nlen tlen s) = .next (between Config.cipher k d nlen tlen s 0 0) :=
    run_group (group_b0 ha hk) rfl hsel hwhole rfl
  have aad : core.run (2 * aadBlocks s.hdrLenReg.toNat) (between Config.cipher k d nlen tlen s 0 0) =
      .next (between Config.cipher k d nlen tlen s (aadBlocks s.hdrLenReg.toNat) 0) :=
    run_mul (f := fun j => between Config.cipher k d nlen tlen s j 0) fun _ hj =>
      run_group (group_aad ha hk hj) rfl hsel hwhole (if_pos hj)
  have payload : core.run (6 * payloadBlocks s.msgLenReg.toNat)
      (between Config.cipher k d nlen tlen s (aadBlocks s.hdrLenReg.toNat) 0) =
      .next (between Config.cipher k d nlen tlen s (aadBlocks s.hdrLenReg.toNat)
        (payloadBlocks s.msgLenReg.toNat)) := by
    rw [← groupOps_payload_length s.dir]
    exact run_mul (f := between Config.cipher k d nlen tlen s (aadBlocks s.hdrLenReg.toNat)) fun _ hi =>
      run_group (group_payload ha hk hi) rfl hsel hwhole ((if_neg (lt_irrefl _)).trans (if_pos hi))
  have tag := run_group (p := .tag) (group_tag_messageDone (c := Config.cipher) ha hk) rfl hsel hwhole
    ((if_neg (lt_irrefl _)).trans (if_neg (lt_irrefl _)))
  exact run_trans (run_trans (run_trans b0 aad) payload) (hd ▸ tag)

/-- Where the output is released, the last group leaves the closed form (R203, R214). -/
theorem messageDone_eq_messageResult {c : Cipher}
    (released : tagAccepted d tlen (messageDataOf c k d nlen tlen s).tag s.tagIn ∨
      s.config.releasePolicy = .streaming) : messageDone c k d nlen tlen s = messageResult c k d nlen tlen s := by
  have written : (messageResult c k d nlen tlen s).msg =
      Memory.write s.msg 0 (messageDataOf c k d nlen tlen s).output := if_pos released
  rw [messageDone, ← written]

/-- The fine-grained run and the command end in the same state, but for a `BUFFERED` decryption (R191, R214). -/
theorem run_message_eq_message (keyed : s.keySchedule ≠ none) (ha : Accepted d nlen tlen s) (hsel : s.sel = [])
    (h : d = .enc ∨ s.config.releasePolicy = .streaming) :
    core.run (4 + 2 * aadBlocks s.hdrLenReg.toNat + 6 * payloadBlocks s.msgLenReg.toNat + (groupOps .tag d).length)
      (latch nlen tlen s) = message Config.cipher d nlen tlen s := by
  obtain ⟨k, hk⟩ := Option.ne_none_iff_exists'.mp keyed
  have taken : ¬ (s.config.releasePolicy = .buffered ∧ d = .dec) := by
    rintro ⟨buffered, dec⟩
    rcases h with enc | streaming
    · cases enc.symm.trans dec
    · cases streaming.symm.trans buffered
  rw [message_accepted ha hk, ← messageDone_eq_messageResult (h.imp_left .inl)]
  exact run_message ha hk hsel taken

end Sys2Proof.Machine

namespace Sys2Proof

open Sys2Proof.Machine

/-- Settles O10, by induction on the micro-operations of the group that are still pending. -/
theorem groupStepsAreTheGroup : Obligations.GroupStepsAreTheGroup := fun _ => run_groupOps

/-- Settles O11: each group is its micro-operations, and the groups one after the other are the command. -/
theorem fineGrainedRunIsTheCommand : Obligations.FineGrainedRunIsTheCommand := fun _ _ _ keyed hsel =>
  ⟨fun ha => run_message_eq_message keyed ha hsel (.inl rfl),
    fun ha streaming => run_message_eq_message keyed ha hsel (.inr streaming)⟩

end Sys2Proof
end

section
/-! The commands, accepted and refused (`45_controller.md` R190 to R197): which check of a message command fails first,
what a refusal, a key setup and a message reset leave, and that no command leaves a message in progress. -/

namespace Sys2Proof.Machine

variable {c : Cipher} {k : KeySchedule} {d : Dir} {nlen tlen : Nat} {s t : State} {code : ErrorCode}

/-! ## The checks in their order -/

theorem checkSequencing_refused (h : ¬ (s.state = .keyed ∧ s.dir = d)) : checkSequencing d s = some .badAuthCall :=
  if_pos (not_and_or.mp h)

theorem checkNonceAndTag_nonce_refused (hn : ¬ nonceLenLegal nlen) :
    checkNonceAndTag nlen tlen = some .badNonceLength := if_pos hn

theorem checkNonceAndTag_tag_refused (hn : nonceLenLegal nlen) (ht : ¬ tagLenLegal tlen) :
    checkNonceAndTag nlen tlen = some .badAuthFieldLength :=
  (if_neg (not_not.mpr hn)).trans (if_pos ht)

theorem checkLengths_header_refused (hh : ¬ s.hdrLenReg.toNat ≤ s.config.lenMax) :
    checkLengths nlen s = some .authLengthError := if_pos (not_le.mp hh)

theorem checkLengths_message_refused (hh : s.hdrLenReg.toNat ≤ s.config.lenMax)
    (hm : ¬ (s.msgLenReg.toNat < 2 ^ (8 * (15 - nlen)) ∧ s.msgLenReg.toNat ≤ s.config.lenMax)) :
    checkLengths nlen s = some .msgLengthError := by
  rw [not_and_or, not_lt, not_le] at hm
  exact (if_neg (not_lt.mpr hh)).trans (if_pos hm)

/-- The first check that fails, in the order of R195. -/
theorem checkMessage_refused
    (h : (¬ (s.state = .keyed ∧ s.dir = d) ∧ code = .badAuthCall) ∨
      ((s.state = .keyed ∧ s.dir = d) ∧ ¬ nonceLenLegal nlen ∧ code = .badNonceLength) ∨
      ((s.state = .keyed ∧ s.dir = d) ∧ nonceLenLegal nlen ∧ ¬ tagLenLegal tlen ∧ code = .badAuthFieldLength) ∨
      ((s.state = .keyed ∧ s.dir = d) ∧ nonceLenLegal nlen ∧ tagLenLegal tlen ∧
        ¬ s.hdrLenReg.toNat ≤ s.config.lenMax ∧ code = .authLengthError) ∨
      ((s.state = .keyed ∧ s.dir = d) ∧ nonceLenLegal nlen ∧ tagLenLegal tlen ∧
        s.hdrLenReg.toNat ≤ s.config.lenMax ∧
        ¬ (s.msgLenReg.toNat < 2 ^ (8 * (15 - nlen)) ∧ s.msgLenReg.toNat ≤ s.config.lenMax) ∧
        code = .msgLengthError)) :
    checkMessage d nlen tlen s = some code := by
  unfold checkMessage
  rcases h with ⟨hs, rfl⟩ | ⟨hs, hn, rfl⟩ | ⟨hs, hn, ht, rfl⟩ | ⟨hs, hn, ht, hh, rfl⟩ | ⟨hs, hn, ht, hh, hm, rfl⟩
  · rw [checkSequencing_refused hs, Option.some_or]
  · rw [checkSequencing_eq_none.mpr hs, checkNonceAndTag_nonce_refused hn, Option.none_or, Option.some_or]
  · rw [checkSequencing_eq_none.mpr hs, checkNonceAndTag_tag_refused hn ht, Option.none_or, Option.some_or]
  · rw [checkSequencing_eq_none.mpr hs, checkNonceAndTag_eq_none.mpr ⟨hn, ht⟩, checkLengths_header_refused hh,
      Option.none_or, Option.none_or]
  · rw [checkSequencing_eq_none.mpr hs, checkNonceAndTag_eq_none.mpr ⟨hn, ht⟩, checkLengths_message_refused hh hm,
      Option.none_or, Option.none_or]

/-- `CBC_BAD_KEY` is the report of a key setup, not of a message command (R192, R195). -/
theorem checkMessage_ne_badKey (d : Dir) (nlen tlen : Nat) (s : State) : checkMessage d nlen tlen s ≠ some .badKey := by
  unfold checkMessage checkSequencing checkNonceAndTag checkLengths
  split_ifs <;> nofun

/-- A message command that fails a check raises its status (R195, R236). -/
theorem message_refused (h : checkMessage d nlen tlen s = some code) :
    message c d nlen tlen s = .next (raiseStatus code s) := by
  rw [message, h]

/-! ## The rows of the transition table (R190) -/

theorem initKey_accepted {klen : Nat} (h : klen ∈ s.config.keySizes) :
    (initKey c d klen s).state = .keyed ∧ (initKey c d klen s).status = .good := by
  rw [initKey, if_pos h]; exact ⟨rfl, rfl⟩

theorem initKey_refused {klen : Nat} (h : klen ∉ s.config.keySizes) :
    (initKey c d klen s).state = .unkeyed ∧ (initKey c d klen s).status = .error .badKey := by
  rw [initKey, if_neg h]; exact ⟨rfl, rfl⟩

/-- The rows of a message command. -/
structure MessageRow (d : Dir) (nlen tlen : Nat) (s t : State) : Prop where
  unsequenced : s.state ≠ .keyed → t.state = s.state ∧ t.status = .error .badAuthCall
  refused : s.state = .keyed → ¬ Accepted d nlen tlen s → t.state = .error ∧ ∃ e, e ≠ .badKey ∧ t.status = .error e
  accepted : s.state = .keyed → Accepted d nlen tlen s →
    (t.state = .messageOk ∧ t.status = .good) ∨ (d = .dec ∧ t.state = .messageFailed ∧ t.status = .warn)

/-- An accepted message ends well, or, if it is a decryption, with the warning (R211, R212). -/
theorem messageRow_messageResult (ha : Accepted d nlen tlen s) :
    MessageRow d nlen tlen s (messageResult c k d nlen tlen s) where
  unsequenced := fun hn => absurd ha.keyed hn
  refused := fun _ hn => absurd ha hn
  accepted := fun _ _ => by
    by_cases h : tagAccepted d tlen (messageResult c k d nlen tlen s).tagOut s.tagIn
    · exact .inl (messageResult_of_tagAccepted c k h).symm
    · obtain ⟨hstatus, hstate⟩ := messageResult_of_not_tagAccepted c k h
      have dec : d = .dec := by
        cases d with
        | enc => exact absurd (.inl rfl) h
        | dec => rfl
      exact .inr ⟨dec, hstate, hstatus⟩

theorem messageRow_raiseStatus (h : checkMessage d nlen tlen s = some code) :
    MessageRow d nlen tlen s (raiseStatus code s) where
  unsequenced := fun hn => by
    have first := checkMessage_refused (d := d) (nlen := nlen) (tlen := tlen) (.inl ⟨fun hs => hn hs.1, rfl⟩)
    cases h.symm.trans first
    exact ⟨if_neg hn, rfl⟩
  refused := fun hk _ => ⟨if_pos hk, code, fun e => checkMessage_ne_badKey d nlen tlen s (e ▸ h), rfl⟩
  accepted := fun _ ha => by cases h.symm.trans (checkMessage_eq_none.mpr ha)

/-- A message command ends in every state whose key schedule is there when it is needed. -/
theorem exists_messageRow (keyed : s.keySchedule = none ↔ s.state = .unkeyed) (c : Cipher) (d : Dir) (nlen tlen : Nat) :
    ∃ t, message c d nlen tlen s = .next t ∧ MessageRow d nlen tlen s t := by
  cases hc : checkMessage d nlen tlen s with
  | some code => exact ⟨_, message_refused hc, messageRow_raiseStatus hc⟩
  | none =>
    have ha : Accepted d nlen tlen s := checkMessage_eq_none.mp hc
    obtain ⟨k, hk⟩ : ∃ k, s.keySchedule = some k :=
      Option.ne_none_iff_exists'.mp fun hn => by cases ha.keyed.symm.trans (keyed.mp hn)
    exact ⟨_, message_accepted ha hk, messageRow_messageResult ha⟩

/-! ## No message is left in progress -/

theorem SameButOperands.state (h : SameButOperands s t) : t.state = s.state := by rw [h.engine]

/-- Whatever the step is, the host finds no message in progress after it (R191). -/
theorem step_settled (h : Inv s) (hp : s.state ≠ .processing) (hs : step s = .next t) : t.state ≠ .processing := by
  cases step_cases hs with
  | micro hc => exact absurd (h.processing_of_pendingCodes hc) hp
  | resume running => exact absurd running hp
  | idle => exact hp
  | access _ _ _ _ ha =>
    rcases hostAction_next ha with rfl | same
    · nofun
    · rw [same.state]; exact hp
  | illegal => exact hp
  | @command _ _ rest _ _ _ _ _ _ hd he => exact ((exec_command_cases hd he).done (h.withHost rest) hp).settled

end Sys2Proof.Machine

namespace Sys2Proof

open Sys2Proof.Machine

/-- Settles O25, by the kinds of step there are. -/
theorem commandsAreAtomic : Obligations.CommandsAreAtomic := fun _ _ h hp hs => step_settled h hp hs

/-- Settles O30: the check that fails first gives the code, which is raised. -/
theorem refusedMessageChangesOnlyStatus : Obligations.RefusedMessageChangesOnlyStatus := by
  intro d nlen tlen s code sequenced nonceOk tagOk hdrOk msgOk h
  exact (exec_messageInstr d nlen tlen s).trans (message_refused (checkMessage_refused h))

/-- Settles O38, command by command. -/
theorem stateTransitions : Obligations.StateTransitions := by
  intro klen nlen tlen s keyed
  refine ⟨fun i hi => ?_, ?_, fun d => ?_, fun w _ => ⟨_, rfl, rfl, rfl⟩⟩
  · obtain rfl | rfl : i = .initEnkey klen ∨ i = .initDekey klen := by simpa using hi
    · exact ⟨_, rfl, initKey_accepted, initKey_refused⟩
    · exact ⟨_, rfl, initKey_accepted, initKey_refused⟩
  · refine ⟨_, rfl, fun hs => ?_, fun hs => ?_⟩
    · rw [if_neg hs]; exact ⟨rfl, rfl⟩
    · rw [if_pos hs]; exact ⟨hs, rfl⟩
  · obtain ⟨t, ht, row⟩ := exists_messageRow keyed Config.cipher d nlen tlen
    exact ⟨t, (exec_messageInstr d nlen tlen s).trans ht, row.unsequenced, row.refused, row.accepted⟩

/-- Settles O28: both key setups are `initKey`, which the key length decides. -/
theorem keySetupResult : Obligations.KeySetupResult := fun _ _ =>
  ⟨fun accepted => ⟨congrArg _ (if_pos accepted), congrArg _ (if_pos accepted)⟩,
    fun refused => ⟨congrArg _ (if_neg refused), congrArg _ (if_neg refused)⟩⟩

/-- Settles O29: whether there is a key decides. -/
theorem msgResetResult : Obligations.MsgResetResult := fun _ =>
  ⟨fun keyed => congrArg _ (if_neg keyed), fun unkeyed => congrArg _ (if_pos unkeyed)⟩

end Sys2Proof
end

section
/-! The closed form of an accepted message command (`45_controller.md` R202, R203, R214, R215): it is the same under
either release policy but for `MSG` after a mismatch, and a decryption of what an encryption left undoes it. -/

namespace Sys2Proof.Machine

variable {c : Cipher} {k : KeySchedule} {d : Dir} {nlen tlen : Nat} {s u : State}

/-! ## The release policy (R202, R214) -/

/-- The same machine built with another release policy. -/
def withPolicy (p : ReleasePolicy) (s : State) : State := { s with config := { s.config with releasePolicy := p } }

/-- No check looks at the release policy (R196 to R198). -/
theorem Accepted.withPolicy (ha : Accepted d nlen tlen s) (p : ReleasePolicy) :
    Accepted d nlen tlen (withPolicy p s) :=
  ⟨ha.keyed, ha.direction, ha.nonce, ha.tag, ha.header, ha.fits, ha.message⟩

/-- The closed form reads the release policy for `MSG` after a mismatch only. -/
theorem messageResult_buffered (c : Cipher) (k : KeySchedule) (d : Dir) (nlen tlen : Nat) (s : State) :
    messageResult c k d nlen tlen (withPolicy .buffered s) =
      { messageResult c k d nlen tlen (withPolicy .streaming s) with
        config := (withPolicy .buffered s).config
        msg := if tagAccepted d tlen (messageDataOf c k d nlen tlen s).tag s.tagIn then
          (messageResult c k d nlen tlen (withPolicy .streaming s)).msg else s.msg } := by
  have written : (messageResult c k d nlen tlen (withPolicy .streaming s)).msg =
      Memory.write s.msg 0 (messageDataOf c k d nlen tlen s).output := if_pos (.inr rfl)
  have kept : (messageResult c k d nlen tlen (withPolicy .buffered s)).msg =
      if tagAccepted d tlen (messageDataOf c k d nlen tlen s).tag s.tagIn then
        Memory.write s.msg 0 (messageDataOf c k d nlen tlen s).output else s.msg :=
    if_congr (or_iff_left nofun) rfl rfl
  rw [written, ← kept]
  rfl

theorem messageResult_failed : (messageResult c k d nlen tlen s).state = .messageFailed ↔
    ¬ tagAccepted d tlen (messageDataOf c k d nlen tlen s).tag s.tagIn := messageDone_failed

/-! ## Decryption of an encryption (R215) -/

/-- The blocks of the MAC read the header and the plaintext below their lengths only (R154). -/
theorem macBlocks_congr {h n : Nat} {nonce : List Byte} {hdr hdr' plain plain' : Nat → Byte}
    (sameHdr : ∀ a < h, hdr' a = hdr a) (samePlain : ∀ a < n, plain' a = plain a) :
    macBlocks tlen nonce h hdr' n plain' = macBlocks tlen nonce h hdr n plain := by
  have aad : aadBlock h hdr' = aadBlock h hdr := by
    funext j
    simp only [aadBlock, aadBytesFrom, aadByte_congr sameHdr]
  have payload (i : Nat) : payloadBytes plain' n i = payloadBytes plain n i :=
    List.map_congr_left fun a ha => samePlain _ (by have := List.mem_range.mp ha; omega)
  simp only [macBlocks, aad, payload]

/-- What `u` has to hold for a decryption of what an encryption in `s` left. -/
structure Decrypts (nlen : Nat) (s u t : State) : Prop where
  nonce : u.nonce.toList.take nlen = s.nonce.toList.take nlen
  hdrLen : u.hdrLenReg = s.hdrLenReg
  hdr : ∀ a < s.hdrLenReg.toNat, u.hdrByte a = s.hdrByte a
  msgLen : u.msgLenReg = s.msgLenReg
  msg : ∀ a < s.msgLenReg.toNat, u.msgByte a = t.msgByte a

/-- The keystream xor-ed twice is gone (R169). -/
theorem Decrypts.output (h : Decrypts nlen s u (messageResult c k .enc nlen tlen s)) {a : Nat}
    (ha : a < s.msgLenReg.toNat) :
    u.msgByte a ^^^ keystreamByte (c.encryptBlock k) (s.nonce.toList.take nlen) a = s.msgByte a := by
  rw [h.msg a ha, messageResult_msgByte_below ha (.inl (.inl rfl)), BitVec.xor_assoc, BitVec.xor_self,
    BitVec.xor_zero]

/-- Both directions have the same plaintext. -/
theorem Decrypts.plain (h : Decrypts nlen s u (messageResult c k .enc nlen tlen s)) {a : Nat}
    (ha : a < s.msgLenReg.toNat) : plainByte c k .dec nlen u a = plainByte c k .enc nlen s a := by
  show outputByte c k nlen u a = s.msgByte a
  rw [outputByte, h.nonce, h.output ha]

/-- The tag is made of the plaintext, in both directions (R203). -/
theorem messageDataOf_tag (c : Cipher) (k : KeySchedule) (d : Dir) (nlen tlen : Nat) (s : State) :
    (messageDataOf c k d nlen tlen s).tag =
      maskedTag (cbcMac (c.encryptBlock k) (macBlocks tlen (s.nonce.toList.take nlen) s.hdrLenReg.toNat s.hdrByte
        s.msgLenReg.toNat (plainByte c k d nlen s))) (c.encryptBlock k (ctrBlock (s.nonce.toList.take nlen) 0)) tlen :=
  rfl

theorem Decrypts.tag (h : Decrypts nlen s u (messageResult c k .enc nlen tlen s)) :
    (messageDataOf c k .dec nlen tlen u).tag = (messageDataOf c k .enc nlen tlen s).tag := by
  rw [messageDataOf_tag, messageDataOf_tag, h.nonce, h.hdrLen, h.msgLen, macBlocks_congr h.hdr fun _ => h.plain]

/-- The decryption is accepted and gives the message back. -/
theorem Decrypts.result (h : Decrypts nlen s u (messageResult c k .enc nlen tlen s))
    (htag : u.tagIn.toList.take tlen = (messageResult c k .enc nlen tlen s).tagOut.toList.take tlen) :
    (messageResult c k .dec nlen tlen u).status = .good ∧ (messageResult c k .dec nlen tlen u).state = .messageOk ∧
      ∀ a < s.msgLenReg.toNat, (messageResult c k .dec nlen tlen u).msgByte a = s.msgByte a := by
  have matched : tagAccepted .dec tlen (messageResult c k .dec nlen tlen u).tagOut u.tagIn :=
    tagAccepted_dec.mpr ((congrArg (fun tag : Block => tag.toList.take tlen) h.tag).trans htag.symm)
  obtain ⟨good, ok⟩ := messageResult_of_tagAccepted c k matched
  refine ⟨good, ok, fun a ha => ?_⟩
  rw [messageResult_msgByte_below (h.msgLen ▸ ha) (.inl matched), h.nonce, h.output ha]

end Sys2Proof.Machine

namespace Sys2Proof

open Sys2Proof.Machine

/-- Settles O31, for both commands by the groups of the latched message. -/
theorem acceptedMessageGivesClosedForm : Obligations.AcceptedMessageGivesClosedForm := fun _ _ _ _ hk =>
  ⟨fun ha => message_accepted ha hk, fun ha => message_accepted ha hk⟩

/-- Settles O32, by the closed form, which an encryption always releases. -/
theorem bufferedKeepsMsgOnMismatch : Obligations.BufferedKeepsMsgOnMismatch := by
  intro nlen tlen s keyed streaming buffered
  obtain ⟨k, hk⟩ := Option.ne_none_iff_exists'.mp keyed
  refine ⟨fun ha => ⟨_, message_accepted (ha.withPolicy .streaming) hk, ?_⟩,
    fun ha => ⟨_, message_accepted (ha.withPolicy .streaming) hk, ?_⟩⟩
  · refine (message_accepted (ha.withPolicy .buffered) hk).trans ?_
    rw [messageResult_buffered]
    simp only [messageResult_failed, ite_not]
    rfl
  · refine (message_accepted (ha.withPolicy .buffered) hk).trans ?_
    rw [messageResult_buffered, if_pos (.inl rfl)]
    rfl

/-- Settles O33, by the closed form of both commands. -/
theorem decryptionUndoesEncryption : Obligations.DecryptionUndoesEncryption := by
  intro nlen tlen s u keyed hs hu hkey hnonce hhdrLen hhdr hmsgLen
  obtain ⟨k, hk⟩ := Option.ne_none_iff_exists'.mp keyed
  refine ⟨_, message_accepted hs hk, fun hmsg htag => ⟨_, message_accepted hu (hkey.trans hk), ?_⟩⟩
  exact Decrypts.result ⟨hnonce, hhdrLen, hhdr, hmsgLen, hmsg⟩ htag

end Sys2Proof
end

section
/-! Refusals and stops (`60_exceptions.md` R233, R234, R237, R241, `20_memory.md` R61): a message command in the wrong
state changes the reports only, and with no message in progress a step goes on unless the host names no place. -/

namespace Sys2Proof.Machine

variable {c : Cipher} {d : Dir} {nlen tlen : Nat} {s : State} {a : HostAction} {rest : List HostAction}

/-! ## Outside `KEYED` -/

theorem raiseStatus_of_ne_keyed (code : ErrorCode) (hs : s.state ≠ .keyed) :
    raiseStatus code s = { s with status := .error code, lastError := some code } := by
  rw [raiseStatus, if_neg hs]

/-- A message command that is not called in `KEYED` is an illegal call and changes its reports only (R196, R236). -/
theorem message_of_ne_keyed (hs : s.state ≠ .keyed) :
    message c d nlen tlen s = .next { s with status := .error .badAuthCall, lastError := some .badAuthCall } := by
  have refused : checkMessage d nlen tlen s = some .badAuthCall := checkMessage_refused (.inl ⟨fun h => hs h.1, rfl⟩)
  rw [message_refused refused, raiseStatus_of_ne_keyed _ hs]

/-- Once there is a key, `MSG_RESET` leads to `KEYED` and keeps it (R194). -/
theorem exists_execMsgReset_keyed (hs : s.state ≠ .unkeyed) :
    ∃ t, execMsgReset s = .next t ∧ t.state = .keyed ∧ t.keySchedule = s.keySchedule ∧ t.dir = s.dir := by
  refine ⟨_, rfl, ?_⟩
  rw [if_neg hs]
  exact ⟨rfl, rfl, rfl⟩

/-! ## Accesses to no place -/

/-- The access names a register above 5 or a byte outside its space, or writes to `CMD` what is no 32-bit word (R34,
R61, R69). -/
def NoSuchPlace (s : State) : HostAction → Prop
  | .regRead k => 5 < k
  | .regWrite k v => 5 < k ∨ k = 0 ∧ 2 ^ 32 ≤ v.toNat
  | .byteRead sp i => spaceSize s sp ≤ i
  | .byteWrite sp i _ => spaceSize s sp ≤ i
  | .reset => False

theorem noSuchPlace_iff : NoSuchPlace s a ↔
    (∃ k, 5 < k ∧ a = .regRead k) ∨ (∃ k v, 5 < k ∧ a = .regWrite k v) ∨
      (∃ v : BitVec 64, 2 ^ 32 ≤ v.toNat ∧ a = .regWrite 0 v) ∨
      (∃ sp i, spaceSize s sp ≤ i ∧ (a = .byteRead sp i ∨ ∃ v, a = .byteWrite sp i v)) := by
  cases a with
  | regWrite k v => simp [NoSuchPlace, and_comm]
  | regRead | byteRead | byteWrite | reset => simp [NoSuchPlace]

theorem noSuchPlace_withHost : NoSuchPlace { s with host := rest } a ↔ NoSuchPlace s a := by
  cases a <;> rfl

theorem exists_hostRegRead {k : Nat} (s : State) (hk : k ≤ 5) : ∃ v, hostRegRead s k = some v := by
  interval_cases k <;> exact ⟨_, rfl⟩

theorem exists_hostRegWrite {k : Nat} (s : State) (v : BitVec 64) (h0 : k ≠ 0) (hk : k ≤ 5) :
    ∃ t, hostRegWrite s k v = some t := by
  interval_cases k
  · exact absurd rfl h0
  all_goals exact ⟨_, rfl⟩

/-- A command is a write to a place, of a 32-bit word (R35). -/
theorem NoSuchPlace.commandOf_eq_none (h : NoSuchPlace s a) : commandOf a = none := by
  match a, h with
  | .regRead _, _ | .byteRead _ _, _ | .byteWrite _ _ _, _ => rfl
  | .regWrite _ v, .inl hk => exact commandOf_regWrite_of_ne_zero v (by omega)
  | .regWrite _ _, .inr ⟨rfl, hv⟩ => exact commandOf_regWrite_zero_of_wide hv

theorem hostAction_of_noSuchPlace (h : NoSuchPlace s a) : ∃ r, hostAction a s = .refused r := by
  match a, h with
  | .regRead k, hk =>
    refine ⟨.noSuchRegister, ?_⟩
    simp only [hostAction, hostRegRead_of_six_le s hk]
  | .regWrite k v, .inl hk => exact ⟨_, hostAction_regWrite_none (by omega) (hostRegWrite_of_six_le s v hk)⟩
  | .regWrite _ _, .inr ⟨rfl, _⟩ => exact ⟨_, rfl⟩
  | .byteRead _ _, hi => exact ⟨_, if_neg (Nat.not_lt.mpr hi)⟩
  | .byteWrite _ _ _, hi => exact ⟨_, if_neg (Nat.not_lt.mpr hi)⟩

/-- Every other access that issues no command is performed (R61). -/
theorem exists_hostAction (ha : commandOf a = none) (h : ¬ NoSuchPlace s a) : ∃ t, hostAction a s = .next t := by
  cases a with
  | regRead k =>
    obtain ⟨v, hv⟩ := exists_hostRegRead s (Nat.not_lt.mp h)
    refine ⟨giveHost s v, ?_⟩
    simp only [hostAction, hv]
  | regWrite k v =>
    obtain ⟨above, wide⟩ := not_or.mp h
    have other : k ≠ 0 := by
      rintro rfl
      have word : v.toNat < 2 ^ 32 := Nat.not_le.mp fun hv => wide ⟨rfl, hv⟩
      cases (if_pos word).symm.trans ha
    obtain ⟨t, ht⟩ := exists_hostRegWrite s v other (Nat.not_lt.mp above)
    exact ⟨t, hostAction_regWrite_some other ht⟩
  | byteRead sp i => exact ⟨_, if_pos (Nat.not_le.mp h)⟩
  | byteWrite sp i v => exact ⟨_, if_pos (Nat.not_le.mp h)⟩
  | reset => exact ⟨_, rfl⟩

/-! ## Steps with no message in progress -/

theorem step_of_no_host (hp : s.state ≠ .processing) (hsel : s.sel = []) (hhost : s.host = []) :
    step s = .next s := by
  rw [step, fetch_idle hp hsel, fetchHost, hhost]

theorem step_of_noSuchPlace (hp : s.state ≠ .processing) (hsel : s.sel = []) (hhost : s.host = a :: rest)
    (h : NoSuchPlace s a) : ∃ r, step s = .refused r := by
  rw [step_hostAction hp hsel hhost h.commandOf_eq_none]
  exact hostAction_of_noSuchPlace (noSuchPlace_withHost.mpr h)

/-- Otherwise the step goes on: the engine waits, performs the access, reports an illegal word or runs the command to
its end (R233, R261). -/
theorem exists_step (h : Inv s) (hp : s.state ≠ .processing)
    (place : ∀ a rest, s.host = a :: rest → ¬ NoSuchPlace s a) : ∃ t, step s = .next t := by
  have hsel : s.sel = [] := h.selEmpty hp
  cases hhost : s.host with
  | nil => exact ⟨s, step_of_no_host hp hsel hhost⟩
  | cons a rest =>
    cases ha : commandOf a with
    | none =>
      rw [step_hostAction hp hsel hhost ha]
      exact exists_hostAction ha (mt noSuchPlace_withHost.mp (place a rest hhost))
    | some w =>
      cases hd : decodeCommand w with
      | error e => exact ⟨_, step_illegal hp hsel hhost ha hd⟩
      | ok i =>
        rw [step_command hp hsel hhost ha hd]
        obtain ⟨t, ht, -⟩ := (h.withHost rest).exists_exec hp hd
        exact ⟨t, ht⟩

end Sys2Proof.Machine

namespace Sys2Proof

open Sys2Proof.Machine

/-- Settles O26: an access to no place is refused, and any other step goes on. -/
theorem commandsNeverFault : Obligations.CommandsNeverFault := by
  intro s inv hp
  simp only [← noSuchPlace_iff]
  by_cases noPlace : ∃ a rest, s.host = a :: rest ∧ NoSuchPlace s a
  · obtain ⟨a, rest, hhost, h⟩ := noPlace
    obtain ⟨r, hr⟩ := step_of_noSuchPlace hp (inv.selEmpty hp) hhost h
    rw [hr]
    exact ⟨nofun, fun _ => ⟨a, rest, hhost, h⟩, fun _ => ⟨r, rfl⟩⟩
  · obtain ⟨t, ht⟩ := exists_step inv hp fun a rest hhost h => noPlace ⟨a, rest, hhost, h⟩
    rw [ht]
    exact ⟨nofun, nofun, fun h => absurd h noPlace⟩

/-- Settles O37: `ERROR` is neither `KEYED`, which the message commands need, nor `UNKEYED`, where there is no key. -/
theorem errorIsSticky : Obligations.ErrorIsSticky := by
  intro nlen tlen s hs
  have notKeyed : s.state ≠ .keyed := by rw [hs]; nofun
  have notUnkeyed : s.state ≠ .unkeyed := by rw [hs]; nofun
  exact ⟨message_of_ne_keyed notKeyed, message_of_ne_keyed notKeyed, exists_execMsgReset_keyed notUnkeyed⟩

end Sys2Proof
end

section
/-! The engine between commands: it waits for the host, and a reset forgets the key (`70_reset_and_hazards.md` R260 to
R262). -/

namespace Sys2Proof.Machine

variable {s : State} {rest : List HostAction}

/-- A reset is no command, so it is taken as a host action, after the host's list has moved on. -/
theorem step_reset (hp : s.state ≠ .processing) (hsel : s.sel = []) (hhost : s.host = .reset :: rest) :
    step s = .next (applyReset { s with host := rest }) :=
  step_hostAction hp hsel hhost rfl

end Sys2Proof.Machine

namespace Sys2Proof

open Sys2Proof.Machine

/-- Settles O8: with no code to issue the engine looks to the host, which has no action. -/
theorem engineWaitsForTheHost : Obligations.EngineWaitsForTheHost :=
  fun _ hp hsel hhost => step_of_no_host hp hsel hhost

/-- Settles O22: the step is `applyReset`, and the reset values are those of R50. -/
theorem resetForgetsTheKey : Obligations.ResetForgetsTheKey := by
  intro s rest hp hsel hhost
  obtain ⟨-, valuesOf⟩ := resetValues
  obtain ⟨unkeyed, noSchedule, -, -, -, -, -, -, -, -, -, -, -, -, -, -, -, keyZero, -⟩ := valuesOf s.config
  exact ⟨step_reset hp hsel hhost, noSchedule, keyZero, unkeyed⟩

end Sys2Proof
end
